-- ==== Sys2Proof/Word.lean ====
section
/-! DEFINITION. The word types of HUFFDEC. -/

namespace Sys2Proof

/-- A command word, a register or the value of a host access: 32 bits (10_state.md R22, 30_encoding.md R80). -/
abbrev Word := BitVec 32

/-- A byte of stream memory (10_state.md R34). -/
abbrev Byte := BitVec 8

/-- A table entry, `(symbol<<4 | code_length)` (10_state.md R31). -/
abbrev Entry := BitVec 16

end Sys2Proof
end

