-- ==== Sys2Proof/Syntax.lean ====
section
/-! DEFINITION. The command set, one constructor for each row of spec/opcode_table.json. -/

namespace Sys2Proof

/-- A command, its fields as 30_encoding.md R81 and R82 give them: unsigned, straight from the word's bits. -/
inductive Instr where
  /-- No operation (R103). -/
  | nop
  /-- Start a new stream of `len` bytes (R104). -/
  | stream (len : BitVec 28)
  /-- Read `n` bits (R105). -/
  | readbits (n : BitVec 5)
  /-- Set the code length of symbol `sym` to `cl` (R120). -/
  | setcl (sym : BitVec 12) (cl : BitVec 4)
  /-- Clear all code lengths (R121). -/
  | clrcl
  /-- Build the table of the alphabet `0 .. cnt-1` into `slot` (R130). -/
  | build (slot : BitVec 4) (cnt : BitVec 13)
  /-- Decode one symbol with the table in `slot` (R160). -/
  | decode (slot : BitVec 4)
  /-- Read a main-table entry (R180). -/
  | rdmain (slot : BitVec 4) (idx : BitVec 8)
  /-- Read a subtable entry (R181). -/
  | rdsub (slot : BitVec 4) (sub : BitVec 8) (idx : BitVec 7)
  /-- Read a table's summary (R182). -/
  | tinfo (slot : BitVec 4)
deriving DecidableEq, Repr

end Sys2Proof
end

