-- ==== Sys2Proof/Decode.lean ====
section
/-! DEFINITION. Decoding a command word (30_encoding.md R80 to R84), and the encoder (R88). -/

namespace Sys2Proof

/-- Why a word is no command. -/
inductive DecodeError where
  /-- OP is 0xA to 0xF (R84 (a)). -/
  | reservedOp
  /-- A reserved bit of the word's format is 1 (R84 (b)). -/
  | reservedBits
deriving DecidableEq, Repr

/-- Field OP, `w[31:28]` (R80). -/
def opField (w : Word) : BitVec 4 := w.extractLsb' 28 4

/-- Field SLOT of the formats B, T, M and U, `w[27:24]` (R81). -/
def slotField (w : Word) : BitVec 4 := w.extractLsb' 24 4

/-- The command when the format's reserved bits are all zero, and the rejection otherwise. -/
def whenReserved {n : Nat} (reserved : BitVec n) (i : Instr) : Except DecodeError Instr :=
  if reserved = 0 then .ok i else .error .reservedBits

/-- The command a word encodes, by the opcode map R83 and the formats R81. -/
def decode (w : Word) : Except DecodeError Instr :=
  match (opField w).toNat with
  | 0x0 => whenReserved (w.extractLsb' 0 28) .nop
  | 0x1 => .ok (.stream (w.extractLsb' 0 28))
  | 0x2 => whenReserved (w.extractLsb' 5 23) (.readbits (w.extractLsb' 0 5))
  | 0x3 => whenReserved (w.extractLsb' 16 12) (.setcl (w.extractLsb' 4 12) (w.extractLsb' 0 4))
  | 0x4 => whenReserved (w.extractLsb' 0 28) .clrcl
  | 0x5 => whenReserved (w.extractLsb' 13 11) (.build (slotField w) (w.extractLsb' 0 13))
  | 0x6 => whenReserved (w.extractLsb' 0 24) (.decode (slotField w))
  | 0x7 => whenReserved (w.extractLsb' 8 16) (.rdmain (slotField w) (w.extractLsb' 0 8))
  | 0x8 => whenReserved (w.extractLsb' 15 9)
      (.rdsub (slotField w) (w.extractLsb' 7 8) (w.extractLsb' 0 7))
  | 0x9 => whenReserved (w.extractLsb' 0 24) (.tinfo (slotField w))
  | _ => .error .reservedOp

/-- The word of a command: OP first, then the format's fields and zeros, most significant first (R81, R83). -/
def encode : Instr → Word
  | .nop => 0x0#4 ++ 0#28
  | .stream len => 0x1#4 ++ len
  | .readbits n => 0x2#4 ++ 0#23 ++ n
  | .setcl sym cl => 0x3#4 ++ 0#12 ++ sym ++ cl
  | .clrcl => 0x4#4 ++ 0#28
  | .build slot cnt => 0x5#4 ++ slot ++ 0#11 ++ cnt
  | .decode slot => 0x6#4 ++ slot ++ 0#24
  | .rdmain slot idx => 0x7#4 ++ slot ++ 0#16 ++ idx
  | .rdsub slot sub idx => 0x8#4 ++ slot ++ 0#9 ++ sub ++ idx
  | .tinfo slot => 0x9#4 ++ slot ++ 0#24

/-- The command the decoder reads from a word given as a number, the bits above `nbits` zero. -/
def decodeTableWord (nbits w : Nat) : Option Instr :=
  match decode (BitVec.ofNat 32 (w % 2 ^ nbits)) with
  | .ok i => some i
  | .error _ => none

end Sys2Proof
end

