-- ==== Sys2Proof/Config.lean ====
section
/-! DEFINITION. The constants of 00_scope.md R6 and R7, and the parameters of R8 that the document leaves open. -/

namespace Sys2Proof

/-- `HUFFMAN_SPLIT`, the number of stream bits that index a main table (R6). -/
@[simp] abbrev huffmanSplit : Nat := 8

/-- `MAX_CODE_LENGTH` (R6). -/
@[simp] abbrev maxCodeLength : Nat := 15

/-- `MAIN_SIZE`, the number of entries of a main table (R7). -/
@[simp] abbrev mainSize : Nat := 256

/-- `INDIRECT_LEN`, the length field of an indirect main entry (R6). -/
@[simp] abbrev indirectLen : BitVec 4 := 0xF#4

/-- `UNOCCUPIED_SYM`, the symbol field of an unoccupied entry (R6). -/
@[simp] abbrev unoccupiedSym : BitVec 12 := 0xFFF#12

/-- The two values of the parameter `P_INCOMPLETE` (R8). -/
inductive PIncomplete where
  /-- BUILD accepts a code whose Kraft sum is below one (the default). -/
  | accept
  /-- BUILD answers such a code with BUILD_INCOMPLETE. -/
  | reject
deriving DecidableEq, Repr

/-- The parameters of R8.
DESIGN CHOICE (log 2): a configuration is plain data held in State, so that every statement covers every configuration. -/
structure Config where
  /-- `MAX_SYMBOL`, the number of symbols of the largest alphabet. -/
  maxSymbol : Nat
  /-- `NUM_SLOTS`, the number of tables held at once. -/
  numSlots : Nat
  /-- `STREAM_BYTES`, the capacity of the stream memory. -/
  streamBytes : Nat
  /-- `P_INCOMPLETE`. -/
  pIncomplete : PIncomplete
deriving DecidableEq, Repr

/-- The ranges R8 gives the parameters. -/
def Config.wf (c : Config) : Bool :=
  decide (2 ≤ c.maxSymbol) && decide (c.maxSymbol ≤ 4095) &&
  decide (1 ≤ c.numSlots) && decide (c.numSlots ≤ 16) &&
  decide (1 ≤ c.streamBytes) && decide (c.streamBytes ≤ 2 ^ 28 - 1)

/-- The spec's defaults of R8.
`STREAM_BYTES` is OPEN there: DESIGN CHOICE 4096, the value the test vectors assume (92_eei_decisions.md D42), log 2. -/
def Config.default : Config where
  maxSymbol := 2328
  numSlots := 5
  streamBytes := 4096
  pIncomplete := .accept

end Sys2Proof
end

