-- ==== Sys2Proof/Machine/State.lean ====
section
/-! DEFINITION. The state of HUFFDEC as plain data, the outcomes' reasons, and the state after reset. -/

namespace Sys2Proof.Machine

open Sys2Proof

/-- Why a step has no defined result: the `model_fault` reasons of 60_exceptions.md R210. -/
inductive Fault where
  /-- UNWRITTEN_STREAM_BYTE: Peek (R101), or a host read of the stream window (R64), meets a byte no host write has
  written since reset.
  Safe: the spec gives the chip no value there. -/
  | unwrittenStreamByte
deriving DecidableEq, Repr

/-- Why the model does not admit a host action: the `refuse` reasons of 60_exceptions.md R211. -/
inductive Refusal where
  /-- HOST_ACCESS_SHAPE: a host access that is not 32 bits wide or not 4-byte aligned (R62).
  Safe. -/
  | hostAccessShape
  /-- STALE_STREAM_BYTE: Peek of a byte that was written while it might already be in the shift register (R233).
  Safe. -/
  | staleStreamByte
  /-- ACCESS_DURING_RESET: a host access while reset is asserted (R230).
  Safe. -/
  | accessDuringReset
  /-- A command without a meaning in this model; no arm raises it.
  Safe. -/
  | notModelled (mnemonic : String)
deriving DecidableEq, Repr

/-- The values of STATUS.LASTERR that are ever produced (60_exceptions.md R201). -/
inductive ErrorCode where
  | ok
  | illegalCmd
  | eos
  | invalidCode
  | streamFailed
  | slotInvalid
  | buildEmpty
  | buildOversub
  | buildIncomplete
  | range
deriving DecidableEq, Repr

/-- A second-level table: SUBBITS[t][k] and SUB[t][k][0 .. 2^SUBBITS-1] (10_state.md R30). -/
structure Subtable where
  bits : BitVec 3
  entries : List Entry
deriving DecidableEq, Repr

/-- The contents of a slot (10_state.md R30).
NSUB[t] is the length of `subs`. -/
structure Table where
  maxLen : BitVec 4
  main : Vector Entry 256
  subs : List Subtable
deriving DecidableEq, Repr

/-- A slot: VALID[t] and the contents, which no command reads while `valid` is false (10_state.md R30). -/
structure Slot where
  valid : Bool
  table : Table
deriving DecidableEq, Repr

/-- One host access with its address and its width in bytes (20_memory.md R61, R62). -/
inductive HostAccess where
  | read (addr : Word) (bytes : Nat)
  | write (addr : Word) (bytes : Nat) (value : Word)
deriving DecidableEq, Repr

/-- What can happen to the block next (log 1, log 7, log 17). -/
inductive Event where
  /-- A host access, with the level of the reset input at that moment (70_reset_and_hazards.md R230). -/
  | access (resetAsserted : Bool) (a : HostAccess)
  /-- The platform asserts and releases reset (R230). -/
  | reset
  /-- The bit reader loads up to `bytes` whole bytes into the shift register (10_state.md R35). -/
  | refill (bytes : Nat)
deriving DecidableEq, Repr

/-- Stream memory: the written bytes as rising (index, byte) pairs.
An unlisted byte is one with WRITTEN = 0, and has no value (10_state.md R34). -/
abbrev Memory := List Host.Cell

/-- The canonical form of stream memory: indices strictly rising. -/
def Memory.wf (m : Memory) : Bool := decide (m.Pairwise fun x y => x.1 < y.1)

/-- Code-length memory: the non-zero entries as rising (symbol, length) pairs; an unlisted entry is 0 (10_state.md R33). -/
abbrev CodeLengths := List (Nat × BitVec 4)

/-- The canonical form of code-length memory: symbols strictly rising, no entry 0. -/
def CodeLengths.wf (m : CodeLengths) : Bool :=
  decide (m.Pairwise fun x y => x.1 < y.1) && m.all fun x => decide (x.2 ≠ 0)

/-- The state of the block (10_state.md), the ghost bits (R36), and the model's own `events` and `readData`. -/
structure State where
  /-- The parameters of 00_scope.md R8; no step changes them. -/
  config : Config
  /-- RESULT (R24). -/
  result : Word
  /-- STATUS[3:0] (R25). -/
  lastErr : ErrorCode
  /-- STATUS[4] (R25). -/
  sfail : Bool
  /-- STATUS[5] (R25). -/
  seenEos : Bool
  /-- STATUS[6] (R25). -/
  seenInvalid : Bool
  /-- POS (R26). -/
  pos : BitVec 32
  /-- LEN[27:0]; bits [31:28] are always 0 (R27). -/
  len : BitVec 28
  /-- The table store, slot 0 first (R30). -/
  slots : List Slot
  /-- CLMEM (R33). -/
  clmem : CodeLengths
  /-- STREAM_MEM and WRITTEN (R34). -/
  stream : Memory
  /-- STALE: the indices whose bit is set, rising (R36). -/
  stale : List Nat
  /-- CUR, the byte cursor (R35). -/
  cur : Nat
  /-- SR: the live bits of the shift register, the next stream bit first; `none` is a bit of a byte that was
  unwritten when it was loaded (R35, log 8). -/
  sr : List (Option Bool)
  /-- FAULTED (R36). -/
  faulted : Bool
  /-- REFUSED (R36). -/
  refused : Bool
  /-- What happens next, oldest first (log 1). -/
  events : List Event
  /-- What the last host read returned (log 11). -/
  readData : Option Word
deriving DecidableEq, Repr

/-- NB, the live count of the shift register (R35). -/
abbrev State.nb (s : State) : Nat := s.sr.length

/-- NSUB, the number of subtables (R30). -/
abbrev Table.nsub (t : Table) : Nat := t.subs.length

/-- The contents of a slot after reset.
DESIGN CHOICE (log 3), unsafe: the spec says unspecified and unobservable. -/
def Table.reset : Table where
  maxLen := 0
  main := Vector.replicate 256 0
  subs := []

/-- A slot after reset: VALID = 0 (R37). -/
def Slot.reset : Slot where
  valid := false
  table := Table.reset

/-- The state after reset under a configuration (10_state.md R37), with the ghost bits 0 and no event pending. -/
def State.resetOf (c : Config) : State where
  config := c
  result := 0
  lastErr := .ok
  sfail := false
  seenEos := false
  seenInvalid := false
  pos := 0
  len := 0
  slots := List.replicate c.numSlots Slot.reset
  clmem := []
  stream := []
  stale := []
  cur := 0
  sr := []
  faulted := false
  refused := false
  events := []
  readData := none

/-- The machine right after reset, under the spec's default parameters (log 2). -/
def State.reset : State := State.resetOf Config.default

end Sys2Proof.Machine
end

