-- ==== Sys2Proof/Machine/Flags.lean ====
section
/-! DEFINITION. STATUS: its error codes, its sticky bits and its word (10_state.md R25, 60_exceptions.md R201). -/

namespace Sys2Proof.Machine

/-- The number of an error code (R201). -/
def ErrorCode.code : ErrorCode → BitVec 4
  | .ok => 0
  | .illegalCmd => 1
  | .eos => 2
  | .invalidCode => 3
  | .streamFailed => 4
  | .slotInvalid => 5
  | .buildEmpty => 6
  | .buildOversub => 7
  | .buildIncomplete => 8
  | .range => 9

/-- The sticky bits an error sets, the column "sets" of R201. -/
def setSticky (e : ErrorCode) (s : State) : State :=
  match e with
  | .eos => { s with sfail := true, seenEos := true }
  | .invalidCode => { s with sfail := true, seenInvalid := true }
  | .ok | .illegalCmd | .streamFailed | .slotInvalid | .buildEmpty | .buildOversub | .buildIncomplete | .range => s

/-- Clearing the sticky bits, which only STREAM and reset do (R207). -/
def clearSticky (s : State) : State :=
  { s with sfail := false, seenEos := false, seenInvalid := false }

/-- STATUS as a host read returns it: bits [31:7] are 0 (R25). -/
def statusWord (s : State) : Word :=
  0#25 ++ BitVec.ofBool s.seenInvalid ++ BitVec.ofBool s.seenEos ++ BitVec.ofBool s.sfail ++ s.lastErr.code

end Sys2Proof.Machine
end

