-- ==== Sys2Proof/Machine/Operands.lean ====
section
/-! DEFINITION. The operand checks of 30_encoding.md R85, and the fields of a table entry (10_state.md R31). -/

namespace Sys2Proof.Machine

open Sys2Proof

/-- SLOT is in range (R85). -/
def slotOk (s : State) (slot : BitVec 4) : Bool := decide (slot.toNat < s.config.numSlots)

/-- SYM is in range (R85). -/
def symOk (s : State) (sym : BitVec 12) : Bool := decide (sym.toNat < s.config.maxSymbol)

/-- CNT is in range (R85). -/
def cntOk (s : State) (cnt : BitVec 13) : Bool := decide (cnt.toNat ≤ s.config.maxSymbol)

/-- The LEN field of STREAM is in range (R85). -/
def lenOk (s : State) (len : BitVec 28) : Bool := decide (len.toNat ≤ s.config.streamBytes)

/-- Field SYM of an entry, `e[15:4]` (R31). -/
def entrySym (e : Entry) : BitVec 12 := e.extractLsb' 4 12

/-- Field LN of an entry, `e[3:0]` (R31). -/
def entryLn (e : Entry) : BitVec 4 := e.extractLsb' 0 4

/-- The entry `(sym << 4) | ln` (R31). -/
def mkEntry (sym ln : Nat) : Entry := BitVec.ofNat 12 sym ++ BitVec.ofNat 4 ln

/-- The unoccupied entry 0xFFF0 (R31, R142). -/
def unoccupied : Entry := unoccupiedSym ++ 0#4

end Sys2Proof.Machine
end

