-- ==== Sys2Proof/Machine/Ops.lean ====
section
/-! DEFINITION. The named operations over registers and memories that the commands share. -/

namespace Sys2Proof.Machine

open Sys2Proof

/-! ### Sparse memories -/

/-- The value listed for a key. -/
def cellsGet {α : Type} : List (Nat × α) → Nat → Option α
  | [], _ => none
  | (a, v) :: rest, k => if a = k then some v else cellsGet rest k

/-- The list with `v` listed for `k`, kept rising. -/
def cellsPut {α : Type} : List (Nat × α) → Nat → α → List (Nat × α)
  | [], k, v => [(k, v)]
  | (a, b) :: rest, k, v =>
    if k < a then (k, v) :: (a, b) :: rest
    else if a = k then (k, v) :: rest
    else (a, b) :: cellsPut rest k v

/-- The list with nothing listed for `k`. -/
def cellsDrop {α : Type} (m : List (Nat × α)) (k : Nat) : List (Nat × α) :=
  m.filter fun x => decide (x.1 ≠ k)

/-- CLMEM[s] (10_state.md R33). -/
def clRead (m : CodeLengths) (s : Nat) : BitVec 4 := (cellsGet m s).getD 0

/-- CLMEM[s] <- cl, in canonical form: writing 0 removes the entry (R33, R120). -/
def clWrite (m : CodeLengths) (s : Nat) (cl : BitVec 4) : CodeLengths :=
  if cl = 0 then cellsDrop m s else cellsPut m s cl

/-- STREAM_MEM[i], or nothing while WRITTEN[i] = 0 (R34). -/
def streamByte (s : State) (i : Nat) : Option Byte := cellsGet s.stream i

/-- WRITTEN[i] (R34). -/
def written (s : State) (i : Nat) : Bool := (streamByte s i).isSome

/-- STALE[i] (10_state.md R36). -/
def isStale (s : State) (i : Nat) : Bool := s.stale.elem i

/-- A rising list of indices with `k` in it. -/
def indexInsert : List Nat → Nat → List Nat
  | [], k => [k]
  | a :: rest, k =>
    if k < a then k :: a :: rest
    else if a = k then a :: rest
    else a :: indexInsert rest k

/-- The host's write of one byte of the stream window, with WRITTEN and STALE (20_memory.md R63, R233).
A byte at or past STREAM_BYTES is discarded. -/
def writeStreamByte (s : State) (i : Nat) (b : Byte) : State :=
  if i < s.config.streamBytes then
    { s with
      stream := cellsPut s.stream i b
      stale := if s.pos.toNat / 8 ≤ i ∧ i < s.len.toNat then indexInsert s.stale i else s.stale }
  else s

/-! ### Ending a command -/

/-- `finish(v, E)` (60_exceptions.md R203). -/
def finish (v : Word) (e : ErrorCode) (s : State) : State :=
  { s with result := v, lastErr := e }

/-- `raise E`: the sticky bits E sets, then `finish(-1, E)` (R202). -/
def raise (e : ErrorCode) (s : State) : State := finish (-1) e (setSticky e s)

/-! ### The bit reader -/

/-- Number of bits in the stream, `8*LEN` (40_bitreader.md R100). -/
def streamBits (s : State) : Nat := 8 * s.len.toNat

/-- Why Peek stops. -/
inductive Stop where
  | fault (f : Fault)
  | refuse (r : Refusal)
deriving DecidableEq, Repr

/-- The outcome a stopped Peek gives the command. -/
def Stop.outcome : Stop → Host.Outcome State Fault Refusal
  | .fault f => .fault f
  | .refuse r => .refused r

/-- Bit `j` of the stream as Peek sees it: padding 0 past the end, a fault on an unwritten byte, a refusal on a stale one
(20_memory.md R65, 40_bitreader.md R101). -/
def peekBit (s : State) (j : Nat) : Except Stop Bool :=
  if j < streamBits s then
    match streamByte s (j / 8) with
    | none => .error (.fault .unwrittenStreamByte)
    | some b => if isStale s (j / 8) then .error (.refuse .staleStreamByte) else .ok (b.getLsbD (j % 8))
  else .ok false

/-- `Peek(p, n)`: the n bits from position p as an LSB-first value (40_bitreader.md R101, 20_memory.md R66). -/
def peek (s : State) (p : Nat) : Nat → Except Stop Nat
  | 0 => .ok 0
  | n + 1 =>
    match peekBit s p with
    | .error e => .error e
    | .ok b =>
      match peek s (p + 1) n with
      | .error e => .error e
      | .ok v => .ok (b.toNat + 2 * v)

/-- The bits of byte `i` as the shift register takes them, bit 0 first (10_state.md R35). -/
def byteBits (s : State) (i : Nat) : List (Option Bool) :=
  (List.range 8).map fun k => (streamByte s i).map fun b => b.getLsbD k

/-- Load one whole byte with index below LEN into the shift register (R35). -/
def loadByte (s : State) : State :=
  if s.cur < s.len.toNat then { s with cur := s.cur + 1, sr := s.sr ++ byteBits s s.cur } else s

/-- Load up to `k` whole bytes (R35). -/
def refill (s : State) : Nat → State
  | 0 => s
  | k + 1 => refill (loadByte s) k

/-- `Consume(n)` (40_bitreader.md R102): POS advances by n.
The shift register first loads the fewest whole bytes that make n bits live, then gives up n bits (R35, log 7). -/
def consume (n : Nat) (s : State) : State :=
  let s' := refill s ((n - s.nb + 7) / 8)
  { s' with pos := s'.pos + BitVec.ofNat 32 n, sr := s'.sr.drop n }

/-- The bit reader's part of STREAM: a new length, and every prefetched bit discarded (40_bitreader.md R104). -/
def startStream (len : BitVec 28) (s : State) : State :=
  { s with len := len, pos := 0, cur := 0, sr := [], stale := [] }

/-! ### The table store -/

/-- Slot t (10_state.md R30).
A number past the table store reads as an empty slot: no command reads one (log 13). -/
def slotAt (s : State) (t : Nat) : Slot := s.slots.getD t Slot.reset

/-- The state with a slot replaced. -/
def setSlot (s : State) (t : Nat) (v : Slot) : State := { s with slots := s.slots.set t v }

/-- VALID[t] <- 0 (42_build.md R132).
The contents stay as they were: R202 lets a failing BUILD change nothing else (log 4). -/
def invalidateSlot (s : State) (t : Nat) : State := setSlot s t { slotAt s t with valid := false }

/-- The commit of BUILD: the whole table and VALID[t] <- 1 (42_build.md R143). -/
def installTable (s : State) (t : Nat) (tbl : Table) : State := setSlot s t { valid := true, table := tbl }

/-- MAIN[t][i] (10_state.md R30). -/
def mainAt (t : Table) (i : BitVec 8) : Entry := t.main[i.toNat]'i.isLt

/-- SUBBITS[t][k]; 0 for a subtable that does not exist (log 13). -/
def subBitsAt (t : Table) (k : Nat) : Nat :=
  match t.subs[k]? with
  | none => 0
  | some u => u.bits.toNat

/-- SUB[t][k][i]; the unoccupied entry where there is none (log 13). -/
def subAt (t : Table) (k i : Nat) : Entry :=
  match t.subs[k]? with
  | none => unoccupied
  | some u => u.entries.getD i unoccupied

/-! ### Reset -/

/-- The effect of reset: the values of 10_state.md R37, FAULTED and REFUSED kept (70_reset_and_hazards.md R230).
The model's own `events` and `readData` belong to the host and are kept (log 11). -/
def resetBlock (s : State) : State :=
  { State.resetOf s.config with
    faulted := s.faulted, refused := s.refused, events := s.events, readData := s.readData }

/-- The state the spec records after a step (60_exceptions.md R210, R211): FAULTED or REFUSED set where the step stops.
The rest is kept as it was: such a state satisfies no claim (log 6). -/
def recordStop (s : State) : Host.Outcome State Fault Refusal → State
  | .next t => t
  | .fault _ => { s with faulted := true }
  | .refused _ => { s with refused := true }

end Sys2Proof.Machine
end

