-- ==== Sys2Proof/Machine/BitReader.lean ====
section
/-! DEFINITION. The commands NOP, STREAM and READBITS (40_bitreader.md). -/

namespace Sys2Proof.Machine

/-- NOP (R103). -/
def execNop (s : State) : Host.Outcome State Fault Refusal := .next (finish 0 .ok s)

/-- STREAM len (R104). -/
def execStream (len : BitVec 28) (s : State) : Host.Outcome State Fault Refusal :=
  if lenOk s len then .next (finish 0 .ok (clearSticky (startStream len s)))
  else .next (raise .illegalCmd s)

/-- READBITS n (R105). -/
def execReadbits (n : BitVec 5) (s : State) : Host.Outcome State Fault Refusal :=
  if n = 0 then .next (raise .illegalCmd s)
  else if s.sfail then .next (raise .streamFailed s)
  else if streamBits s < s.pos.toNat + n.toNat then .next (raise .eos s)
  else
    match peek s s.pos.toNat n.toNat with
    | .error e => e.outcome
    | .ok v => .next (finish (BitVec.ofNat 32 v) .ok (consume n.toNat s))

end Sys2Proof.Machine
end

