-- ==== Sys2Proof/Machine/Build.lean ====
section
/-! DEFINITION. Canonical table construction and the command BUILD (42_build.md). -/

namespace Sys2Proof.Machine

open Sys2Proof

/-- A present symbol with its code length L[s], its canonical code C[s] and the reversed code R[s] (R136, R137). -/
structure Code where
  sym : Nat
  len : Nat
  code : Nat
  rev : Nat
deriving DecidableEq, Repr

/-- The present symbols S with their lengths, in increasing order of the symbol: `s < n` with `L[s] != 0` (R132, R133). -/
def presentLengths (m : CodeLengths) (n : Nat) : List (Nat × Nat) :=
  (List.range n).filterMap fun s => if clRead m s = 0 then none else some (s, (clRead m s).toNat)

/-- The Kraft sum K in units of 2^-15 (R135). -/
def kraftSum (ls : List (Nat × Nat)) : Nat := (ls.map fun p => 2 ^ (maxCodeLength - p.2)).sum

/-- `count[l]`, with `count[0] = 0` (R136). -/
def lengthCount (ls : List (Nat × Nat)) (l : Nat) : Nat :=
  if l = 0 then 0 else ls.countP fun p => decide (p.2 = l)

/-- The variable `code` of R136's loop after the pass for length l, which is the first `next_code[l]`. -/
def firstCode (ls : List (Nat × Nat)) : Nat → Nat
  | 0 => 0
  | l + 1 => (firstCode ls l + lengthCount ls l) * 2

/-- `bitrev(c, L)`: bit i of the result is bit L-1-i of c (00_scope.md R12). -/
def bitrev (c : Nat) : Nat → Nat
  | 0 => 0
  | l + 1 => (c.testBit l).toNat + 2 * bitrev c l

/-- The last loop of R136: each symbol takes `next_code` of its length, which then goes up by one. -/
def assignCodes : List (Nat × Nat) → List Nat → List Code
  | [], _ => []
  | (s, l) :: rest, next =>
    let c := next.getD l 0
    { sym := s, len := l, code := c, rev := bitrev c l } :: assignCodes rest (next.set l (c + 1))

/-- The canonical codes of the present symbols (R136, R137). -/
def canonicalCodes (ls : List (Nat × Nat)) : List Code :=
  assignCodes ls ((List.range (maxCodeLength + 1)).map (firstCode ls))

/-- The leaf of a code, with its full length (R140, R141). -/
def leafEntry (c : Code) : Entry := mkEntry c.sym c.len

/-- `B[p]`, the index width of the subtable under main index p; 0 where there is none (R138). -/
def subWidth (cs : List Code) (p : Nat) : Nat :=
  cs.foldl (fun b c => if huffmanSplit < c.len ∧ c.rev % mainSize = p then max b (c.len - huffmanSplit) else b) 0

/-- The main indices that have a subtable, in increasing order: subtable k is under the k-th of them (R139). -/
def subOwners (cs : List Code) : List Nat :=
  (List.range mainSize).filter fun p => decide (0 < subWidth cs p)

/-- MAIN[t][p]: the leaf of the short code whose reversal is the low bits of p (R140), the indirect entry of p's subtable
(R139), or the unoccupied entry (R142).
At most one of the codes matches (R144), so the order of R140's and R139's writes does not matter (log 12). -/
def mainEntry (cs : List Code) (owners : List Nat) (p : Nat) : Entry :=
  match cs.find? fun c => decide (c.len ≤ huffmanSplit) && decide (p % 2 ^ c.len = c.rev) with
  | some c => leafEntry c
  | none =>
    if owners.elem p then mkEntry (owners.idxOf p) indirectLen.toNat else unoccupied

/-- SUB[t][k][q] of the subtable under main index p (R141, R142). -/
def subEntry (cs : List Code) (p q : Nat) : Entry :=
  match cs.find? fun c => decide (huffmanSplit < c.len) && decide (c.rev % mainSize = p) &&
      decide (q % 2 ^ (c.len - huffmanSplit) = c.rev / mainSize) with
  | some c => leafEntry c
  | none => unoccupied

/-- The subtable under main index p (R138, R141). -/
def subtableOf (cs : List Code) (p : Nat) : Subtable where
  bits := BitVec.ofNat 3 (subWidth cs p)
  entries := (List.range (2 ^ subWidth cs p)).map (subEntry cs p)

/-- A main table from its entries. -/
def mainOf (f : Nat → Entry) : Vector Entry 256 := ⟨((List.range 256).map f).toArray, by simp⟩

/-- The table of a one-symbol alphabet (R134). -/
def trivialTable (sym : Nat) : Table where
  maxLen := 0
  main := mainOf fun _ => mkEntry sym 0
  subs := []

/-- The table of two symbols or more (R136 to R143). -/
def splitTable (ls : List (Nat × Nat)) : Table :=
  let cs := canonicalCodes ls
  let owners := subOwners cs
  { maxLen := BitVec.ofNat 4 (ls.foldl (fun m p => max m p.2) 0)
    main := mainOf (mainEntry cs owners)
    subs := owners.map (subtableOf cs) }

/-- The checks of BUILD in their order, then the table (R133 to R143). -/
def buildTable (inc : PIncomplete) (ls : List (Nat × Nat)) : Except ErrorCode Table :=
  match ls with
  | [] => .error .buildEmpty
  | [p] => .ok (trivialTable p.1)
  | _ :: _ :: _ =>
    if 2 ^ maxCodeLength < kraftSum ls then .error .buildOversub
    else if kraftSum ls < 2 ^ maxCodeLength ∧ inc = .reject then .error .buildIncomplete
    else .ok (splitTable ls)

/-- BUILD slot, cnt (R130, R131, R132, R143). -/
def execBuild (slot : BitVec 4) (cnt : BitVec 13) (s : State) : Host.Outcome State Fault Refusal :=
  if slotOk s slot && cntOk s cnt then
    match buildTable s.config.pIncomplete (presentLengths s.clmem cnt.toNat) with
    | .error e => .next (raise e (invalidateSlot s slot.toNat))
    | .ok t => .next (finish 0 .ok (installTable s slot.toNat t))
  else .next (raise .illegalCmd s)

end Sys2Proof.Machine
end

