-- ==== Sys2Proof/Machine/CodeLengths.lean ====
section
/-! DEFINITION. The commands SETCL and CLRCL (41_codelengths.md). -/

namespace Sys2Proof.Machine

/-- SETCL sym, cl (R120). -/
def execSetcl (sym : BitVec 12) (cl : BitVec 4) (s : State) : Host.Outcome State Fault Refusal :=
  if symOk s sym then .next (finish 0 .ok { s with clmem := clWrite s.clmem sym.toNat cl })
  else .next (raise .illegalCmd s)

/-- CLRCL (R121). -/
def execClrcl (s : State) : Host.Outcome State Fault Refusal :=
  .next (finish 0 .ok { s with clmem := [] })

end Sys2Proof.Machine
end

