-- ==== Sys2Proof/Machine/DecodeSymbol.lean ====
section
/-! DEFINITION. The command DECODE (43_decode.md). -/

namespace Sys2Proof.Machine

open Sys2Proof

/-- The two-level lookup of the peeked bits x: the main entry, or the subtable entry behind the split sentinel
(R161, R162). -/
def lookupEntry (t : Table) (x : Nat) : Entry :=
  let e := mainAt t (BitVec.ofNat 8 x)
  if entryLn e = indirectLen then
    let k := (entrySym e).toNat
    subAt t k (x / mainSize % 2 ^ subBitsAt t k)
  else e

/-- DECODE slot (R160). -/
def execDecode (slot : BitVec 4) (s : State) : Host.Outcome State Fault Refusal :=
  if !slotOk s slot then .next (raise .illegalCmd s)
  else if !(slotAt s slot.toNat).valid then .next (raise .slotInvalid s)
  else if s.sfail then .next (raise .streamFailed s)
  else
    match peek s s.pos.toNat (slotAt s slot.toNat).table.maxLen.toNat with
    | .error e => e.outcome
    | .ok x =>
      let e := lookupEntry (slotAt s slot.toNat).table x
      if entrySym e = unoccupiedSym then .next (raise .invalidCode s)
      else if streamBits s < s.pos.toNat + (entryLn e).toNat then .next (raise .eos s)
      else .next (finish ((entrySym e).setWidth 32) .ok (consume (entryLn e).toNat s))

end Sys2Proof.Machine
end

