-- ==== Sys2Proof/Machine/Inspect.lean ====
section
/-! DEFINITION. The commands RDMAIN, RDSUB and TINFO (44_inspect.md). -/

namespace Sys2Proof.Machine

open Sys2Proof

/-- RDMAIN slot, idx (R180). -/
def execRdmain (slot : BitVec 4) (idx : BitVec 8) (s : State) : Host.Outcome State Fault Refusal :=
  if !slotOk s slot then .next (raise .illegalCmd s)
  else if !(slotAt s slot.toNat).valid then .next (raise .slotInvalid s)
  else .next (finish ((mainAt (slotAt s slot.toNat).table idx).setWidth 32) .ok s)

/-- RDSUB slot, sub, idx (R181). -/
def execRdsub (slot : BitVec 4) (sub : BitVec 8) (idx : BitVec 7) (s : State) :
    Host.Outcome State Fault Refusal :=
  let t := (slotAt s slot.toNat).table
  if !slotOk s slot then .next (raise .illegalCmd s)
  else if !(slotAt s slot.toNat).valid then .next (raise .slotInvalid s)
  else if t.nsub ≤ sub.toNat ∨ 2 ^ subBitsAt t sub.toNat ≤ idx.toNat then .next (raise .range s)
  else .next (finish ((subAt t sub.toNat idx.toNat).setWidth 32) .ok s)

/-- The summary word of a table in a valid slot (R182). -/
def summaryWord (t : Table) : Word := 0#15 ++ 1#1 ++ 0#3 ++ BitVec.ofNat 9 t.nsub ++ t.maxLen

/-- TINFO slot (R182). -/
def execTinfo (slot : BitVec 4) (s : State) : Host.Outcome State Fault Refusal :=
  if !slotOk s slot then .next (raise .illegalCmd s)
  else if (slotAt s slot.toNat).valid then .next (finish (summaryWord (slotAt s slot.toNat).table) .ok s)
  else .next (finish 0 .ok s)

end Sys2Proof.Machine
end

