-- ==== Sys2Proof/Machine/Dispatch.lean ====
section
/-! DEFINITION. One arm for each command. -/

namespace Sys2Proof.Machine

def exec (i : Instr) (s : State) : Host.Outcome State Fault Refusal :=
  match i with
  | .nop => Sys2Proof.Machine.execNop s
  | .stream len => Sys2Proof.Machine.execStream len s
  | .readbits n => Sys2Proof.Machine.execReadbits n s
  | .setcl sym cl => Sys2Proof.Machine.execSetcl sym cl s
  | .clrcl => Sys2Proof.Machine.execClrcl s
  | .build slot cnt => Sys2Proof.Machine.execBuild slot cnt s
  | .decode slot => Sys2Proof.Machine.execDecode slot s
  | .rdmain slot idx => Sys2Proof.Machine.execRdmain slot idx s
  | .rdsub slot sub idx => Sys2Proof.Machine.execRdsub slot sub idx s
  | .tinfo slot => Sys2Proof.Machine.execTinfo slot s

end Sys2Proof.Machine
end

