-- ==== Sys2Proof/Machine/Bus.lean ====
section
/-! DEFINITION. Host accesses: the register window, the stream window, command words and reset
(10_state.md R22 to R29, 20_memory.md R61 to R64, 70_reset_and_hazards.md R230). -/

namespace Sys2Proof.Machine

open Sys2Proof

/-- The byte address of the stream window (20_memory.md R61). -/
def windowBase : Nat := 0x10000000

/-- The size of the stream window in bytes, a multiple of 4 (R61). -/
def windowSize (c : Config) : Nat := 4 * ((c.streamBytes + 3) / 4)

/-- Whether an address lies in the stream window (R61). -/
def inWindow (c : Config) (a : Word) : Bool :=
  decide (windowBase ≤ a.toNat) && decide (a.toNat < windowBase + windowSize c)

/-- CAPS (10_state.md R28). -/
def capsWord (c : Config) : Word :=
  0#7 ++ BitVec.ofBool (decide (c.pIncomplete = .reject)) ++ 0#3 ++ BitVec.ofNat 5 c.numSlots ++ 0#3 ++
    BitVec.ofNat 13 c.maxSymbol

/-- A command word written to CMD: its command, or ILLEGAL_CMD where it encodes none
(10_state.md R23, 30_encoding.md R84). -/
def runCommand (w : Word) (s : State) : Host.Outcome State Fault Refusal :=
  match decode w with
  | .ok i => exec i s
  | .error _ => .next (raise .illegalCmd s)

/-- The host's write of a 32-bit value to the stream window, little-endian, at byte `i` (R63). -/
def writeStreamWord (i : Nat) (v : Word) (s : State) : State :=
  let s0 := writeStreamByte s i (v.extractLsb' 0 8)
  let s1 := writeStreamByte s0 (i + 1) (v.extractLsb' 8 8)
  let s2 := writeStreamByte s1 (i + 2) (v.extractLsb' 16 8)
  writeStreamByte s2 (i + 3) (v.extractLsb' 24 8)

/-- One byte of a stream-window read: 0 past STREAM_BYTES, nothing where WRITTEN = 0 (R64). -/
def windowByte (s : State) (i : Nat) : Option Byte :=
  if i < s.config.streamBytes then streamByte s i else some 0

/-- The 32-bit value of the stream-window word at byte `i`, little-endian, or nothing where a byte of it is unwritten
(R64). -/
def windowWord (s : State) (i : Nat) : Option Word :=
  match windowByte s i, windowByte s (i + 1), windowByte s (i + 2), windowByte s (i + 3) with
  | some b0, some b1, some b2, some b3 => some (b3 ++ b2 ++ b1 ++ b0)
  | _, _, _, _ => none

/-- What a read outside the stream window returns (10_state.md R22 to R29, 20_memory.md R61).
CMD and every address without a register read 0. -/
def registerRead (s : State) (a : Word) : Word :=
  match a.toNat with
  | 0x004 => s.result
  | 0x008 => statusWord s
  | 0x00C => s.pos
  | 0x010 => s.len.setWidth 32
  | 0x014 => capsWord s.config
  | _ => 0

/-- A host write of a 32-bit value to an aligned address (R61).
The read-only registers and the addresses without a register ignore it. -/
def hostWrite (a : Word) (v : Word) (s : State) : Host.Outcome State Fault Refusal :=
  if a = 0 then runCommand v s
  else if inWindow s.config a then .next (writeStreamWord (a.toNat - windowBase) v s)
  else .next s

/-- A host read of 32 bits at an aligned address (R61, R64, R67).
The value goes to `readData`, and nothing else changes. -/
def hostRead (a : Word) (s : State) : Host.Outcome State Fault Refusal :=
  if inWindow s.config a then
    match windowWord s (a.toNat - windowBase) with
    | some v => .next { s with readData := some v }
    | none => .fault .unwrittenStreamByte
  else .next { s with readData := some (registerRead s a) }

/-- Whether an access is 32 bits wide and 4-byte aligned (R62). -/
def shapeOk (a : Word) (bytes : Nat) : Bool := decide (bytes = 4) && decide (a.toNat % 4 = 0)

/-- A host access outside reset (R62). -/
def hostAccess (x : HostAccess) (s : State) : Host.Outcome State Fault Refusal :=
  match x with
  | .read a bytes => if shapeOk a bytes then hostRead a s else .refused .hostAccessShape
  | .write a bytes v => if shapeOk a bytes then hostWrite a v s else .refused .hostAccessShape

/-- One event (70_reset_and_hazards.md R230, R236).
A host access while reset is asserted is refused, whatever its shape (log 10). -/
def takeEvent (e : Event) (s : State) : Host.Outcome State Fault Refusal :=
  match e with
  | .access true _ => .refused .accessDuringReset
  | .access false x => hostAccess x s
  | .reset => .next (resetBlock s)
  | .refill k => .next (refill s k)

end Sys2Proof.Machine
end

