-- ==== Sys2Proof/Machine/Step.lean ====
section
/-! DEFINITION. One step: the next event, or nothing where none is pending (20_memory.md R70, 70_reset_and_hazards.md R231). -/

namespace Sys2Proof.Machine

open Sys2Proof

/-- One step takes the oldest pending event; with none pending the block does nothing (R231, log 1). -/
def step (s : State) : Host.Outcome State Fault Refusal :=
  match s.events with
  | [] => .next s
  | e :: rest => takeEvent e { s with events := rest }

/-- The event that writes a command word to CMD (10_state.md R23). -/
def cmdEvent (w : Word) : Event := .access false (.write 0 4 w)

/-- The state with a write of the word to CMD as its next event.
The block has no program counter: this write is where step takes its next command from (10_state.md R21, log 1). -/
def State.withFetchWord (s : State) (nbits w : Nat) : State :=
  { s with events := cmdEvent (BitVec.ofNat 32 (w % 2 ^ nbits)) :: s.events }

/-- The spec's own record of one step: the next state, or FAULTED or REFUSED set (60_exceptions.md R210, R211). -/
def recordedStep (s : State) : State := recordStop s (step s)

end Sys2Proof.Machine
end

