-- ==== Sys2Proof/Machine/Assembler.lean ====
section
/-! DEFINITION. The assembler lines and the pseudo-instructions of 30_encoding.md R88 and R89, as the host accesses they
stand for. -/

namespace Sys2Proof.Machine

open Sys2Proof

/-- One line of assembler, its operands as written (R88, R89). -/
inductive AsmLine where
  | nop
  | stream (len : Nat)
  | readbits (n : Nat)
  | setcl (sym cl : Nat)
  | clrcl
  | build (slot cnt : Nat)
  | decode (slot : Nat)
  | rdmain (slot idx : Nat)
  | rdsub (slot sub idx : Nat)
  | tinfo (slot : Nat)
  /-- A host write of 32 bits. -/
  | hwrite (addr value : Nat)
  /-- A host read of 32 bits. -/
  | hread (addr : Nat)
  | loadcl (lengths : List Nat)
  | ldstream (bytes : List Nat)
  | skip (n : Nat)
deriving DecidableEq, Repr

/-- An operand that fits its field; the assembler never truncates (R88). -/
def fitField (width n : Nat) : Option (BitVec width) :=
  if n < 2 ^ width then some (BitVec.ofNat width n) else none

/-- The host write of a command's word to CMD. -/
def commandEvent (i : Instr) : Event := cmdEvent (encode i)

/-- `SETCL i, l` for each non-zero length of a list whose first element belongs to symbol i (R89). -/
def loadLengths (i : Nat) : List Nat → Option (List Event)
  | [] => some []
  | l :: rest => do
    let tail ← loadLengths (i + 1) rest
    if l = 0 then return tail
    let sym ← fitField 12 i
    let cl ← fitField 4 l
    return commandEvent (.setcl sym cl) :: tail

/-- The little-endian word of up to four bytes, missing ones taken as 0 (R89). -/
def packWord (bs : List Nat) : Nat :=
  bs.getD 0 0 + bs.getD 1 0 * 2 ^ 8 + bs.getD 2 0 * 2 ^ 16 + bs.getD 3 0 * 2 ^ 24

/-- The stream-window writes of `m` words from a list of bytes, the first at the byte address `a` (R89). -/
def loadWords (a : Nat) (bs : List Nat) : Nat → List Event
  | 0 => []
  | m + 1 =>
    .access false (.write (BitVec.ofNat 32 a) 4 (BitVec.ofNat 32 (packWord (bs.take 4)))) ::
      loadWords (a + 4) (bs.drop 4) m

/-- The host accesses an assembler line stands for, or nothing where an operand does not fit its field (R88, R89). -/
def assemble : AsmLine → Option (List Event)
  | .nop => some [commandEvent .nop]
  | .stream len => do return [commandEvent (.stream (← fitField 28 len))]
  | .readbits n => do return [commandEvent (.readbits (← fitField 5 n))]
  | .setcl sym cl => do return [commandEvent (.setcl (← fitField 12 sym) (← fitField 4 cl))]
  | .clrcl => some [commandEvent .clrcl]
  | .build slot cnt => do return [commandEvent (.build (← fitField 4 slot) (← fitField 13 cnt))]
  | .decode slot => do return [commandEvent (.decode (← fitField 4 slot))]
  | .rdmain slot idx => do return [commandEvent (.rdmain (← fitField 4 slot) (← fitField 8 idx))]
  | .rdsub slot sub idx => do
    return [commandEvent (.rdsub (← fitField 4 slot) (← fitField 8 sub) (← fitField 7 idx))]
  | .tinfo slot => do return [commandEvent (.tinfo (← fitField 4 slot))]
  | .hwrite addr value => do
    return [.access false (.write (← fitField 32 addr) 4 (← fitField 32 value))]
  | .hread addr => do return [.access false (.read (← fitField 32 addr) 4)]
  | .loadcl ls => do return commandEvent .clrcl :: (← loadLengths 0 ls)
  | .ldstream bs =>
    if bs.all fun b => decide (b < 256) then do
      return loadWords windowBase bs ((bs.length + 3) / 4) ++
        [commandEvent (.stream (← fitField 28 bs.length))]
    else none
  | .skip n => do return [commandEvent (.readbits (← fitField 5 n))]

/-! ### The text of a line -/

/-- The value of a digit below a base. -/
def digitOf (base : Nat) (c : Char) : Option Nat :=
  let d := if '0' ≤ c ∧ c ≤ '9' then c.toNat - '0'.toNat
    else if 'a' ≤ c ∧ c ≤ 'f' then c.toNat - 'a'.toNat + 10
    else if 'A' ≤ c ∧ c ≤ 'F' then c.toNat - 'A'.toNat + 10
    else base
  if d < base then some d else none

/-- The number written by digits, most significant first, after a value already read. -/
def digitsFrom (base acc : Nat) : List Char → Option Nat
  | [] => some acc
  | c :: rest =>
    match digitOf base c with
    | none => none
    | some d => digitsFrom base (acc * base + d) rest

/-- A decimal or `0x` hexadecimal operand (R88). -/
def numberOf : List Char → Option Nat
  | [] => none
  | '0' :: 'x' :: c :: rest => digitsFrom 16 0 (c :: rest)
  | c :: rest => digitsFrom 10 0 (c :: rest)

/-- The parts of a text between commas; the part already read stands reversed in the second argument. -/
def splitCommas : List Char → List Char → List (List Char)
  | [], part => [part.reverse]
  | ',' :: rest, part => part.reverse :: splitCommas rest []
  | c :: rest, part => splitCommas rest (c :: part)

/-- The operands of a line, blanks left out; no text at all is no operand. -/
def operandsOf (text : List Char) : Option (List Nat) :=
  match text.filter fun c => decide (c ≠ ' ') with
  | [] => some []
  | c :: rest => (splitCommas (c :: rest) []).mapM numberOf

/-- The elements of a bracketed list, as LOADCL and LDSTREAM take it (R89). -/
def bracketed (text : List Char) : Option (List Nat) :=
  match text.filter fun c => decide (c ≠ ' ') with
  | '[' :: rest => if rest.getLast? = some ']' then operandsOf rest.dropLast else none
  | _ => none

/-- A line whose operands are separated by commas (R88). -/
def plainLine (mnemonic : List Char) (ops : List Nat) : Option AsmLine :=
  if mnemonic = ['N', 'O', 'P'] then (match ops with | [] => some .nop | _ => none)
  else if mnemonic = ['S', 'T', 'R', 'E', 'A', 'M'] then (match ops with | [a] => some (.stream a) | _ => none)
  else if mnemonic = ['R', 'E', 'A', 'D', 'B', 'I', 'T', 'S'] then
    (match ops with | [a] => some (.readbits a) | _ => none)
  else if mnemonic = ['S', 'E', 'T', 'C', 'L'] then (match ops with | [a, b] => some (.setcl a b) | _ => none)
  else if mnemonic = ['C', 'L', 'R', 'C', 'L'] then (match ops with | [] => some .clrcl | _ => none)
  else if mnemonic = ['B', 'U', 'I', 'L', 'D'] then (match ops with | [a, b] => some (.build a b) | _ => none)
  else if mnemonic = ['D', 'E', 'C', 'O', 'D', 'E'] then (match ops with | [a] => some (.decode a) | _ => none)
  else if mnemonic = ['R', 'D', 'M', 'A', 'I', 'N'] then (match ops with | [a, b] => some (.rdmain a b) | _ => none)
  else if mnemonic = ['R', 'D', 'S', 'U', 'B'] then (match ops with | [a, b, c] => some (.rdsub a b c) | _ => none)
  else if mnemonic = ['T', 'I', 'N', 'F', 'O'] then (match ops with | [a] => some (.tinfo a) | _ => none)
  else if mnemonic = ['H', 'W', 'R', 'I', 'T', 'E'] then (match ops with | [a, b] => some (.hwrite a b) | _ => none)
  else if mnemonic = ['H', 'R', 'E', 'A', 'D'] then (match ops with | [a] => some (.hread a) | _ => none)
  else if mnemonic = ['S', 'K', 'I', 'P'] then (match ops with | [a] => some (.skip a) | _ => none)
  else none

/-- One line of text: a mnemonic, then its operands (R88, R89). -/
def parseLine (text : List Char) : Option AsmLine :=
  let mnemonic := text.takeWhile fun c => decide (c ≠ ' ')
  let rest := text.dropWhile fun c => decide (c ≠ ' ')
  if mnemonic = ['L', 'O', 'A', 'D', 'C', 'L'] then (bracketed rest).map .loadcl
  else if mnemonic = ['L', 'D', 'S', 'T', 'R', 'E', 'A', 'M'] then (bracketed rest).map .ldstream
  else (operandsOf rest).bind (plainLine mnemonic)

end Sys2Proof.Machine
end

