-- ==== Sys2Proof/WellFormed.lean ====
section
/-! DEFINITION. The legal field ranges of a command (30_encoding.md R82 and R85). -/

namespace Sys2Proof

/-- Whether every field of a command is in its legal range under a configuration.
An encoding holds the other values too: such a command raises ILLEGAL_CMD (R84 (c)). -/
def Instr.wf (c : Config) : Instr → Bool
  | .nop => true
  | .stream len => decide (len.toNat ≤ c.streamBytes)
  | .readbits n => decide (n ≠ 0)
  | .setcl sym _ => decide (sym.toNat < c.maxSymbol)
  | .clrcl => true
  | .build slot cnt => decide (slot.toNat < c.numSlots) && decide (cnt.toNat ≤ c.maxSymbol)
  | .decode slot => decide (slot.toNat < c.numSlots)
  | .rdmain slot _ => decide (slot.toNat < c.numSlots)
  | .rdsub slot _ _ => decide (slot.toNat < c.numSlots)
  | .tinfo slot => decide (slot.toNat < c.numSlots)

end Sys2Proof
end

