-- ==== Sys2Proof/Safety.lean ====
section
/-! DEFINITION. The terms claims use: the stream as a function of the state, the invariants of tables and states, and
what counts as a safe run. -/

namespace Sys2Proof.Machine

open Sys2Proof

/-! ### The stream -/

/-- `StreamBit(j)` (20_memory.md R65): bit j & 7 of byte j >> 3 below 8*LEN, and 0 past it.
An unwritten byte counts as 0 here; claims assume `Readable`, which excludes it. -/
def streamBit (s : State) (j : Nat) : Bool :=
  if j < streamBits s then ((streamByte s (j / 8)).getD 0).getLsbD (j % 8) else false

/-- The n bits from position p as an LSB-first value (R66). -/
def streamValue (s : State) (p n : Nat) : Nat :=
  ((List.range n).map fun i => (streamBit s (p + i)).toNat * 2 ^ i).sum

/-- Peek may look at the n bits from position p: every byte of them below LEN is written and not stale
(40_bitreader.md R101). -/
def Readable (s : State) (p n : Nat) : Prop :=
  ∀ j, p ≤ j → j < p + n → j < streamBits s → written s (j / 8) = true ∧ isStale s (j / 8) = false

/-! ### Tables -/

/-- The unoccupied entry, or a leaf of a length between two bounds (10_state.md R31). -/
def LeafOrUnoccupied (lo hi : Nat) (e : Entry) : Prop :=
  e = unoccupied ∨ (entrySym e ≠ unoccupiedSym ∧ lo ≤ (entryLn e).toNat ∧ (entryLn e).toNat ≤ hi)

/-- A subtable of a table of maximal code length `m` (10_state.md R30, R31, 42_build.md R138, R141). -/
structure Subtable.Inv (u : Subtable) (m : Nat) : Prop where
  bits_pos : 1 ≤ u.bits.toNat
  bits_le : 8 + u.bits.toNat ≤ m
  size : u.entries.length = 2 ^ u.bits.toNat
  kinds : ∀ e ∈ u.entries, LeafOrUnoccupied 9 (8 + u.bits.toNat) e

/-- A main-table entry of a table that is not trivial: unoccupied, a leaf of at most 8 bits, or the indirect entry of an
existing subtable (10_state.md R31). -/
def MainKind (t : Table) (e : Entry) : Prop :=
  LeafOrUnoccupied 1 (min 8 t.maxLen.toNat) e ∨ (entryLn e = indirectLen ∧ (entrySym e).toNat < t.nsub)

/-- A trivial table: every main entry is the same leaf of length 0, and there is no subtable (42_build.md R134). -/
def Table.Trivial (t : Table) (s0 : BitVec 12) : Prop :=
  t.maxLen = 0 ∧ t.subs = [] ∧ ∀ i, mainAt t i = s0 ++ 0#4

/-- A built table (10_state.md R30, R31, 42_build.md R134, R146). -/
structure Table.Inv (t : Table) : Prop where
  trivial : t.maxLen = 0 → ∃ s0 : BitVec 12, s0 ≠ unoccupiedSym ∧ t.Trivial s0
  main : t.maxLen ≠ 0 → ∀ i, MainKind t (mainAt t i)
  subs : ∀ u ∈ t.subs, u.Inv t.maxLen.toNat
  nsub_le : t.nsub ≤ 256

/-! ### States -/

/-- The invariant of the block: what 10_state.md says of every state a run reaches. -/
structure State.Inv (s : State) : Prop where
  /-- The parameters are in the ranges of 00_scope.md R8. -/
  config_wf : s.config.wf = true
  /-- There are NUM_SLOTS slots (R30). -/
  slots_length : s.slots.length = s.config.numSlots
  /-- Every valid slot holds a built table (R30). -/
  tables : ∀ v ∈ s.slots, v.valid = true → v.table.Inv
  /-- CLMEM is in canonical form and has MAX_SYMBOL entries (R33). -/
  clmem_wf : CodeLengths.wf s.clmem = true
  clmem_keys : ∀ x ∈ s.clmem, x.1 < s.config.maxSymbol
  /-- STREAM_MEM is in canonical form and has STREAM_BYTES bytes (R34). -/
  stream_wf : Memory.wf s.stream = true
  stream_keys : ∀ x ∈ s.stream, x.1 < s.config.streamBytes
  /-- LEN is a length STREAM accepts (R27, 30_encoding.md R85). -/
  len_le : s.len.toNat ≤ s.config.streamBytes
  /-- 0 <= POS <= 8*LEN (R26). -/
  pos_le : s.pos.toNat ≤ streamBits s
  /-- SFAIL is set exactly when SEEN_EOS or SEEN_INVALID is (R25). -/
  sfail_eq : s.sfail = (s.seenEos || s.seenInvalid)
  /-- At most one of SEEN_EOS and SEEN_INVALID is 1 (R25). -/
  seen_once : (s.seenEos && s.seenInvalid) = false
  /-- STALE is in canonical form, and marks only written bytes of the stream (R36). -/
  stale_rising : s.stale.Pairwise (· < ·)
  stale_active : ∀ i ∈ s.stale, i < s.len.toNat ∧ written s i = true
  /-- POS = 8*CUR - NB (R35). -/
  reader_pos : s.pos.toNat + s.nb = 8 * s.cur
  /-- Only bytes below LEN are loaded (R35). -/
  reader_cur : s.cur ≤ s.len.toNat
  /-- SR holds stream bits POS .. POS+NB-1, but for bytes written since they may have been loaded (R35, R233). -/
  reader_bits : ∀ k, k < s.nb → isStale s ((s.pos.toNat + k) / 8) = false →
    s.sr[k]? = some ((streamByte s ((s.pos.toNat + k) / 8)).map fun b => b.getLsbD ((s.pos.toNat + k) % 8))

/-! ### Runs -/

/-- The ghost bits of a state that satisfies claims (60_exceptions.md R210, R211). -/
def State.clean (s : State) : Bool := !s.faulted && !s.refused

/-- `k` steps all answer a next state, and the last of them is `t`. -/
def SafeRun : Nat → State → State → Prop
  | 0, s, t => t = s
  | k + 1, s, t => ∃ u, step s = .next u ∧ SafeRun k u t

/-- The state with a list of events pending, and nothing else. -/
def State.withEvents (s : State) (es : List Event) : State := { s with events := es }

/-- The legal command words under a configuration, by the word's number (30_encoding.md R81, R84, R85). -/
def wordLegal (c : Config) (w : Nat) : Bool :=
  let low := w % 2 ^ 28
  let slotLegal := decide (w / 2 ^ 24 % 16 < c.numSlots)
  let rest := w % 2 ^ 24
  match w / 2 ^ 28 with
  | 0x0 => decide (low = 0)
  | 0x1 => decide (low ≤ c.streamBytes)
  | 0x2 => decide (1 ≤ low) && decide (low ≤ 31)
  | 0x3 => decide (low < 2 ^ 16) && decide (low / 16 < c.maxSymbol)
  | 0x4 => decide (low = 0)
  | 0x5 => slotLegal && decide (rest < 2 ^ 13) && decide (rest ≤ c.maxSymbol)
  | 0x6 => slotLegal && decide (rest = 0)
  | 0x7 => slotLegal && decide (rest < 2 ^ 8)
  | 0x8 => slotLegal && decide (rest < 2 ^ 15)
  | 0x9 => slotLegal && decide (rest = 0)
  | _ => false

/-- What ILLEGAL_CMD leaves: RESULT and LASTERR written, nothing else changed (60_exceptions.md R204). -/
def illegalResult (s : State) : State := { s with result := 0xFFFFFFFF#32, lastErr := .illegalCmd }

/-- The Kraft sum of the first n code lengths, in units of 2^-15 (42_build.md R135). -/
def kraftOf (m : CodeLengths) (n : Nat) : Nat :=
  ((List.range n).map fun j => if clRead m j = 0 then 0 else 2 ^ (15 - (clRead m j).toNat)).sum

/-- Slot `slot` is valid and holds the table that BUILD makes of the first `cnt` lengths of a CLMEM (42_build.md R130). -/
structure BuiltSlot (s : State) (slot : BitVec 4) (m : CodeLengths) (cnt : Nat) : Prop where
  slot_ok : slot.toNat < s.config.numSlots
  valid : (slotAt s slot.toNat).valid = true
  count_le : cnt ≤ 4095
  table : buildTable s.config.pIncomplete (presentLengths m cnt) = .ok (slotAt s slot.toNat).table

/-- The stream bits of a code, its most significant bit first (20_memory.md R66, 42_build.md R137). -/
def codeBits (c : Code) : List Bool := (List.range c.len).map fun i => c.code.testBit (c.len - 1 - i)

/-- `m` DECODE commands, one after another, whose results are the numbers of a list (43_decode.md R167). -/
def DecodesTo (slot : BitVec 4) : List Nat → State → State → Prop
  | [], s, t => t = s
  | r :: rest, s, t =>
    ∃ u, exec (.decode slot) s = .next u ∧ u.result.toNat = r ∧ u.lastErr = .ok ∧ DecodesTo slot rest u t

end Sys2Proof.Machine
end

