-- ==== Sys2Proof/Certificates/Slice0/Obligations.lean ====
section
/-! DEFINITION. The statements about HUFFDEC. -/

open Sys2Proof Sys2Proof.Machine

/-! ### Steps and command words -/

/-- R23 and R231: a write of w to CMD runs the command w encodes, before the next event; a word that encodes none ends with
ILLEGAL_CMD; a read of CMD returns 0; with nothing pending the block does nothing.
The list of pending events is the model's form of the host (log 1). -/
def Obligations.StepRunsTheCommandWrittenToCmd : Prop :=
  (∀ (s : State) (w : Word) (rest : List Event) (i : Instr), s.events = .access false (.write 0 4 w) :: rest →
    decode w = .ok i → step s = exec i { s with events := rest }) ∧
  (∀ (s : State) (w : Word) (rest : List Event) (e : DecodeError),
    s.events = .access false (.write 0 4 w) :: rest → decode w = .error e →
    step s = .next (illegalResult { s with events := rest })) ∧
  (∀ (s : State) (rest : List Event), s.events = .access false (.read 0 4) :: rest →
    step s = .next { s with events := rest, readData := some 0 }) ∧
  (∀ s : State, s.events = [] → step s = .next s)

/-- The word withFetchWord places is what the next step runs (the model's choice of a fetch, log 1). -/
def Obligations.FetchedWordRunsNext : Prop :=
  ∀ (s : State) (w : Nat) (i : Instr), decodeTableWord 32 w = some i → step (s.withFetchWord 32 w) = exec i s

/-- The words 95_test_vectors.md section 2 writes out decode to the commands they stand for. -/
def Obligations.WordsOfTheVectorsDecode : Prop :=
  decode 0x00000000#32 = .ok .nop ∧ decode 0x10000005#32 = .ok (.stream 5) ∧
  decode 0x2000001F#32 = .ok (.readbits 31) ∧ decode 0x30000023#32 = .ok (.setcl 2 3) ∧
  decode 0x40000000#32 = .ok .clrcl ∧ decode 0x52000102#32 = .ok (.build 2 258) ∧
  decode 0x61000000#32 = .ok (.decode 1) ∧ decode 0x7400004D#32 = .ok (.rdmain 4 77) ∧
  decode 0x81000080#32 = .ok (.rdsub 1 1 0) ∧ decode 0x91000000#32 = .ok (.tinfo 1) ∧
  decode 0xA0000000#32 = .error .reservedOp ∧ decode 0x80008000#32 = .error .reservedBits

/-- Decoding the encoded word of any command gives the command back, every field at every value. -/
def Obligations.DecodeOfEncodeIsTheCommand : Prop :=
  ∀ i : Instr, decode (encode i) = .ok i

/-- A word that decodes is the encoded word of its command: each command has one word. -/
def Obligations.EncodeOfDecodeIsTheWord : Prop :=
  ∀ (w : Word) (i : Instr), decode w = .ok i → encode i = w

/-- R83: a word decodes to a row's command exactly when (w & mask) = match. -/
def Obligations.OpcodeMapSelectsTheCommand : Prop :=
  (∀ w, w &&& 0xFFFFFFFF#32 = 0x00000000#32 ↔ decode w = .ok .nop) ∧
  (∀ w, w &&& 0xF0000000#32 = 0x10000000#32 ↔ ∃ len, decode w = .ok (.stream len)) ∧
  (∀ w, w &&& 0xFFFFFFE0#32 = 0x20000000#32 ↔ ∃ n, decode w = .ok (.readbits n)) ∧
  (∀ w, w &&& 0xFFFF0000#32 = 0x30000000#32 ↔ ∃ sym cl, decode w = .ok (.setcl sym cl)) ∧
  (∀ w, w &&& 0xFFFFFFFF#32 = 0x40000000#32 ↔ decode w = .ok .clrcl) ∧
  (∀ w, w &&& 0xF0FFE000#32 = 0x50000000#32 ↔ ∃ slot cnt, decode w = .ok (.build slot cnt)) ∧
  (∀ w, w &&& 0xF0FFFFFF#32 = 0x60000000#32 ↔ ∃ slot, decode w = .ok (.decode slot)) ∧
  (∀ w, w &&& 0xF0FFFF00#32 = 0x70000000#32 ↔ ∃ slot idx, decode w = .ok (.rdmain slot idx)) ∧
  (∀ w, w &&& 0xF0FF8000#32 = 0x80000000#32 ↔ ∃ slot sub idx, decode w = .ok (.rdsub slot sub idx)) ∧
  (∀ w, w &&& 0xF0FFFFFF#32 = 0x90000000#32 ↔ ∃ slot, decode w = .ok (.tinfo slot)) ∧
  (∀ w, (∀ i, decode w ≠ .ok i) → ∀ s, runCommand w s = .next (illegalResult s))

/-- R81, R82: each field of a decoded command is the number in its bits of the word. -/
def Obligations.DecodedFieldsAreTheWordsBits : Prop :=
  (∀ w len, decode w = .ok (.stream len) → len.toNat = w.toNat % 2 ^ 28) ∧
  (∀ w n, decode w = .ok (.readbits n) → n.toNat = w.toNat % 2 ^ 5) ∧
  (∀ w sym cl, decode w = .ok (.setcl sym cl) → sym.toNat = w.toNat / 2 ^ 4 % 2 ^ 12 ∧ cl.toNat = w.toNat % 2 ^ 4) ∧
  (∀ w slot cnt, decode w = .ok (.build slot cnt) →
    slot.toNat = w.toNat / 2 ^ 24 % 2 ^ 4 ∧ cnt.toNat = w.toNat % 2 ^ 13) ∧
  (∀ w slot, decode w = .ok (.decode slot) → slot.toNat = w.toNat / 2 ^ 24 % 2 ^ 4) ∧
  (∀ w slot idx, decode w = .ok (.rdmain slot idx) →
    slot.toNat = w.toNat / 2 ^ 24 % 2 ^ 4 ∧ idx.toNat = w.toNat % 2 ^ 8) ∧
  (∀ w slot sub idx, decode w = .ok (.rdsub slot sub idx) →
    slot.toNat = w.toNat / 2 ^ 24 % 2 ^ 4 ∧ sub.toNat = w.toNat / 2 ^ 7 % 2 ^ 8 ∧ idx.toNat = w.toNat % 2 ^ 7) ∧
  (∀ w slot, decode w = .ok (.tinfo slot) → slot.toNat = w.toNat / 2 ^ 24 % 2 ^ 4)

/-- R84, R85: exactly the illegal words end with ILLEGAL_CMD, and such a word changes nothing but RESULT and LASTERR. -/
def Obligations.ExactlyIllegalWordsRaise : Prop :=
  ∀ (w : Word) (s : State),
    (wordLegal s.config w.toNat = false → runCommand w s = .next (illegalResult s)) ∧
    (wordLegal s.config w.toNat = true → ∀ t, runCommand w s = .next t → t.lastErr ≠ .illegalCmd)

/-- R204: a command word that ends with ILLEGAL_CMD has changed RESULT and LASTERR and nothing else, and so has a command
with a field out of range. -/
def Obligations.IllegalCommandChangesNothingElse : Prop :=
  (∀ (w : Word) (s t : State), runCommand w s = .next t → t.lastErr = .illegalCmd → t = illegalResult s) ∧
  (∀ (i : Instr) (s t : State), exec i s = .next t → t.lastErr = .illegalCmd →
    i.wf s.config = false ∧ t = illegalResult s)

/-! ### The bit reader -/

/-- R103: NOP completes in every state, writes RESULT = 0 and LASTERR = OK, and changes nothing else; a reserved bit makes
the word illegal. -/
def Obligations.NopOnlyWritesItsResult : Prop :=
  (∀ s, exec .nop s = .next { s with result := 0, lastErr := .ok }) ∧
  (∀ s, runCommand 0x00000000#32 s = exec .nop s) ∧
  (∀ (w : Word) (s : State), w.toNat < 2 ^ 28 → w ≠ 0 → runCommand w s = .next (illegalResult s))

/-- R104: STREAM sets LEN, POS = 0, an empty shift register and no stale byte, clears the sticky bits, and changes nothing
else; a length above STREAM_BYTES is illegal. -/
def Obligations.StreamStartsANewStream : Prop :=
  (∀ (w : Word) (s : State), w.toNat / 2 ^ 28 = 0x1 → runCommand w s = exec (.stream (w.extractLsb' 0 28)) s) ∧
  ∀ (len : BitVec 28) (s : State),
    (len.toNat ≤ s.config.streamBytes → exec (.stream len) s = .next { s with
      result := 0, lastErr := .ok, len := len, pos := 0, cur := 0, sr := [], stale := [],
      sfail := false, seenEos := false, seenInvalid := false }) ∧
    (s.config.streamBytes < len.toNat → exec (.stream len) s = .next (illegalResult s))

/-- R105: READBITS n. Its words, and the cases in their order; Peek may stop it, and a successful one returns the bits LSB-first, advances POS by n, and
changes nothing else but the shift register. -/
def Obligations.ReadbitsReturnsTheNextBits : Prop :=
  (∀ (w : Word) (s : State), w.toNat / 2 ^ 28 = 0x2 →
    (w.toNat / 2 ^ 5 % 2 ^ 23 = 0 → runCommand w s = exec (.readbits (w.extractLsb' 0 5)) s) ∧
    (w.toNat / 2 ^ 5 % 2 ^ 23 ≠ 0 → runCommand w s = .next (illegalResult s))) ∧
  ∀ (n : BitVec 5) (s : State),
    (n = 0 → exec (.readbits n) s = .next (illegalResult s)) ∧
    (n ≠ 0 → s.sfail = true →
      exec (.readbits n) s = .next { s with result := 0xFFFFFFFF#32, lastErr := .streamFailed }) ∧
    (n ≠ 0 → s.sfail = false → 8 * s.len.toNat < s.pos.toNat + n.toNat →
      exec (.readbits n) s = .next { s with
        result := 0xFFFFFFFF#32, lastErr := .eos, sfail := true, seenEos := true }) ∧
    (n ≠ 0 → s.sfail = false → s.pos.toNat + n.toNat ≤ 8 * s.len.toNat →
      ∀ e, peek s s.pos.toNat n.toNat = .error e → exec (.readbits n) s = e.outcome) ∧
    (n ≠ 0 → s.sfail = false → s.pos.toNat + n.toNat ≤ 8 * s.len.toNat → Readable s s.pos.toNat n.toNat →
      ∃ (cur' : Nat) (sr' : List (Option Bool)), exec (.readbits n) s = .next { s with
        result := BitVec.ofNat 32 (streamValue s s.pos.toNat n.toNat), lastErr := .ok,
        pos := BitVec.ofNat 32 (s.pos.toNat + n.toNat), cur := cur', sr := sr' })

/-- R106: (a) a step keeps POS at most 8*LEN; (b) a read value is below 2^n; (c) two reads make one; (d) only STREAM and a
successful READBITS or DECODE change POS. -/
def Obligations.ReadFactsFollow : Prop :=
  (∀ s t : State, s.pos.toNat ≤ 8 * s.len.toNat → step s = .next t → t.pos.toNat ≤ 8 * t.len.toNat) ∧
  (∀ (n : BitVec 5) (s t : State), exec (.readbits n) s = .next t → t.lastErr = .ok → t.result.toNat < 2 ^ n.toNat) ∧
  (∀ (a b ab : BitVec 5) (s t u : State), ab.toNat = a.toNat + b.toNat →
    exec (.readbits a) s = .next t → t.lastErr = .ok → exec (.readbits b) t = .next u → u.lastErr = .ok →
    ∃ v, exec (.readbits ab) s = .next v ∧ v.lastErr = .ok ∧ v.pos = u.pos ∧
      v.result.toNat = t.result.toNat + u.result.toNat * 2 ^ a.toNat) ∧
  (∀ (i : Instr) (s t : State), exec i s = .next t → t.pos ≠ s.pos →
    (∃ len, i = .stream len) ∨ (t.lastErr = .ok ∧ ((∃ n, i = .readbits n) ∨ ∃ slot, i = .decode slot)))

/-- R101, R65, R66: Peek answers the LSB-first value of the bits, 0 past the end of the stream, and stops at the first
unwritten or stale byte. -/
def Obligations.PeekReturnsTheStreamBits : Prop :=
  (∀ (s : State) (p n : Nat), Readable s p n → peek s p n = .ok (streamValue s p n)) ∧
  (∀ (s : State) (p n j : Nat), p ≤ j → j < p + n → Readable s p (j - p) → j < 8 * s.len.toNat →
    written s (j / 8) = false → peek s p n = .error (.fault .unwrittenStreamByte)) ∧
  (∀ (s : State) (p n j : Nat), p ≤ j → j < p + n → Readable s p (j - p) → j < 8 * s.len.toNat →
    written s (j / 8) = true → isStale s (j / 8) = true → peek s p n = .error (.refuse .staleStreamByte))

/-- R67, R210, R211: READBITS and DECODE stop with the fault or the refusal exactly when Peek does, and no other command
stops. -/
def Obligations.CommandsStopOnlyWherePeekDoes : Prop :=
  (∀ (n : BitVec 5) (s : State) (e : Stop), n ≠ 0 → s.sfail = false →
    s.pos.toNat + n.toNat ≤ 8 * s.len.toNat → peek s s.pos.toNat n.toNat = .error e →
    exec (.readbits n) s = e.outcome) ∧
  (∀ (slot : BitVec 4) (s : State) (e : Stop), slot.toNat < s.config.numSlots →
    (slotAt s slot.toNat).valid = true → s.sfail = false →
    peek s s.pos.toNat (slotAt s slot.toNat).table.maxLen.toNat = .error e → exec (.decode slot) s = e.outcome) ∧
  (∀ (i : Instr) (s : State), (∀ t, exec i s ≠ .next t) →
    s.sfail = false ∧ ((∃ n e, i = .readbits n ∧ peek s s.pos.toNat n.toNat = .error e) ∨
      ∃ slot e, i = .decode slot ∧
        peek s s.pos.toNat (slotAt s slot.toNat).table.maxLen.toNat = .error e)) ∧
  (∀ (i : Instr) (s : State), (∀ n, i ≠ .readbits n) → (∀ slot, i ≠ .decode slot) → ∃ t, exec i s = .next t)

/-- R35, R236: what the shift register holds changes no outcome of a command but the shift register itself. -/
def Obligations.PrefetchIsUnobservable : Prop :=
  ∀ (i : Instr) (s : State) (c : Nat) (r : List (Option Bool)),
    (∀ t, exec i s = .next t →
      ∃ (c' : Nat) (r' : List (Option Bool)), exec i { s with cur := c, sr := r } = .next { t with cur := c', sr := r' }) ∧
    (∀ f, exec i s = .fault f → exec i { s with cur := c, sr := r } = .fault f) ∧
    (∀ f, exec i s = .refused f → exec i { s with cur := c, sr := r } = .refused f)

/-! ### Code lengths -/

/-- R120: SETCL writes one entry of CLMEM and changes nothing else; a symbol at or above MAX_SYMBOL is illegal. -/
def Obligations.SetclWritesOneLength : Prop :=
  (∀ (w : Word) (s : State), w.toNat / 2 ^ 28 = 0x3 →
    (w.toNat / 2 ^ 16 % 2 ^ 12 = 0 → runCommand w s = exec (.setcl (w.extractLsb' 4 12) (w.extractLsb' 0 4)) s) ∧
    (w.toNat / 2 ^ 16 % 2 ^ 12 ≠ 0 → runCommand w s = .next (illegalResult s))) ∧
  ∀ (sym : BitVec 12) (cl : BitVec 4) (s : State),
    (sym.toNat < s.config.maxSymbol → ∃ m : CodeLengths,
      exec (.setcl sym cl) s = .next { s with result := 0, lastErr := .ok, clmem := m } ∧
      ∀ j, clRead m j = if j = sym.toNat then cl else clRead s.clmem j) ∧
    (s.config.maxSymbol ≤ sym.toNat → exec (.setcl sym cl) s = .next (illegalResult s))

/-- R121: CLRCL sets every entry of CLMEM to 0 and changes nothing else, and a BUILD right after it answers BUILD_EMPTY
whatever its count. -/
def Obligations.ClrclClearsEveryLength : Prop :=
  (∀ s, ∃ m : CodeLengths, exec .clrcl s = .next { s with result := 0, lastErr := .ok, clmem := m } ∧
    ∀ j, clRead m j = 0) ∧
  (∀ (s t : State) (slot : BitVec 4) (cnt : BitVec 13), slot.toNat < s.config.numSlots →
    cnt.toNat ≤ s.config.maxSymbol → exec .clrcl s = .next t →
    ∃ u, exec (.build slot cnt) t = .next u ∧ u.lastErr = .buildEmpty ∧ u.result = 0xFFFFFFFF#32) ∧
  (∀ s, runCommand 0x40000000#32 s = exec .clrcl s) ∧
  (∀ (w : Word) (s : State), 0x40000000 < w.toNat → w.toNat < 0x50000000 → runCommand w s = .next (illegalResult s))

/-! ### BUILD -/

/-- R133: with no symbol below CNT present, BUILD ends with BUILD_EMPTY. -/
def Obligations.BuildWithoutSymbolsFails : Prop :=
  ∀ (slot : BitVec 4) (cnt : BitVec 13) (s : State), slot.toNat < s.config.numSlots →
    cnt.toNat ≤ s.config.maxSymbol → (∀ j, j < cnt.toNat → clRead s.clmem j = 0) →
    ∃ v : List Slot, exec (.build slot cnt) s = .next { s with
      result := 0xFFFFFFFF#32, lastErr := .buildEmpty, slots := v }

/-- R134: with exactly one symbol below CNT present, BUILD makes the trivial table of it, whatever its length and whatever
P_INCOMPLETE is. -/
def Obligations.BuildOfOneSymbolIsTrivial : Prop :=
  ∀ (slot : BitVec 4) (cnt : BitVec 13) (s : State) (s0 : Nat), slot.toNat < s.config.numSlots →
    s.slots.length = s.config.numSlots → cnt.toNat ≤ s.config.maxSymbol → s0 < cnt.toNat →
    (∀ j, j < cnt.toNat → (clRead s.clmem j ≠ 0 ↔ j = s0)) →
    ∃ v : List Slot, exec (.build slot cnt) s = .next { s with result := 0, lastErr := .ok, slots := v } ∧
      ∀ t : State, t.slots = v → (slotAt t slot.toNat).valid = true ∧
        (slotAt t slot.toNat).table.maxLen = 0 ∧ (slotAt t slot.toNat).table.nsub = 0 ∧
        ∀ i, mainAt (slotAt t slot.toNat).table i = BitVec.ofNat 16 (s0 <<< 4)

/-- R135: with two symbols or more present, the Kraft sum decides between BUILD_OVERSUB, BUILD_INCOMPLETE and a table. -/
def Obligations.KraftSumDecidesBuild : Prop :=
  ∀ (slot : BitVec 4) (cnt : BitVec 13) (s : State) (a b : Nat), slot.toNat < s.config.numSlots →
    s.slots.length = s.config.numSlots → cnt.toNat ≤ s.config.maxSymbol → a < b → b < cnt.toNat →
    clRead s.clmem a ≠ 0 → clRead s.clmem b ≠ 0 →
    (2 ^ 15 < kraftOf s.clmem cnt.toNat → ∃ v : List Slot,
      exec (.build slot cnt) s = .next { s with result := 0xFFFFFFFF#32, lastErr := .buildOversub, slots := v }) ∧
    (kraftOf s.clmem cnt.toNat < 2 ^ 15 → s.config.pIncomplete = .reject → ∃ v : List Slot,
      exec (.build slot cnt) s = .next { s with result := 0xFFFFFFFF#32, lastErr := .buildIncomplete, slots := v }) ∧
    (kraftOf s.clmem cnt.toNat = 2 ^ 15 ∨ (kraftOf s.clmem cnt.toNat < 2 ^ 15 ∧ s.config.pIncomplete = .accept) →
      ∃ v : List Slot, exec (.build slot cnt) s = .next { s with result := 0, lastErr := .ok, slots := v } ∧
        ∀ t : State, t.slots = v → (slotAt t slot.toNat).valid = true)

/-- R131, R132, R234: BUILD's frame. With legal operands it always completes, its slot is valid exactly when it succeeds,
no other slot changes, and RESULT, LASTERR and the slot depend on CLMEM only below CNT; with illegal ones nothing but
RESULT and LASTERR changes. -/
def Obligations.BuildReplacesItsSlotOnly : Prop :=
  (∀ (w : Word) (s : State), w.toNat / 2 ^ 28 = 0x5 →
    (w.toNat / 2 ^ 13 % 2 ^ 11 = 0 → runCommand w s = exec (.build (w.extractLsb' 24 4) (w.extractLsb' 0 13)) s) ∧
    (w.toNat / 2 ^ 13 % 2 ^ 11 ≠ 0 → runCommand w s = .next (illegalResult s))) ∧
  (∀ (slot : BitVec 4) (cnt : BitVec 13) (s : State),
    s.config.numSlots ≤ slot.toNat ∨ s.config.maxSymbol < cnt.toNat →
    exec (.build slot cnt) s = .next (illegalResult s)) ∧
  (∀ (slot : BitVec 4) (cnt : BitVec 13) (s : State), slot.toNat < s.config.numSlots →
    s.slots.length = s.config.numSlots → cnt.toNat ≤ s.config.maxSymbol →
    ∃ t, exec (.build slot cnt) s = .next t ∧
      t = { s with result := t.result, lastErr := t.lastErr, slots := t.slots } ∧
      t.slots.length = s.slots.length ∧
      (∀ k, k ≠ slot.toNat → slotAt t k = slotAt s k) ∧
      ((slotAt t slot.toNat).valid = true ↔ t.lastErr = .ok) ∧
      ∀ (m : CodeLengths) (u : State), (∀ j, j < cnt.toNat → clRead m j = clRead s.clmem j) →
        exec (.build slot cnt) { s with clmem := m } = .next u →
        u.result = t.result ∧ u.lastErr = t.lastErr ∧ slotAt u slot.toNat = slotAt t slot.toNat) ∧
  (∀ (sym : BitVec 12) (cl : BitVec 4) (s t : State), exec (.setcl sym cl) s = .next t → t.slots = s.slots) ∧
  (∀ s t : State, exec .clrcl s = .next t → t.slots = s.slots)

/-- R136, R137: the canonical codes. Every present symbol has one code of its length; the codes of one length are
consecutive in increasing symbol order; as binary fractions they come before every longer code; the first code is 0, and
the first code of each longer length is the binary fraction where the shorter codes end; R is the bit reversal of C. -/
def Obligations.CodesAreCanonical : Prop :=
  ∀ (m : CodeLengths) (n : Nat), kraftOf m n ≤ 2 ^ 15 →
    let cs := canonicalCodes (presentLengths m n)
    (∀ j, j < n → clRead m j ≠ 0 → ∃ c ∈ cs, c.sym = j ∧ ∀ d ∈ cs, d.sym = j → d = c) ∧
    (∀ c ∈ cs, c.sym < n ∧ c.len = (clRead m c.sym).toNat ∧ 1 ≤ c.len ∧ c.code < 2 ^ c.len ∧ c.rev < 2 ^ c.len ∧
      ∀ i, i < c.len → c.rev.testBit i = c.code.testBit (c.len - 1 - i)) ∧
    (∀ c ∈ cs, ∀ d ∈ cs, c.len = d.len → c.sym < d.sym →
      c.code < d.code ∧ ((∀ j, c.sym < j → j < d.sym → clRead m j ≠ clRead m c.sym) → d.code = c.code + 1)) ∧
    (∀ c ∈ cs, ∀ d ∈ cs, c.len < d.len → (c.code + 1) * 2 ^ (15 - c.len) ≤ d.code * 2 ^ (15 - d.len)) ∧
    (∀ c ∈ cs, (∀ d ∈ cs, c.len ≤ d.len) → (∀ d ∈ cs, c.len = d.len → c.sym ≤ d.sym) → c.code = 0) ∧
    (∀ c ∈ cs, ∀ d ∈ cs, c.len < d.len → (∀ e ∈ cs, ¬(c.len < e.len ∧ e.len < d.len)) →
      (∀ e ∈ cs, e.len = c.len → e.sym ≤ c.sym) → (∀ e ∈ cs, e.len = d.len → d.sym ≤ e.sym) →
      d.code * 2 ^ (15 - d.len) = (c.code + 1) * 2 ^ (15 - c.len))

/-- R144: no entry is written twice: no stream value starts with two codes, so no main index is reached by two short codes,
none is reached by a short code and is the first 8 bits of a long one, and no subtable index is reached by two long
codes. -/
def Obligations.NoEntryIsWrittenTwice : Prop :=
  ∀ (m : CodeLengths) (n : Nat), kraftOf m n ≤ 2 ^ 15 →
    let cs := canonicalCodes (presentLengths m n)
    ∀ c ∈ cs, ∀ d ∈ cs, c ≠ d →
      (c.len ≤ 8 → d.len ≤ 8 → ∀ p, ¬(p % 2 ^ c.len = c.rev ∧ p % 2 ^ d.len = d.rev)) ∧
      (c.len ≤ 8 → 8 < d.len → d.rev % 256 % 2 ^ c.len ≠ c.rev) ∧
      (8 < c.len → 8 < d.len → c.rev % 256 = d.rev % 256 →
        ∀ q, ¬(q % 2 ^ (c.len - 8) = c.rev / 256 ∧ q % 2 ^ (d.len - 8) = d.rev / 256))

/-- R143, R130: a BUILD that succeeds leaves its slot valid with the table of the codes; with two symbols or more, MAXLEN
is the largest length. -/
def Obligations.SuccessfulBuildCommitsTheTable : Prop :=
  ∀ (slot : BitVec 4) (cnt : BitVec 13) (s t : State), s.slots.length = s.config.numSlots →
    s.config.maxSymbol ≤ 4095 → exec (.build slot cnt) s = .next t → t.lastErr = .ok →
    t.result = 0 ∧ BuiltSlot t slot s.clmem cnt.toNat ∧
    ((∃ a b, a < b ∧ b < cnt.toNat ∧ clRead s.clmem a ≠ 0 ∧ clRead s.clmem b ≠ 0) →
      (∀ j, j < cnt.toNat → (clRead s.clmem j).toNat ≤ (slotAt t slot.toNat).table.maxLen.toNat) ∧
      ∃ j, j < cnt.toNat ∧ clRead s.clmem j = (slotAt t slot.toNat).table.maxLen)

/-- R139, R140, R142: the main table of a code of two symbols or more. A short code's leaf stands at every index whose low
bits are its reversal; an index that is the first 8 bits of a long code is indirect, and holds the number of smaller such
indices; every other index is unoccupied. -/
def Obligations.MainTableHoldsItsEntries : Prop :=
  ∀ (s : State) (slot : BitVec 4) (m : CodeLengths) (cnt : Nat), BuiltSlot s slot m cnt →
    2 ≤ (presentLengths m cnt).length →
    let cs := canonicalCodes (presentLengths m cnt)
    let t := (slotAt s slot.toNat).table
    (∀ c ∈ cs, c.len ≤ 8 → ∀ i : BitVec 8, i.toNat % 2 ^ c.len = c.rev →
      mainAt t i = BitVec.ofNat 16 (c.sym <<< 4 ||| c.len)) ∧
    (∀ c ∈ cs, 8 < c.len → ∀ i : BitVec 8, i.toNat = c.rev % 256 →
      mainAt t i = BitVec.ofNat 16
        (((List.range i.toNat).filter fun p => cs.any fun d => decide (8 < d.len ∧ d.rev % 256 = p)).length <<< 4 ||| 0xF)) ∧
    (∀ i : BitVec 8, (∀ c ∈ cs, c.len ≤ 8 → i.toNat % 2 ^ c.len ≠ c.rev) →
      (∀ c ∈ cs, 8 < c.len → i.toNat ≠ c.rev % 256) → mainAt t i = 0xFFF0#16)

/-- R138, R139, R141, R142: NSUB is the number of main indices that are the first 8 bits of a long code; and the subtable
behind each of these. Its width is the most bits a code under it has past the
first 8; a long code's leaf, with its full length, stands at every index its remaining bits reach; every other index is
unoccupied. -/
def Obligations.SubtablesHoldTheirEntries : Prop :=
  ∀ (s : State) (slot : BitVec 4) (m : CodeLengths) (cnt : Nat), BuiltSlot s slot m cnt →
    2 ≤ (presentLengths m cnt).length →
    let cs := canonicalCodes (presentLengths m cnt)
    let t := (slotAt s slot.toNat).table
    t.nsub = ((List.range 256).filter fun p => cs.any fun c => decide (8 < c.len ∧ c.rev % 256 = p)).length ∧
    ∀ i : BitVec 8, (∃ c ∈ cs, 8 < c.len ∧ c.rev % 256 = i.toNat) →
      let k := (entrySym (mainAt t i)).toNat
      k < t.nsub ∧
      (∀ c ∈ cs, 8 < c.len → c.rev % 256 = i.toNat → c.len - 8 ≤ subBitsAt t k) ∧
      (∃ c ∈ cs, 8 < c.len ∧ c.rev % 256 = i.toNat ∧ c.len - 8 = subBitsAt t k) ∧
      (∀ c ∈ cs, 8 < c.len → c.rev % 256 = i.toNat → ∀ q, q < 2 ^ subBitsAt t k →
        q % 2 ^ (c.len - 8) = c.rev / 256 → subAt t k q = BitVec.ofNat 16 (c.sym <<< 4 ||| c.len)) ∧
      (∀ q, q < 2 ^ subBitsAt t k →
        (∀ c ∈ cs, 8 < c.len → c.rev % 256 = i.toNat → q % 2 ^ (c.len - 8) ≠ c.rev / 256) → subAt t k q = 0xFFF0#16)

/-- R145: a complete code leaves no entry unoccupied; a main index, and an index of a subtable, is unoccupied exactly when
no code reaches it; a trivial table has no unoccupied entry. -/
def Obligations.OccupancyOfABuiltTable : Prop :=
  ∀ (s : State) (slot : BitVec 4) (m : CodeLengths) (cnt : Nat), BuiltSlot s slot m cnt →
    let cs := canonicalCodes (presentLengths m cnt)
    let t := (slotAt s slot.toNat).table
    (2 ≤ (presentLengths m cnt).length → kraftOf m cnt = 2 ^ 15 →
      (∀ i, entrySym (mainAt t i) ≠ unoccupiedSym) ∧
      ∀ u ∈ t.subs, ∀ e ∈ u.entries, entrySym e ≠ unoccupiedSym) ∧
    (2 ≤ (presentLengths m cnt).length → ∀ i : BitVec 8, mainAt t i = unoccupied ↔
      (∀ c ∈ cs, c.len ≤ 8 → i.toNat % 2 ^ c.len ≠ c.rev) ∧ (∀ c ∈ cs, 8 < c.len → c.rev % 256 ≠ i.toNat)) ∧
    (2 ≤ (presentLengths m cnt).length → ∀ i : BitVec 8, (∃ c ∈ cs, 8 < c.len ∧ c.rev % 256 = i.toNat) →
      ∀ q, q < 2 ^ subBitsAt t (entrySym (mainAt t i)).toNat →
        (subAt t (entrySym (mainAt t i)).toNat q = unoccupied ↔
          ∀ c ∈ cs, 8 < c.len → c.rev % 256 = i.toNat → q % 2 ^ (c.len - 8) ≠ c.rev / 256)) ∧
    ((presentLengths m cnt).length = 1 → ∀ i, entrySym (mainAt t i) ≠ unoccupiedSym)

/-- R146, R237: a built table fits its storage: at most 256 subtables of at most 128 entries, at most 32768 entries in all;
and a BUILD with legal operands ends with OK or one of its three errors, never for lack of memory. -/
def Obligations.BuiltTableFitsItsStorage : Prop :=
  (∀ (s : State) (slot : BitVec 4) (m : CodeLengths) (cnt : Nat), BuiltSlot s slot m cnt →
    let t := (slotAt s slot.toNat).table
    t.nsub ≤ 256 ∧ (∀ u ∈ t.subs, u.entries.length = 2 ^ u.bits.toNat ∧ u.entries.length ≤ 128) ∧
    (t.subs.map fun u => u.entries.length).sum ≤ 32768) ∧
  (∀ (slot : BitVec 4) (cnt : BitVec 13) (s t : State), slot.toNat < s.config.numSlots →
    cnt.toNat ≤ s.config.maxSymbol → exec (.build slot cnt) s = .next t →
    t.lastErr = .ok ∨ t.lastErr = .buildEmpty ∨ t.lastErr = .buildOversub ∨ t.lastErr = .buildIncomplete)

/-! ### DECODE -/

/-- R160: DECODE's words, its checks in their order, the stops of Peek, its two-level lookup, and its effect, with nothing else changed. -/
def Obligations.DecodeFollowsTheTwoLevelLookup : Prop :=
  (∀ (w : Word) (s : State), w.toNat / 2 ^ 28 = 0x6 →
    (w.toNat % 2 ^ 24 = 0 → runCommand w s = exec (.decode (w.extractLsb' 24 4)) s) ∧
    (w.toNat % 2 ^ 24 ≠ 0 → runCommand w s = .next (illegalResult s))) ∧
  ∀ (slot : BitVec 4) (s : State),
    let t := (slotAt s slot.toNat).table
    let x := streamValue s s.pos.toNat t.maxLen.toNat
    let e0 := mainAt t (BitVec.ofNat 8 (x % 256))
    let k := (e0 >>> 4).toNat
    let e := if e0 &&& 0xF#16 = 0xF#16 then subAt t k (x / 256 % 2 ^ subBitsAt t k) else e0
    let l := (e &&& 0xF#16).toNat
    (s.config.numSlots ≤ slot.toNat → exec (.decode slot) s = .next (illegalResult s)) ∧
    (slot.toNat < s.config.numSlots → (slotAt s slot.toNat).valid = false →
      exec (.decode slot) s = .next { s with result := 0xFFFFFFFF#32, lastErr := .slotInvalid }) ∧
    (slot.toNat < s.config.numSlots → (slotAt s slot.toNat).valid = true → s.sfail = true →
      exec (.decode slot) s = .next { s with result := 0xFFFFFFFF#32, lastErr := .streamFailed }) ∧
    (slot.toNat < s.config.numSlots → (slotAt s slot.toNat).valid = true → s.sfail = false →
      ∀ r, peek s s.pos.toNat t.maxLen.toNat = .error r → exec (.decode slot) s = r.outcome) ∧
    (slot.toNat < s.config.numSlots → (slotAt s slot.toNat).valid = true → s.sfail = false →
      Readable s s.pos.toNat t.maxLen.toNat →
      (e >>> 4 = 0xFFF#16 → exec (.decode slot) s = .next { s with
        result := 0xFFFFFFFF#32, lastErr := .invalidCode, sfail := true, seenInvalid := true }) ∧
      (e >>> 4 ≠ 0xFFF#16 → 8 * s.len.toNat < s.pos.toNat + l → exec (.decode slot) s = .next { s with
        result := 0xFFFFFFFF#32, lastErr := .eos, sfail := true, seenEos := true }) ∧
      (e >>> 4 ≠ 0xFFF#16 → s.pos.toNat + l ≤ 8 * s.len.toNat →
        ∃ (cur' : Nat) (sr' : List (Option Bool)), exec (.decode slot) s = .next { s with
          result := (e >>> 4).setWidth 32, lastErr := .ok, pos := BitVec.ofNat 32 (s.pos.toNat + l),
          cur := cur', sr := sr' }))

/-- R165: where the stream holds a code of the slot's table at POS, inside the stream, DECODE returns its symbol and
advances POS by its length, whatever bits follow. -/
def Obligations.DecodeReturnsTheCodedSymbol : Prop :=
  ∀ (s : State) (slot : BitVec 4) (m : CodeLengths) (cnt : Nat) (c : Code), BuiltSlot s slot m cnt →
    2 ≤ (presentLengths m cnt).length → c ∈ canonicalCodes (presentLengths m cnt) → s.sfail = false →
    Readable s s.pos.toNat (slotAt s slot.toNat).table.maxLen.toNat →
    (∀ i, i < c.len → streamBit s (s.pos.toNat + i) = c.code.testBit (c.len - 1 - i)) →
    s.pos.toNat + c.len ≤ 8 * s.len.toNat →
    ∃ u, exec (.decode slot) s = .next u ∧ u.result.toNat = c.sym ∧ u.lastErr = .ok ∧
      u.pos.toNat = s.pos.toNat + c.len ∧
      u = { s with result := u.result, lastErr := u.lastErr, pos := u.pos, cur := u.cur, sr := u.sr }

/-- R166: with a trivial table DECODE returns its symbol and consumes nothing, even on an empty stream; it still raises
STREAM_FAILED. -/
def Obligations.TrivialDecodeConsumesNothing : Prop :=
  ∀ (s : State) (slot : BitVec 4) (s0 : BitVec 12), slot.toNat < s.config.numSlots →
    (slotAt s slot.toNat).valid = true → (slotAt s slot.toNat).table.Trivial s0 → s0 ≠ unoccupiedSym →
    (s.sfail = false → s.pos.toNat ≤ 8 * s.len.toNat → ∃ (cur' : Nat) (sr' : List (Option Bool)),
      exec (.decode slot) s = .next { s with result := s0.setWidth 32, lastErr := .ok, cur := cur', sr := sr' }) ∧
    (s.sfail = true →
      exec (.decode slot) s = .next { s with result := 0xFFFFFFFF#32, lastErr := .streamFailed })

/-- R167: the round trip. Where the stream from POS on holds the codes of a message, most significant bit first, one DECODE
for each symbol returns the message, and POS ends behind its last code. -/
def Obligations.RoundTripReproducesTheMessage : Prop :=
  ∀ (s : State) (slot : BitVec 4) (m : CodeLengths) (cnt : Nat) (msg : List Code), BuiltSlot s slot m cnt →
    2 ≤ (presentLengths m cnt).length → (∀ c ∈ msg, c ∈ canonicalCodes (presentLengths m cnt)) → s.sfail = false →
    Readable s s.pos.toNat (8 * s.len.toNat - s.pos.toNat) →
    (∀ i, i < (msg.flatMap codeBits).length →
      (msg.flatMap codeBits)[i]? = some (streamBit s (s.pos.toNat + i))) →
    s.pos.toNat + (msg.flatMap codeBits).length ≤ 8 * s.len.toNat →
    ∃ t, DecodesTo slot (msg.map Code.sym) s t ∧
      t.pos.toNat = s.pos.toNat + (msg.map Code.len).sum

/-- R238, R237: a successful READBITS consumes 1 to 31 bits; a successful DECODE consumes at most 15, and at least 1 when
its table is not trivial. -/
def Obligations.SuccessfulReadsMakeProgress : Prop :=
  (∀ (n : BitVec 5) (s t : State), exec (.readbits n) s = .next t → t.lastErr = .ok →
    s.pos.toNat + 1 ≤ t.pos.toNat ∧ t.pos.toNat ≤ s.pos.toNat + 31 ∧ t.pos.toNat ≤ 8 * t.len.toNat) ∧
  (∀ (slot : BitVec 4) (s t : State), (slotAt s slot.toNat).table.Inv → exec (.decode slot) s = .next t →
    t.lastErr = .ok → s.pos.toNat ≤ t.pos.toNat ∧ t.pos.toNat ≤ s.pos.toNat + 15 ∧ t.pos.toNat ≤ 8 * t.len.toNat ∧
    ((slotAt s slot.toNat).table.maxLen ≠ 0 → s.pos.toNat + 1 ≤ t.pos.toNat))

/-! ### Inspection -/

/-- R180: RDMAIN's words, its checks in their order, and its result; nothing else changes. -/
def Obligations.RdmainReadsAMainEntry : Prop :=
  (∀ (w : Word) (s : State), w.toNat / 2 ^ 28 = 0x7 →
    (w.toNat / 2 ^ 8 % 2 ^ 16 = 0 → runCommand w s = exec (.rdmain (w.extractLsb' 24 4) (w.extractLsb' 0 8)) s) ∧
    (w.toNat / 2 ^ 8 % 2 ^ 16 ≠ 0 → runCommand w s = .next (illegalResult s))) ∧
  ∀ (slot : BitVec 4) (idx : BitVec 8) (s : State),
    (s.config.numSlots ≤ slot.toNat → exec (.rdmain slot idx) s = .next (illegalResult s)) ∧
    (slot.toNat < s.config.numSlots → (slotAt s slot.toNat).valid = false →
      exec (.rdmain slot idx) s = .next { s with result := 0xFFFFFFFF#32, lastErr := .slotInvalid }) ∧
    (slot.toNat < s.config.numSlots → (slotAt s slot.toNat).valid = true →
      exec (.rdmain slot idx) s = .next { s with
        result := (mainAt (slotAt s slot.toNat).table idx).setWidth 32, lastErr := .ok })

/-- R181: RDSUB's words, its checks in their order, and its result; nothing else changes. A built table with MAXLEN <= 8 has
no subtable and answers RANGE. -/
def Obligations.RdsubReadsASubtableEntry : Prop :=
  (∀ (w : Word) (s : State), w.toNat / 2 ^ 28 = 0x8 →
    (w.toNat / 2 ^ 15 % 2 ^ 9 = 0 → runCommand w s = exec (.rdsub (w.extractLsb' 24 4) (w.extractLsb' 7 8) (w.extractLsb' 0 7)) s) ∧
    (w.toNat / 2 ^ 15 % 2 ^ 9 ≠ 0 → runCommand w s = .next (illegalResult s))) ∧
  ∀ (slot : BitVec 4) (sub : BitVec 8) (idx : BitVec 7) (s : State),
    let t := (slotAt s slot.toNat).table
    (s.config.numSlots ≤ slot.toNat → exec (.rdsub slot sub idx) s = .next (illegalResult s)) ∧
    (slot.toNat < s.config.numSlots → (slotAt s slot.toNat).valid = false →
      exec (.rdsub slot sub idx) s = .next { s with result := 0xFFFFFFFF#32, lastErr := .slotInvalid }) ∧
    (slot.toNat < s.config.numSlots → (slotAt s slot.toNat).valid = true →
      t.nsub ≤ sub.toNat ∨ 2 ^ subBitsAt t sub.toNat ≤ idx.toNat →
      exec (.rdsub slot sub idx) s = .next { s with result := 0xFFFFFFFF#32, lastErr := .range }) ∧
    (slot.toNat < s.config.numSlots → (slotAt s slot.toNat).valid = true → sub.toNat < t.nsub →
      idx.toNat < 2 ^ subBitsAt t sub.toNat →
      exec (.rdsub slot sub idx) s = .next { s with
        result := (subAt t sub.toNat idx.toNat).setWidth 32, lastErr := .ok }) ∧
    (slot.toNat < s.config.numSlots → (slotAt s slot.toNat).valid = true → t.Inv → t.maxLen.toNat ≤ 8 →
      t.nsub = 0 ∧ exec (.rdsub slot sub idx) s = .next { s with result := 0xFFFFFFFF#32, lastErr := .range })

/-- R182: TINFO's words, its check, and its result for an invalid and a valid slot; nothing else changes. -/
def Obligations.TinfoReadsTheSummary : Prop :=
  (∀ (w : Word) (s : State), w.toNat / 2 ^ 28 = 0x9 →
    (w.toNat % 2 ^ 24 = 0 → runCommand w s = exec (.tinfo (w.extractLsb' 24 4)) s) ∧
    (w.toNat % 2 ^ 24 ≠ 0 → runCommand w s = .next (illegalResult s))) ∧
  ∀ (slot : BitVec 4) (s : State),
    (s.config.numSlots ≤ slot.toNat → exec (.tinfo slot) s = .next (illegalResult s)) ∧
    (slot.toNat < s.config.numSlots → (slotAt s slot.toNat).valid = false →
      exec (.tinfo slot) s = .next { s with result := 0, lastErr := .ok }) ∧
    (slot.toNat < s.config.numSlots → (slotAt s slot.toNat).valid = true →
      (slotAt s slot.toNat).table.nsub ≤ 256 →
      exec (.tinfo slot) s = .next { s with
        result := BitVec.ofNat 32
          (2 ^ 16 + (slotAt s slot.toNat).table.nsub * 2 ^ 4 + (slotAt s slot.toNat).table.maxLen.toNat),
        lastErr := .ok })

/-! ### Results, errors and frames -/

/-- R24: a command that fails writes 0xFFFFFFFF to RESULT, and one that succeeds a value below 2^31. -/
def Obligations.FailureValueIsNeverASuccess : Prop :=
  State.reset.result = 0 ∧
  ∀ (i : Instr) (s t : State), exec i s = .next t →
    (t.lastErr ≠ .ok → t.result = 0xFFFFFFFF#32) ∧ (t.lastErr = .ok → t.result.toNat < 2 ^ 31)

/-- R203: after a command RESULT and LASTERR describe that command alone: what they held before changes nothing. -/
def Obligations.ResultDescribesTheLastCommand : Prop :=
  ∀ (i : Instr) (s : State) (v : Word) (e : ErrorCode), exec i { s with result := v, lastErr := e } = exec i s

/-- R202, R201: a command that ends with EOS or INVALID_CODE has set SFAIL and the bit of the error, and every failing
command but BUILD has changed nothing else but RESULT and LASTERR. -/
def Obligations.ErrorsSetTheirStickyBits : Prop :=
  ∀ (i : Instr) (s t : State), exec i s = .next t → (∀ slot cnt, i ≠ .build slot cnt) → t.lastErr ≠ .ok →
    t = { s with
      result := 0xFFFFFFFF#32, lastErr := t.lastErr,
      sfail := s.sfail || decide (t.lastErr = .eos ∨ t.lastErr = .invalidCode),
      seenEos := s.seenEos || decide (t.lastErr = .eos),
      seenInvalid := s.seenInvalid || decide (t.lastErr = .invalidCode) }

/-- R206: while SFAIL = 1, READBITS and DECODE end with STREAM_FAILED and change nothing else, and the other commands work
as they do without it. -/
def Obligations.FailedStreamGatesReads : Prop :=
  (∀ (n : BitVec 5) (s : State), n ≠ 0 → s.sfail = true →
    exec (.readbits n) s = .next { s with result := 0xFFFFFFFF#32, lastErr := .streamFailed }) ∧
  (∀ (slot : BitVec 4) (s : State), slot.toNat < s.config.numSlots → (slotAt s slot.toNat).valid = true →
    s.sfail = true → exec (.decode slot) s = .next { s with result := 0xFFFFFFFF#32, lastErr := .streamFailed }) ∧
  (∀ (i : Instr) (s t : State), (∀ len, i ≠ .stream len) → (∀ n, i ≠ .readbits n) → (∀ slot, i ≠ .decode slot) →
    exec i s = .next t → exec i { s with sfail := true } = .next { t with sfail := true })

/-- R207, R25: a step clears SFAIL, SEEN_EOS or SEEN_INVALID only for a reset or a legal STREAM.
Events are the model's form of the host and of reset (log 1, log 17). -/
def Obligations.OnlyStreamAndResetClearStickyBits : Prop :=
  ∀ (s t : State) (e : Event) (rest : List Event), s.events = e :: rest → step s = .next t →
    (s.sfail = true ∧ t.sfail = false) ∨ (s.seenEos = true ∧ t.seenEos = false) ∨
      (s.seenInvalid = true ∧ t.seenInvalid = false) →
    e = .reset ∨ ∃ (w : Word) (len : BitVec 28), e = .access false (.write 0 4 w) ∧
      decode w = .ok (.stream len) ∧ len.toNat ≤ s.config.streamBytes

/-- R38, the written state: what each command may change when it answers a next state. -/
def Obligations.EachCommandWritesItsStateOnly : Prop :=
  ∀ s t : State,
    (exec .nop s = .next t → t = { s with result := t.result, lastErr := t.lastErr }) ∧
    (∀ len, exec (.stream len) s = .next t → t = { s with
      result := t.result, lastErr := t.lastErr, sfail := t.sfail, seenEos := t.seenEos, seenInvalid := t.seenInvalid,
      pos := t.pos, len := t.len, cur := t.cur, sr := t.sr, stale := t.stale }) ∧
    (∀ n, exec (.readbits n) s = .next t → t = { s with
      result := t.result, lastErr := t.lastErr, sfail := t.sfail, seenEos := t.seenEos,
      pos := t.pos, cur := t.cur, sr := t.sr }) ∧
    (∀ sym cl, exec (.setcl sym cl) s = .next t →
      t = { s with result := t.result, lastErr := t.lastErr, clmem := t.clmem }) ∧
    (exec .clrcl s = .next t → t = { s with result := t.result, lastErr := t.lastErr, clmem := t.clmem }) ∧
    (∀ slot cnt, exec (.build slot cnt) s = .next t →
      t = { s with result := t.result, lastErr := t.lastErr, slots := t.slots } ∧
      ∀ k, k ≠ slot.toNat → slotAt t k = slotAt s k) ∧
    (∀ slot, exec (.decode slot) s = .next t → t = { s with
      result := t.result, lastErr := t.lastErr, sfail := t.sfail, seenEos := t.seenEos, seenInvalid := t.seenInvalid,
      pos := t.pos, cur := t.cur, sr := t.sr }) ∧
    (∀ slot idx, exec (.rdmain slot idx) s = .next t → t = { s with result := t.result, lastErr := t.lastErr }) ∧
    (∀ slot sub idx, exec (.rdsub slot sub idx) s = .next t → t = { s with result := t.result, lastErr := t.lastErr }) ∧
    (∀ slot, exec (.tinfo slot) s = .next t → t = { s with result := t.result, lastErr := t.lastErr })

/-! ### Host accesses -/

/-- R22, R25, R28, R29, R61: what a host read outside the stream window returns; nothing else changes.
Where the value goes, `readData`, and the event list are the model's choice (log 11, log 1). -/
def Obligations.HostReadsReturnTheRegisters : Prop :=
  ∀ (s : State) (a : Word) (rest : List Event), s.events = .access false (.read a 4) :: rest → a.toNat % 4 = 0 →
    (a.toNat < 0x10000000 ∨ 0x10000000 + 4 * ((s.config.streamBytes + 3) / 4) ≤ a.toNat) →
    s.config.wf = true →
    ∃ v : Word, step s = .next { s with events := rest, readData := some v } ∧
      (a.toNat = 0x000 → v = 0) ∧ (a.toNat = 0x004 → v = s.result) ∧
      (a.toNat = 0x008 → v.toNat = s.lastErr.code.toNat + 2 ^ 4 * s.sfail.toNat + 2 ^ 5 * s.seenEos.toNat +
        2 ^ 6 * s.seenInvalid.toNat) ∧
      (a.toNat = 0x00C → v = s.pos) ∧ (a.toNat = 0x010 → v.toNat = s.len.toNat) ∧
      (a.toNat = 0x014 → v.toNat = s.config.maxSymbol + 2 ^ 16 * s.config.numSlots +
        2 ^ 24 * (decide (s.config.pIncomplete = .reject)).toNat) ∧
      (0x018 ≤ a.toNat → v = 0)

/-- R22, R29, R61: a host write to an aligned address that is neither CMD nor in the stream window changes nothing.
The event list is the model's form of the host (log 1). -/
def Obligations.HostWritesElsewhereAreIgnored : Prop :=
  ∀ (s : State) (a v : Word) (rest : List Event), s.events = .access false (.write a 4 v) :: rest →
    a.toNat % 4 = 0 → a ≠ 0 →
    (a.toNat < 0x10000000 ∨ 0x10000000 + 4 * ((s.config.streamBytes + 3) / 4) ≤ a.toNat) →
    step s = .next { s with events := rest }

/-- R62, R230, R211: an access of another width or alignment, and every access while reset is asserted, is refused.
That reset comes first for an access that is both is the model's choice (log 10). -/
def Obligations.MalformedAccessesAreRefused : Prop :=
  (∀ (s : State) (a v : Word) (bytes : Nat) (rest : List Event), bytes ≠ 4 ∨ a.toNat % 4 ≠ 0 →
    (s.events = .access false (.read a bytes) :: rest ∨ s.events = .access false (.write a bytes v) :: rest) →
    step s = .refused .hostAccessShape) ∧
  (∀ (s : State) (x : HostAccess) (rest : List Event), s.events = .access true x :: rest →
    step s = .refused .accessDuringReset)

/-- R63, R233: a host write of the stream window stores its bytes little-endian up to STREAM_BYTES, marks as stale those
from the read position up to LEN, and changes nothing else.
The event list is the model's form of the host (log 1). -/
def Obligations.WindowWriteStoresLittleEndian : Prop :=
  ∀ (s : State) (k : Nat) (v : Word) (rest : List Event), s.config.wf = true → 4 * k < s.config.streamBytes →
    s.events = .access false (.write (BitVec.ofNat 32 (0x10000000 + 4 * k)) 4 v) :: rest →
    ∃ (m : Memory) (l : List Nat), step s = .next { s with events := rest, stream := m, stale := l } ∧
      ∀ t : State, t.stream = m → t.stale = l → ∀ j,
        (4 * k ≤ j ∧ j < 4 * k + 4 ∧ j < s.config.streamBytes →
          streamByte t j = some (BitVec.ofNat 8 (v.toNat / 2 ^ (8 * (j - 4 * k)))) ∧
          isStale t j = (isStale s j || decide (s.pos.toNat / 8 ≤ j ∧ j < s.len.toNat))) ∧
        (j < 4 * k ∨ 4 * k + 4 ≤ j ∨ s.config.streamBytes ≤ j →
          streamByte t j = streamByte s j ∧ isStale t j = isStale s j)

/-- R64, R69: a host read of the stream window returns the bytes little-endian, 0 past STREAM_BYTES, and changes nothing
else; it faults when one of the bytes is unwritten, at or above LEN too (log 9).
`readData` and the event list are the model's choice (log 11, log 1). -/
def Obligations.WindowReadReturnsTheBytes : Prop :=
  ∀ (s : State) (k : Nat) (rest : List Event), s.config.wf = true → 4 * k < s.config.streamBytes →
    s.events = .access false (.read (BitVec.ofNat 32 (0x10000000 + 4 * k)) 4) :: rest →
    ((∀ j, 4 * k ≤ j → j < 4 * k + 4 → j < s.config.streamBytes → written s j = true) →
      ∃ v : Word, step s = .next { s with events := rest, readData := some v } ∧
        ∀ b, b < 4 → BitVec.ofNat 8 (v.toNat / 2 ^ (8 * b)) =
          if 4 * k + b < s.config.streamBytes then (streamByte s (4 * k + b)).getD 0 else 0) ∧
    (∀ j, 4 * k ≤ j → j < 4 * k + 4 → j < s.config.streamBytes → written s j = false →
      step s = .fault .unwrittenStreamByte)

/-- R233, R101: after a host write to a byte from the read position up to LEN, a Peek that starts in that byte is refused;
STREAM clears the mark, and the byte then reads as written. -/
def Obligations.StaleBytesAreRefusedUntilStream : Prop :=
  ∀ (s t : State) (v : Word) (j : Nat), s.pos.toNat / 8 ≤ j → j < s.len.toNat → j < s.config.streamBytes →
    t = writeStreamWord (4 * (j / 4)) v s →
    (∀ p n, p / 8 = j → 1 ≤ n → peek t p n = .error (.refuse .staleStreamByte)) ∧
    (∀ (len : BitVec 28) (u : State), j < len.toNat → exec (.stream len) t = .next u → u.lastErr = .ok →
      peek u (8 * j) 8 = .ok (v.toNat / 2 ^ (8 * (j % 4)) % 2 ^ 8))

/-! ### Reset, ghost bits and invariants -/

/-- R37, R230, R36: reset gives every element the value of R37's table and keeps FAULTED and REFUSED.
The contents of invalid slots and the fields `events` and `readData` are the model's choice (log 3, log 11) and are not
stated. -/
def Obligations.ResetGivesTheResetValues : Prop :=
  ∀ (s : State) (rest : List Event), s.events = .reset :: rest →
    ∃ t, step s = .next t ∧ t.result = 0 ∧ t.lastErr = .ok ∧ t.sfail = false ∧ t.seenEos = false ∧
      t.seenInvalid = false ∧ t.pos = 0 ∧ t.len = 0 ∧ t.config = s.config ∧ capsWord t.config = capsWord s.config ∧
      (∀ k, (slotAt t k).valid = false) ∧ t.slots.length = s.config.numSlots ∧ (∀ j, clRead t.clmem j = 0) ∧
      (∀ i, written t i = false) ∧ t.cur = 0 ∧ t.nb = 0 ∧ (∀ i, isStale t i = false) ∧
      t.faulted = s.faulted ∧ t.refused = s.refused

/-- The state after reset meets the invariant, under every configuration in the ranges of R8. -/
def Obligations.ResetMeetsTheInvariant : Prop :=
  ∀ c : Config, c.wf = true → (State.resetOf c).Inv

/-- Every step keeps the invariant of 10_state.md (R25 to R27, R30, R31, R33 to R36), from every state that meets it. -/
def Obligations.EveryStepKeepsTheInvariant : Prop :=
  ∀ s t : State, s.Inv → step s = .next t → t.Inv

/-- R36, R210, R211: FAULTED and REFUSED are set exactly by a step that faults or is refused, and never cleared; the
parameters of R8 never change.
The recorded state of a step that stops is the model's choice (log 6). -/
def Obligations.GhostBitsRecordTheStops : Prop :=
  ∀ s : State,
    (∀ t, step s = .next t → recordedStep s = t ∧ t.faulted = s.faulted ∧ t.refused = s.refused ∧ t.config = s.config) ∧
    (∀ f, step s = .fault f → (recordedStep s).faulted = true ∧ (recordedStep s).refused = s.refused) ∧
    (∀ r, step s = .refused r → (recordedStep s).refused = true ∧ (recordedStep s).faulted = s.faulted)

/-- R234: a step changes a slot only by a reset or by a BUILD of that slot.
Events are the model's form of the host and of reset (log 1, log 17). -/
def Obligations.OnlyBuildAndResetChangeASlot : Prop :=
  ∀ (s t : State) (e : Event) (rest : List Event) (k : Nat), s.events = e :: rest → step s = .next t →
    slotAt t k ≠ slotAt s k →
    e = .reset ∨ ∃ (w : Word) (slot : BitVec 4) (cnt : BitVec 13), e = .access false (.write 0 4 w) ∧
      decode w = .ok (.build slot cnt) ∧ slot.toNat = k

/-! ### Assembler -/

/-- R88: the word of each assembler line, and the refusal of an operand that does not fit its field. -/
def Obligations.AssemblerEncodesEachLine : Prop :=
  let word (n : Nat) : Option (List Event) := some [.access false (.write 0 4 (BitVec.ofNat 32 n))]
  assemble .nop = word 0x00000000 ∧ assemble .clrcl = word 0x40000000 ∧
  (∀ len, assemble (.stream len) = if len < 2 ^ 28 then word (0x1 <<< 28 ||| len) else none) ∧
  (∀ n, assemble (.readbits n) = if n < 2 ^ 5 then word (0x2 <<< 28 ||| n) else none) ∧
  (∀ sym cl, assemble (.setcl sym cl) =
    if sym < 2 ^ 12 ∧ cl < 2 ^ 4 then word (0x3 <<< 28 ||| sym <<< 4 ||| cl) else none) ∧
  (∀ slot cnt, assemble (.build slot cnt) =
    if slot < 2 ^ 4 ∧ cnt < 2 ^ 13 then word (0x5 <<< 28 ||| slot <<< 24 ||| cnt) else none) ∧
  (∀ slot, assemble (.decode slot) = if slot < 2 ^ 4 then word (0x6 <<< 28 ||| slot <<< 24) else none) ∧
  (∀ slot idx, assemble (.rdmain slot idx) =
    if slot < 2 ^ 4 ∧ idx < 2 ^ 8 then word (0x7 <<< 28 ||| slot <<< 24 ||| idx) else none) ∧
  (∀ slot sub idx, assemble (.rdsub slot sub idx) =
    if slot < 2 ^ 4 ∧ sub < 2 ^ 8 ∧ idx < 2 ^ 7 then word (0x8 <<< 28 ||| slot <<< 24 ||| sub <<< 7 ||| idx) else none) ∧
  (∀ slot, assemble (.tinfo slot) = if slot < 2 ^ 4 then word (0x9 <<< 28 ||| slot <<< 24) else none)

/-- R89: LOADCL runs without an error and leaves CLMEM[i] = l_i, and 0 past the list; nothing else changes. -/
def Obligations.LoadclLoadsTheLengths : Prop :=
  ∀ (s : State) (ls : List Nat) (es : List Event), ls.length ≤ s.config.maxSymbol →
    assemble (.loadcl ls) = some es →
    ∃ m : CodeLengths, SafeRun es.length (s.withEvents es)
        { s with events := [], result := 0, lastErr := .ok, clmem := m } ∧
      ∀ i, (clRead m i).toNat = ls.getD i 0

/-- R89: LDSTREAM runs without an error and starts a readable stream of exactly its bytes. -/
def Obligations.LdstreamStartsAReadableStream : Prop :=
  ∀ (s : State) (bs : List Nat) (es : List Event), s.config.wf = true → bs.length ≤ s.config.streamBytes →
    assemble (.ldstream bs) = some es →
    ∃ t, SafeRun es.length (s.withEvents es) t ∧ t.events = [] ∧ t.lastErr = .ok ∧ t.len.toNat = bs.length ∧
      t.pos = 0 ∧ t.sfail = false ∧ Readable t 0 (8 * bs.length) ∧
      ∀ i, i < bs.length → streamByte t i = some (BitVec.ofNat 8 (bs.getD i 0))

/-! ### Prefetch -/

/-- R35: a prefetch loads whole bytes below LEN behind the live bits of SR and moves CUR past them; nothing else changes.
That a prefetch is an event that loads up to a given number of bytes is the model's choice (log 7). -/
def Obligations.PrefetchLoadsWholeBytes : Prop :=
  ∀ (s : State) (n : Nat) (rest : List Event), s.events = .refill n :: rest →
    step s = .next { s with
      events := rest, cur := s.cur + min n (s.len.toNat - s.cur),
      sr := s.sr ++ (List.range' s.cur (min n (s.len.toNat - s.cur))).flatMap (byteBits s) }
end

