-- ==== Sys2Proof/Laws/Canonical.lean ====
section
/-! SUPPORT. Canonical codes (42_build.md R136, R137, R144): each code owns an interval of the 15-bit strings, the
intervals are disjoint, and they fill the first K of the 2^15 strings. -/

namespace Sys2Proof.Machine

open Sys2Proof

/-! ### Bit reversal -/

theorem bitrev_lt (c l : Nat) : bitrev c l < 2 ^ l := by
  induction l with
  | zero => simp [bitrev]
  | succ l ih => have := Bool.toNat_le (c.testBit l); rw [bitrev, Nat.pow_succ]; omega

/-- Bit i of the result is bit L-1-i of c (R12). -/
theorem bitrev_testBit (c l i : Nat) : (bitrev c l).testBit i = (decide (i < l) && c.testBit (l - 1 - i)) := by
  induction l generalizing i with
  | zero => simp [bitrev]
  | succ l ih =>
    cases i with
    | zero => cases h : c.testBit l <;> simp [bitrev, Nat.testBit_zero, h]
    | succ i =>
      rw [bitrev, Nat.testBit_succ, show ((c.testBit l).toNat + 2 * bitrev c l) / 2 = bitrev c l by
        have := Bool.toNat_le (c.testBit l); omega, ih, show l + 1 - 1 - (i + 1) = l - 1 - i by omega]
      simp

/-- A stream value starts with a reversed code exactly when its 15-bit reversal starts with the code. -/
theorem mod_eq_bitrev_iff {x c l : Nat} (hl : l ≤ 15) (hc : c < 2 ^ l) :
    x % 2 ^ l = bitrev c l ↔ bitrev x 15 / 2 ^ (15 - l) = c := by
  constructor <;> intro h <;> refine Nat.eq_of_testBit_eq fun i => ?_
  · rw [Nat.testBit_div_two_pow, bitrev_testBit]
    by_cases hi : i < l
    · have := congrArg (fun v => v.testBit (l - 1 - i)) h
      simp only [Nat.testBit_mod_two_pow, bitrev_testBit] at this
      rw [show l - 1 - (l - 1 - i) = i by omega] at this
      rw [show 15 - 1 - (i + (15 - l)) = l - 1 - i by omega]
      simp only [show l - 1 - i < l by omega, decide_true, Bool.true_and] at this
      simp [this, show i + (15 - l) < 15 by omega]
    · rw [Nat.testBit_lt_two_pow (hc.trans_le (Nat.pow_le_pow_right (by omega) (not_lt.1 hi)))]
      simp [show ¬ i + (15 - l) < 15 by omega]
  · rw [bitrev_testBit, Nat.testBit_mod_two_pow, ← h, Nat.testBit_div_two_pow, bitrev_testBit]
    by_cases hi : i < l
    · simp [hi, show l - 1 - i + (15 - l) < 15 by omega, show 15 - 1 - (l - 1 - i + (15 - l)) = i by omega]
    · simp [hi]

/-! ### The assignment loop -/

/-- What the lengths of a BUILD satisfy: every length is 1 to 15 (R132, R133). -/
def LengthsOk (ls : List (Nat × Nat)) : Prop := ∀ p ∈ ls, 1 ≤ p.2 ∧ p.2 ≤ 15

theorem lengthCount_pos {ls : List (Nat × Nat)} {l : Nat} (hl : l ≠ 0) :
    lengthCount ls l = ls.countP fun p => decide (p.2 = l) := by simp [lengthCount, hl]

section assign

variable {ls : List (Nat × Nat)} {next : List Nat}

/-- A code of length l comes from the counter of l, and is below the counter's final value. -/
theorem assignCodes_mem (hn : next.length = 16) (hl : ∀ p ∈ ls, p.2 ≤ 15) {c : Code} (h : c ∈ assignCodes ls next) :
    (c.sym, c.len) ∈ ls ∧ c.rev = bitrev c.code c.len ∧ next.getD c.len 0 ≤ c.code ∧
      c.code < next.getD c.len 0 + ls.countP fun p => decide (p.2 = c.len) := by
  induction ls generalizing next with
  | nil => simp [assignCodes] at h
  | cons p rest ih =>
    obtain ⟨s, l⟩ := p
    rcases List.mem_cons.1 h with rfl | h
    · simp
    · obtain ⟨h1, h2, h3, h4⟩ := ih (by simpa using hn) (fun p hp => hl p (List.mem_cons_of_mem _ hp)) h
      have hl15 := hl _ (List.mem_cons_self)
      dsimp only at hl15
      rw [List.getD_eq_getElem?_getD, List.getElem?_set] at h3 h4
      refine ⟨List.mem_cons_of_mem _ h1, h2, ?_, ?_⟩
      · by_cases e : l = c.len
        · simp [e, hn, show c.len < 16 by omega] at h3 ⊢; omega
        · simpa [e] using h3
      · rw [List.countP_cons]
        by_cases e : l = c.len
        · simp [e, hn, show c.len < 16 by omega] at h4 ⊢; omega
        · simpa [e] using h4

/-- Every present symbol gets a code of its length. -/
theorem exists_code_of_mem {s l : Nat} (h : (s, l) ∈ ls) : ∃ c ∈ assignCodes ls next, c.sym = s ∧ c.len = l := by
  induction ls generalizing next with
  | nil => simp at h
  | cons p rest ih =>
    rcases List.mem_cons.1 h with rfl | h
    · exact ⟨_, List.mem_cons_self, rfl, rfl⟩
    · obtain ⟨c, hc, hs⟩ := ih (next := next.set p.2 (next.getD p.2 0 + 1)) h
      exact ⟨c, List.mem_cons_of_mem _ hc, hs⟩

/-- Every value the counter of l takes is the code of some symbol. -/
theorem exists_code_of_rank (hn : next.length = 16) {l q : Nat} (hl : l ≤ 15)
    (hq : q < ls.countP fun p => decide (p.2 = l)) :
    ∃ c ∈ assignCodes ls next, c.len = l ∧ c.code = next.getD l 0 + q := by
  induction ls generalizing next q with
  | nil => simp at hq
  | cons p rest ih =>
    obtain ⟨s, m⟩ := p
    rw [List.countP_cons] at hq
    by_cases e : m = l
    · subst e
      cases q with
      | zero => exact ⟨_, List.mem_cons_self, rfl, rfl⟩
      | succ q =>
        obtain ⟨c, hc, h1, h2⟩ := ih (next := next.set m (next.getD m 0 + 1)) (by simpa using hn) (q := q)
          (by simpa using hq)
        refine ⟨c, List.mem_cons_of_mem _ hc, h1, ?_⟩
        rw [h2, List.getD_eq_getElem?_getD, List.getElem?_set]
        simp [hn, show m < 16 by omega]; omega
    · obtain ⟨c, hc, h1, h2⟩ := ih (next := next.set m (next.getD m 0 + 1)) (by simpa using hn) (q := q)
        (by simpa [e] using hq)
      refine ⟨c, List.mem_cons_of_mem _ hc, h1, ?_⟩
      rw [h2, List.getD_eq_getElem?_getD, List.getElem?_set]
      simp [e]

/-- The counter's value that a code took: the symbols of its length before it (R136). -/
theorem assignCodes_code_eq (hn : next.length = 16) (hl : ∀ p ∈ ls, p.2 ≤ 15)
    (hs : ls.Pairwise fun p q => p.1 < q.1) {c : Code} (h : c ∈ assignCodes ls next) :
    c.code = next.getD c.len 0 + ls.countP fun p => decide (p.2 = c.len ∧ p.1 < c.sym) := by
  induction ls generalizing next with
  | nil => simp [assignCodes] at h
  | cons p rest ih =>
    obtain ⟨s, l⟩ := p
    rw [List.pairwise_cons] at hs
    rcases List.mem_cons.1 h with rfl | h
    · dsimp only
      rw [(List.countP_eq_zero (l := (s, l) :: rest)).2]; rfl
      intro q hq
      rcases List.mem_cons.1 hq with rfl | hq
      · simp
      · have := hs.1 q hq; simp at this ⊢; omega
    · have hl' : ∀ p ∈ rest, p.2 ≤ 15 := fun p hp => hl p (List.mem_cons_of_mem _ hp)
      have hn' : (next.set l (next.getD l 0 + 1)).length = 16 := by simpa using hn
      have hlt : s < c.sym := hs.1 _ (assignCodes_mem hn' hl' h).1
      have hl15 := hl _ (List.mem_cons_self)
      dsimp only at hl15
      rw [ih hn' hl' hs.2 h, List.countP_cons, List.getD_eq_getElem?_getD, List.getElem?_set]
      by_cases e : l = c.len
      · subst e
        simp [hn, show c.len < 16 by omega, hlt]; omega
      · simp [e]

/-- Codes of one length are different numbers. -/
theorem assignCodes_inj (hn : next.length = 16) (hl : ∀ p ∈ ls, p.2 ≤ 15) {c d : Code}
    (hc : c ∈ assignCodes ls next) (hd : d ∈ assignCodes ls next) (h1 : c.len = d.len) (h2 : c.code = d.code) :
    c = d := by
  induction ls generalizing next with
  | nil => simp [assignCodes] at hc
  | cons p rest ih =>
    obtain ⟨s, l⟩ := p
    have hl15 : l ≤ 15 := hl _ List.mem_cons_self
    have hl' : ∀ p ∈ rest, p.2 ≤ 15 := fun p hp => hl p (List.mem_cons_of_mem _ hp)
    have hn' : (next.set l (next.getD l 0 + 1)).length = 16 := by simpa using hn
    have later : ∀ e ∈ assignCodes rest (next.set l (next.getD l 0 + 1)), e.len = l → next.getD l 0 < e.code := by
      intro e he hel
      have := (assignCodes_mem hn' hl' he).2.2.1
      rw [hel, List.getD_eq_getElem?_getD, List.getElem?_set] at this
      rw [if_pos rfl, if_pos (by omega)] at this
      exact this
    rcases List.mem_cons.1 hc with rfl | hc <;> rcases List.mem_cons.1 hd with rfl | hd
    · rfl
    · have := later d hd h1.symm; dsimp only at h2; omega
    · have := later c hc h1; dsimp only at h2; omega
    · exact ih hn' hl' hc hd

end assign

/-! ### Intervals of 15-bit strings -/

/-- The part of the Kraft sum that lengths below l make. -/
def kraftBelow (ls : List (Nat × Nat)) (l : Nat) : Nat := kraftSum (ls.filter fun p => decide (p.2 < l))

theorem kraftSum_cons (p : Nat × Nat) (ls : List (Nat × Nat)) : kraftSum (p :: ls) = 2 ^ (15 - p.2) + kraftSum ls := by
  simp [kraftSum]

theorem kraftBelow_succ (ls : List (Nat × Nat)) (l : Nat) :
    kraftBelow ls (l + 1) = kraftBelow ls l + (ls.countP fun p => decide (p.2 = l)) * 2 ^ (15 - l) := by
  induction ls with
  | nil => simp [kraftBelow, kraftSum]
  | cons p rest ih =>
    simp only [kraftBelow] at ih ⊢
    rw [List.countP_cons]
    rcases Nat.lt_trichotomy p.2 l with h | h | h
    · rw [List.filter_cons_of_pos (by simp; omega), List.filter_cons_of_pos (by simpa using h), kraftSum_cons,
        kraftSum_cons, ih]
      simp [show p.2 ≠ l by omega]; ring
    · rw [List.filter_cons_of_pos (by simp; omega), List.filter_cons_of_neg (by simp; omega), kraftSum_cons, ih]
      simp only [h, decide_true, if_true]; ring
    · rw [List.filter_cons_of_neg (by simp; omega), List.filter_cons_of_neg (by simp; omega), ih]
      simp [show p.2 ≠ l by omega]

theorem kraftBelow_mono (ls : List (Nat × Nat)) {l m : Nat} (h : l ≤ m) : kraftBelow ls l ≤ kraftBelow ls m := by
  induction m, h using Nat.le_induction with
  | base => exact le_refl _
  | succ m _ ih => rw [kraftBelow_succ]; omega

theorem kraftBelow_all {ls : List (Nat × Nat)} (h : LengthsOk ls) : kraftBelow ls 16 = kraftSum ls := by
  rw [kraftBelow, List.filter_eq_self.2]
  intro p hp; have := h p hp; simp; omega

theorem kraftBelow_congr {ls : List (Nat × Nat)} {a b : Nat} (h : ∀ p ∈ ls, p.2 < a ↔ p.2 < b) : kraftBelow ls a = kraftBelow ls b := by
  unfold kraftBelow
  rw [List.filter_congr fun p hp => decide_eq_decide.2 (h p hp)]

theorem kraftBelow_zero (ls : List (Nat × Nat)) : kraftBelow ls 0 = 0 := by
  simp [kraftBelow, kraftSum]

/-- The first code of a length starts where the shorter codes end (R136). -/
theorem firstCode_scaled {ls : List (Nat × Nat)} (h : LengthsOk ls) {l : Nat} (hl : l ≤ 15) :
    firstCode ls l * 2 ^ (15 - l) = kraftBelow ls l := by
  induction l with
  | zero => simp [firstCode, kraftBelow_zero]
  | succ l ih =>
    have hc : lengthCount ls l = ls.countP fun p => decide (p.2 = l) := by
      by_cases e : l = 0
      · subst e
        rw [lengthCount, if_pos rfl, eq_comm, List.countP_eq_zero]
        intro p hp; have := h p hp; simp; omega
      · exact lengthCount_pos e
    rw [kraftBelow_succ, ← ih (by omega), ← hc, firstCode, show 15 - l = 15 - (l + 1) + 1 by omega, Nat.pow_succ]
    ring

theorem nextTable_getD (ls : List (Nat × Nat)) {l : Nat} (hl : l ≤ 15) :
    ((List.range (maxCodeLength + 1)).map (firstCode ls)).getD l 0 = firstCode ls l := by
  simp [List.getD_eq_getElem?_getD, show l < 16 by omega]

section canonical

variable {ls : List (Nat × Nat)} {c d : Code}

theorem canonicalCodes_sym_len (h : LengthsOk ls) (hc : c ∈ canonicalCodes ls) :
    (c.sym, c.len) ∈ ls ∧ 1 ≤ c.len ∧ c.len ≤ 15 ∧ c.rev = bitrev c.code c.len := by
  obtain ⟨h1, h2, -⟩ := assignCodes_mem (by simp) (fun p hp => (h p hp).2) hc
  exact ⟨h1, (h _ h1).1, (h _ h1).2, h2⟩

/-- The interval of a code lies between the shorter codes' and the longer codes' intervals. -/
theorem canonicalCodes_interval (h : LengthsOk ls) (hc : c ∈ canonicalCodes ls) :
    kraftBelow ls c.len ≤ c.code * 2 ^ (15 - c.len) ∧ (c.code + 1) * 2 ^ (15 - c.len) ≤ kraftBelow ls (c.len + 1) := by
  obtain ⟨-, -, h3, h4⟩ := assignCodes_mem (by simp) (fun p hp => (h p hp).2) hc
  have hl := (canonicalCodes_sym_len h hc).2.2.1
  rw [nextTable_getD ls hl] at h3 h4
  rw [kraftBelow_succ, ← firstCode_scaled h hl]
  refine ⟨Nat.mul_le_mul_right _ h3, ?_⟩
  rw [← Nat.add_mul]
  exact Nat.mul_le_mul_right _ h4

/-- A code fits its length when the Kraft sum is at most one (R135, R136). -/
theorem canonicalCodes_code_lt (h : LengthsOk ls) (hk : kraftSum ls ≤ 2 ^ 15) (hc : c ∈ canonicalCodes ls) :
    c.code < 2 ^ c.len := by
  have hl := (canonicalCodes_sym_len h hc).2.2.1
  have h1 := (canonicalCodes_interval h hc).2
  have h2 := kraftBelow_mono ls (show c.len + 1 ≤ 16 by omega)
  rw [kraftBelow_all h] at h2
  have h3 : (c.code + 1) * 2 ^ (15 - c.len) ≤ 2 ^ c.len * 2 ^ (15 - c.len) := by
    rw [← Nat.pow_add, show c.len + (15 - c.len) = 15 by omega]; omega
  exact Nat.le_of_mul_le_mul_right h3 (Nat.two_pow_pos _)

/-- A 15-bit string with the code as its first bits lies in the code's interval. -/
theorem interval_of_div {y : Nat} (he : y / 2 ^ (15 - c.len) = c.code) :
    c.code * 2 ^ (15 - c.len) ≤ y ∧ y < (c.code + 1) * 2 ^ (15 - c.len) := by
  rw [← he]
  refine ⟨Nat.div_mul_le_self _ _, ?_⟩
  have := Nat.lt_mul_div_succ y (Nat.two_pow_pos (15 - c.len))
  rw [Nat.mul_comm]; exact this

/-- No string starts with two codes: the canonical code is prefix-free (R144). -/
theorem canonicalCodes_prefixFree (h : LengthsOk ls) (hk : kraftSum ls ≤ 2 ^ 15) (hc : c ∈ canonicalCodes ls)
    (hd : d ∈ canonicalCodes ls) {x : Nat} (h1 : x % 2 ^ c.len = c.rev) (h2 : x % 2 ^ d.len = d.rev) : c = d := by
  obtain ⟨-, -, lc, rc⟩ := canonicalCodes_sym_len h hc
  obtain ⟨-, -, ld, rd⟩ := canonicalCodes_sym_len h hd
  rw [rc, mod_eq_bitrev_iff lc (canonicalCodes_code_lt h hk hc)] at h1
  rw [rd, mod_eq_bitrev_iff ld (canonicalCodes_code_lt h hk hd)] at h2
  have ic := interval_of_div h1
  have id := interval_of_div h2
  have kc := canonicalCodes_interval h hc
  have kd := canonicalCodes_interval h hd
  rcases Nat.lt_trichotomy c.len d.len with hlt | heq | hlt
  · have := kraftBelow_mono ls (show c.len + 1 ≤ d.len from hlt); omega
  · exact assignCodes_inj (by simp) (fun p hp => (h p hp).2) hc hd heq (by rw [← h1, ← h2, heq])
  · have := kraftBelow_mono ls (show d.len + 1 ≤ c.len from hlt); omega

/-- Every string below the Kraft sum starts with a code (R145). -/
theorem exists_code_of_lt (h : LengthsOk ls) {y : Nat} (hy : y < kraftSum ls) :
    ∃ c ∈ canonicalCodes ls, y / 2 ^ (15 - c.len) = c.code := by
  rw [← kraftBelow_all h] at hy
  have key : ∀ l, l ≤ 16 → y < kraftBelow ls l → ∃ c ∈ canonicalCodes ls, y / 2 ^ (15 - c.len) = c.code := by
    intro l
    induction l with
    | zero => intro _ h0; rw [kraftBelow_zero] at h0; omega
    | succ l ih =>
      intro hl hlt
      by_cases hb : y < kraftBelow ls l
      · exact ih (by omega) hb
      · rw [kraftBelow_succ] at hlt
        have hpos := Nat.two_pow_pos (15 - l)
        obtain ⟨c, hc, e1, e2⟩ := exists_code_of_rank (next := (List.range (maxCodeLength + 1)).map (firstCode ls))
          (ls := ls) (by simp) (l := l) (q := (y - kraftBelow ls l) / 2 ^ (15 - l)) (by omega)
          (by rw [Nat.div_lt_iff_lt_mul hpos]; omega)
        refine ⟨c, hc, ?_⟩
        rw [nextTable_getD ls (by omega)] at e2
        rw [e1, e2]
        conv_lhs => rw [show y = (y - kraftBelow ls l) + kraftBelow ls l by omega,
          ← firstCode_scaled h (show l ≤ 15 by omega), Nat.add_mul_div_right _ _ hpos]
        rw [firstCode_scaled h (show l ≤ 15 by omega)]
        omega
  exact key 16 (le_refl _) hy

/-- In a complete code every stream value starts with the reversal of a code (R145 (a)). -/
theorem exists_code_of_complete (h : LengthsOk ls) (hk : kraftSum ls = 2 ^ 15) (x : Nat) :
    ∃ c ∈ canonicalCodes ls, x % 2 ^ c.len = c.rev := by
  obtain ⟨c, hc, e⟩ := exists_code_of_lt h (y := bitrev x 15) (by rw [hk]; exact bitrev_lt x 15)
  obtain ⟨-, -, hl, hr⟩ := canonicalCodes_sym_len h hc
  exact ⟨c, hc, by rw [hr, mod_eq_bitrev_iff hl (canonicalCodes_code_lt h hk.le hc)]; exact e⟩

theorem exists_code (s l : Nat) (h : (s, l) ∈ ls) : ∃ c ∈ canonicalCodes ls, c.sym = s ∧ c.len = l :=
  exists_code_of_mem h

end canonical

/-! ### The lengths a BUILD sees -/

theorem mem_presentLengths {m : CodeLengths} {n s l : Nat} :
    (s, l) ∈ presentLengths m n ↔ s < n ∧ clRead m s ≠ 0 ∧ l = (clRead m s).toNat := by
  simp only [presentLengths, List.mem_filterMap, List.mem_range]
  constructor
  · rintro ⟨a, ha, h⟩
    split at h
    · simp at h
    · obtain ⟨rfl, rfl⟩ := Prod.mk.inj (Option.some.inj h)
      exact ⟨ha, by assumption, rfl⟩
  · rintro ⟨h1, h2, rfl⟩
    exact ⟨s, h1, if_neg h2⟩

/-- The present symbols come in increasing order (R136). -/
theorem presentLengths_sorted (m : CodeLengths) (n : Nat) : (presentLengths m n).Pairwise fun p q => p.1 < q.1 := by
  rw [presentLengths, List.pairwise_filterMap]
  refine List.pairwise_lt_range.imp ?_
  intro a b hab p hp q hq
  split at hp <;> simp at hp
  split at hq <;> simp at hq
  subst hp hq; exact hab

/-- One more symbol of a length at a symbol of that length. -/
theorem countP_le_eq {ls : List (Nat × Nat)} (hs : ls.Pairwise fun p q => p.1 < q.1) {s l : Nat} (h : (s, l) ∈ ls) :
    (ls.countP fun p => decide (p.2 = l ∧ p.1 ≤ s)) = (ls.countP fun p => decide (p.2 = l ∧ p.1 < s)) + 1 := by
  induction ls with
  | nil => simp at h
  | cons p rest ih =>
    rw [List.pairwise_cons] at hs
    rw [List.countP_cons, List.countP_cons]
    rcases List.mem_cons.1 h with rfl | h
    · rw [List.countP_eq_zero.2 fun q hq => ?_, List.countP_eq_zero.2 fun q hq => ?_]
      · simp
      · have := hs.1 q hq; dsimp only at this; simp; omega
      · have := hs.1 q hq; dsimp only at this; simp; omega
    · have := hs.1 _ h
      rw [ih hs.2 h]
      simp [this, this.le]; omega

/-- The lengths a BUILD sees are 1 to 15 (R132, R133). -/
theorem presentLengths_ok (m : CodeLengths) (n : Nat) : LengthsOk (presentLengths m n) := by
  rintro ⟨s, l⟩ hp
  obtain ⟨-, h, rfl⟩ := mem_presentLengths.1 hp
  have := (clRead m s).isLt
  refine ⟨?_, by dsimp only; omega⟩
  rcases Nat.eq_zero_or_pos (clRead m s).toNat with h0 | h0
  · exact absurd (BitVec.eq_of_toNat_eq (by simpa using h0)) h
  · exact h0

theorem presentLengths_lt {m : CodeLengths} {n : Nat} {p : Nat × Nat} (h : p ∈ presentLengths m n) : p.1 < n :=
  (mem_presentLengths.1 (show (p.1, p.2) ∈ _ from h)).1

/-- The table a BUILD makes depends on CLMEM only below its count (R132, R122). -/
theorem presentLengths_congr {m m' : CodeLengths} {n : Nat} (h : ∀ s, s < n → clRead m s = clRead m' s) :
    presentLengths m n = presentLengths m' n := by
  unfold presentLengths
  refine List.filterMap_congr fun s hs => ?_
  rw [h s (List.mem_range.1 hs)]

/-- Two present symbols make two lengths or more (R135). -/
theorem two_le_presentLengths {m : CodeLengths} {n a b : Nat} (hab : a < b) (hb : b < n)
    (h1 : clRead m a ≠ 0) (h2 : clRead m b ≠ 0) :
    2 ≤ (presentLengths m n).length := by
  have h1 := mem_presentLengths.2 ⟨hab.trans hb, h1, rfl⟩
  have h2 := mem_presentLengths.2 ⟨hb, h2, rfl⟩
  match e : presentLengths m n with
  | [] => rw [e] at h1; simp at h1
  | [x] => rw [e] at h1 h2; simp at h1 h2; rw [← h1] at h2; simp at h2; omega
  | _ :: _ :: _ => simp

end Sys2Proof.Machine
end

