-- ==== Sys2Proof/Laws/State.lean ====
section
/-! SUPPORT. One lemma for each field of State and each named update of it. -/

namespace Sys2Proof.Machine

/-! #### finish -/

@[simp] theorem finish_config (v : Word) (e : ErrorCode) (s : State) : (finish v e s).config = s.config := rfl
@[simp] theorem finish_result (v : Word) (e : ErrorCode) (s : State) : (finish v e s).result = v := rfl
@[simp] theorem finish_lastErr (v : Word) (e : ErrorCode) (s : State) : (finish v e s).lastErr = e := rfl
@[simp] theorem finish_sfail (v : Word) (e : ErrorCode) (s : State) : (finish v e s).sfail = s.sfail := rfl
@[simp] theorem finish_seenEos (v : Word) (e : ErrorCode) (s : State) : (finish v e s).seenEos = s.seenEos := rfl
@[simp] theorem finish_seenInvalid (v : Word) (e : ErrorCode) (s : State) : (finish v e s).seenInvalid = s.seenInvalid := rfl
@[simp] theorem finish_pos (v : Word) (e : ErrorCode) (s : State) : (finish v e s).pos = s.pos := rfl
@[simp] theorem finish_len (v : Word) (e : ErrorCode) (s : State) : (finish v e s).len = s.len := rfl
@[simp] theorem finish_slots (v : Word) (e : ErrorCode) (s : State) : (finish v e s).slots = s.slots := rfl
@[simp] theorem finish_clmem (v : Word) (e : ErrorCode) (s : State) : (finish v e s).clmem = s.clmem := rfl
@[simp] theorem finish_stream (v : Word) (e : ErrorCode) (s : State) : (finish v e s).stream = s.stream := rfl
@[simp] theorem finish_stale (v : Word) (e : ErrorCode) (s : State) : (finish v e s).stale = s.stale := rfl
@[simp] theorem finish_cur (v : Word) (e : ErrorCode) (s : State) : (finish v e s).cur = s.cur := rfl
@[simp] theorem finish_sr (v : Word) (e : ErrorCode) (s : State) : (finish v e s).sr = s.sr := rfl
@[simp] theorem finish_faulted (v : Word) (e : ErrorCode) (s : State) : (finish v e s).faulted = s.faulted := rfl
@[simp] theorem finish_refused (v : Word) (e : ErrorCode) (s : State) : (finish v e s).refused = s.refused := rfl
@[simp] theorem finish_events (v : Word) (e : ErrorCode) (s : State) : (finish v e s).events = s.events := rfl
@[simp] theorem finish_readData (v : Word) (e : ErrorCode) (s : State) : (finish v e s).readData = s.readData := rfl

/-! #### setSticky -/

@[simp] theorem setSticky_config (e : ErrorCode) (s : State) : (setSticky e s).config = s.config := by cases e <;> rfl
@[simp] theorem setSticky_result (e : ErrorCode) (s : State) : (setSticky e s).result = s.result := by cases e <;> rfl
@[simp] theorem setSticky_lastErr (e : ErrorCode) (s : State) : (setSticky e s).lastErr = s.lastErr := by cases e <;> rfl
@[simp] theorem setSticky_pos (e : ErrorCode) (s : State) : (setSticky e s).pos = s.pos := by cases e <;> rfl
@[simp] theorem setSticky_len (e : ErrorCode) (s : State) : (setSticky e s).len = s.len := by cases e <;> rfl
@[simp] theorem setSticky_slots (e : ErrorCode) (s : State) : (setSticky e s).slots = s.slots := by cases e <;> rfl
@[simp] theorem setSticky_clmem (e : ErrorCode) (s : State) : (setSticky e s).clmem = s.clmem := by cases e <;> rfl
@[simp] theorem setSticky_stream (e : ErrorCode) (s : State) : (setSticky e s).stream = s.stream := by cases e <;> rfl
@[simp] theorem setSticky_stale (e : ErrorCode) (s : State) : (setSticky e s).stale = s.stale := by cases e <;> rfl
@[simp] theorem setSticky_cur (e : ErrorCode) (s : State) : (setSticky e s).cur = s.cur := by cases e <;> rfl
@[simp] theorem setSticky_sr (e : ErrorCode) (s : State) : (setSticky e s).sr = s.sr := by cases e <;> rfl
@[simp] theorem setSticky_faulted (e : ErrorCode) (s : State) : (setSticky e s).faulted = s.faulted := by cases e <;> rfl
@[simp] theorem setSticky_refused (e : ErrorCode) (s : State) : (setSticky e s).refused = s.refused := by cases e <;> rfl
@[simp] theorem setSticky_events (e : ErrorCode) (s : State) : (setSticky e s).events = s.events := by cases e <;> rfl
@[simp] theorem setSticky_readData (e : ErrorCode) (s : State) : (setSticky e s).readData = s.readData := by cases e <;> rfl

/-! #### raise -/

@[simp] theorem raise_config (e : ErrorCode) (s : State) : (raise e s).config = s.config := by cases e <;> rfl
@[simp] theorem raise_result (e : ErrorCode) (s : State) : (raise e s).result = -1 := by cases e <;> rfl
@[simp] theorem raise_lastErr (e : ErrorCode) (s : State) : (raise e s).lastErr = e := by cases e <;> rfl
@[simp] theorem raise_pos (e : ErrorCode) (s : State) : (raise e s).pos = s.pos := by cases e <;> rfl
@[simp] theorem raise_len (e : ErrorCode) (s : State) : (raise e s).len = s.len := by cases e <;> rfl
@[simp] theorem raise_slots (e : ErrorCode) (s : State) : (raise e s).slots = s.slots := by cases e <;> rfl
@[simp] theorem raise_clmem (e : ErrorCode) (s : State) : (raise e s).clmem = s.clmem := by cases e <;> rfl
@[simp] theorem raise_stream (e : ErrorCode) (s : State) : (raise e s).stream = s.stream := by cases e <;> rfl
@[simp] theorem raise_stale (e : ErrorCode) (s : State) : (raise e s).stale = s.stale := by cases e <;> rfl
@[simp] theorem raise_cur (e : ErrorCode) (s : State) : (raise e s).cur = s.cur := by cases e <;> rfl
@[simp] theorem raise_sr (e : ErrorCode) (s : State) : (raise e s).sr = s.sr := by cases e <;> rfl
@[simp] theorem raise_faulted (e : ErrorCode) (s : State) : (raise e s).faulted = s.faulted := by cases e <;> rfl
@[simp] theorem raise_refused (e : ErrorCode) (s : State) : (raise e s).refused = s.refused := by cases e <;> rfl
@[simp] theorem raise_events (e : ErrorCode) (s : State) : (raise e s).events = s.events := by cases e <;> rfl
@[simp] theorem raise_readData (e : ErrorCode) (s : State) : (raise e s).readData = s.readData := by cases e <;> rfl

/-! #### clearSticky -/

@[simp] theorem clearSticky_config (s : State) : (clearSticky s).config = s.config := rfl
@[simp] theorem clearSticky_result (s : State) : (clearSticky s).result = s.result := rfl
@[simp] theorem clearSticky_lastErr (s : State) : (clearSticky s).lastErr = s.lastErr := rfl
@[simp] theorem clearSticky_sfail (s : State) : (clearSticky s).sfail = false := rfl
@[simp] theorem clearSticky_seenEos (s : State) : (clearSticky s).seenEos = false := rfl
@[simp] theorem clearSticky_seenInvalid (s : State) : (clearSticky s).seenInvalid = false := rfl
@[simp] theorem clearSticky_pos (s : State) : (clearSticky s).pos = s.pos := rfl
@[simp] theorem clearSticky_len (s : State) : (clearSticky s).len = s.len := rfl
@[simp] theorem clearSticky_slots (s : State) : (clearSticky s).slots = s.slots := rfl
@[simp] theorem clearSticky_clmem (s : State) : (clearSticky s).clmem = s.clmem := rfl
@[simp] theorem clearSticky_stream (s : State) : (clearSticky s).stream = s.stream := rfl
@[simp] theorem clearSticky_stale (s : State) : (clearSticky s).stale = s.stale := rfl
@[simp] theorem clearSticky_cur (s : State) : (clearSticky s).cur = s.cur := rfl
@[simp] theorem clearSticky_sr (s : State) : (clearSticky s).sr = s.sr := rfl
@[simp] theorem clearSticky_faulted (s : State) : (clearSticky s).faulted = s.faulted := rfl
@[simp] theorem clearSticky_refused (s : State) : (clearSticky s).refused = s.refused := rfl
@[simp] theorem clearSticky_events (s : State) : (clearSticky s).events = s.events := rfl
@[simp] theorem clearSticky_readData (s : State) : (clearSticky s).readData = s.readData := rfl

/-! #### startStream -/

@[simp] theorem startStream_config (len : BitVec 28) (s : State) : (startStream len s).config = s.config := rfl
@[simp] theorem startStream_result (len : BitVec 28) (s : State) : (startStream len s).result = s.result := rfl
@[simp] theorem startStream_lastErr (len : BitVec 28) (s : State) : (startStream len s).lastErr = s.lastErr := rfl
@[simp] theorem startStream_sfail (len : BitVec 28) (s : State) : (startStream len s).sfail = s.sfail := rfl
@[simp] theorem startStream_seenEos (len : BitVec 28) (s : State) : (startStream len s).seenEos = s.seenEos := rfl
@[simp] theorem startStream_seenInvalid (len : BitVec 28) (s : State) : (startStream len s).seenInvalid = s.seenInvalid := rfl
@[simp] theorem startStream_pos (len : BitVec 28) (s : State) : (startStream len s).pos = 0 := rfl
@[simp] theorem startStream_len (len : BitVec 28) (s : State) : (startStream len s).len = len := rfl
@[simp] theorem startStream_slots (len : BitVec 28) (s : State) : (startStream len s).slots = s.slots := rfl
@[simp] theorem startStream_clmem (len : BitVec 28) (s : State) : (startStream len s).clmem = s.clmem := rfl
@[simp] theorem startStream_stream (len : BitVec 28) (s : State) : (startStream len s).stream = s.stream := rfl
@[simp] theorem startStream_stale (len : BitVec 28) (s : State) : (startStream len s).stale = [] := rfl
@[simp] theorem startStream_cur (len : BitVec 28) (s : State) : (startStream len s).cur = 0 := rfl
@[simp] theorem startStream_sr (len : BitVec 28) (s : State) : (startStream len s).sr = [] := rfl
@[simp] theorem startStream_faulted (len : BitVec 28) (s : State) : (startStream len s).faulted = s.faulted := rfl
@[simp] theorem startStream_refused (len : BitVec 28) (s : State) : (startStream len s).refused = s.refused := rfl
@[simp] theorem startStream_events (len : BitVec 28) (s : State) : (startStream len s).events = s.events := rfl
@[simp] theorem startStream_readData (len : BitVec 28) (s : State) : (startStream len s).readData = s.readData := rfl

/-! #### setSlot -/

@[simp] theorem setSlot_config (s : State) (t : Nat) (v : Slot) : (setSlot s t v).config = s.config := rfl
@[simp] theorem setSlot_result (s : State) (t : Nat) (v : Slot) : (setSlot s t v).result = s.result := rfl
@[simp] theorem setSlot_lastErr (s : State) (t : Nat) (v : Slot) : (setSlot s t v).lastErr = s.lastErr := rfl
@[simp] theorem setSlot_sfail (s : State) (t : Nat) (v : Slot) : (setSlot s t v).sfail = s.sfail := rfl
@[simp] theorem setSlot_seenEos (s : State) (t : Nat) (v : Slot) : (setSlot s t v).seenEos = s.seenEos := rfl
@[simp] theorem setSlot_seenInvalid (s : State) (t : Nat) (v : Slot) : (setSlot s t v).seenInvalid = s.seenInvalid := rfl
@[simp] theorem setSlot_pos (s : State) (t : Nat) (v : Slot) : (setSlot s t v).pos = s.pos := rfl
@[simp] theorem setSlot_len (s : State) (t : Nat) (v : Slot) : (setSlot s t v).len = s.len := rfl
@[simp] theorem setSlot_slots (s : State) (t : Nat) (v : Slot) : (setSlot s t v).slots = s.slots.set t v := rfl
@[simp] theorem setSlot_clmem (s : State) (t : Nat) (v : Slot) : (setSlot s t v).clmem = s.clmem := rfl
@[simp] theorem setSlot_stream (s : State) (t : Nat) (v : Slot) : (setSlot s t v).stream = s.stream := rfl
@[simp] theorem setSlot_stale (s : State) (t : Nat) (v : Slot) : (setSlot s t v).stale = s.stale := rfl
@[simp] theorem setSlot_cur (s : State) (t : Nat) (v : Slot) : (setSlot s t v).cur = s.cur := rfl
@[simp] theorem setSlot_sr (s : State) (t : Nat) (v : Slot) : (setSlot s t v).sr = s.sr := rfl
@[simp] theorem setSlot_faulted (s : State) (t : Nat) (v : Slot) : (setSlot s t v).faulted = s.faulted := rfl
@[simp] theorem setSlot_refused (s : State) (t : Nat) (v : Slot) : (setSlot s t v).refused = s.refused := rfl
@[simp] theorem setSlot_events (s : State) (t : Nat) (v : Slot) : (setSlot s t v).events = s.events := rfl
@[simp] theorem setSlot_readData (s : State) (t : Nat) (v : Slot) : (setSlot s t v).readData = s.readData := rfl

/-! #### invalidateSlot -/

@[simp] theorem invalidateSlot_config (s : State) (t : Nat) : (invalidateSlot s t).config = s.config := rfl
@[simp] theorem invalidateSlot_result (s : State) (t : Nat) : (invalidateSlot s t).result = s.result := rfl
@[simp] theorem invalidateSlot_lastErr (s : State) (t : Nat) : (invalidateSlot s t).lastErr = s.lastErr := rfl
@[simp] theorem invalidateSlot_sfail (s : State) (t : Nat) : (invalidateSlot s t).sfail = s.sfail := rfl
@[simp] theorem invalidateSlot_seenEos (s : State) (t : Nat) : (invalidateSlot s t).seenEos = s.seenEos := rfl
@[simp] theorem invalidateSlot_seenInvalid (s : State) (t : Nat) : (invalidateSlot s t).seenInvalid = s.seenInvalid := rfl
@[simp] theorem invalidateSlot_pos (s : State) (t : Nat) : (invalidateSlot s t).pos = s.pos := rfl
@[simp] theorem invalidateSlot_len (s : State) (t : Nat) : (invalidateSlot s t).len = s.len := rfl
@[simp] theorem invalidateSlot_slots (s : State) (t : Nat) : (invalidateSlot s t).slots = s.slots.set t { slotAt s t with valid := false } := rfl
@[simp] theorem invalidateSlot_clmem (s : State) (t : Nat) : (invalidateSlot s t).clmem = s.clmem := rfl
@[simp] theorem invalidateSlot_stream (s : State) (t : Nat) : (invalidateSlot s t).stream = s.stream := rfl
@[simp] theorem invalidateSlot_stale (s : State) (t : Nat) : (invalidateSlot s t).stale = s.stale := rfl
@[simp] theorem invalidateSlot_cur (s : State) (t : Nat) : (invalidateSlot s t).cur = s.cur := rfl
@[simp] theorem invalidateSlot_sr (s : State) (t : Nat) : (invalidateSlot s t).sr = s.sr := rfl
@[simp] theorem invalidateSlot_faulted (s : State) (t : Nat) : (invalidateSlot s t).faulted = s.faulted := rfl
@[simp] theorem invalidateSlot_refused (s : State) (t : Nat) : (invalidateSlot s t).refused = s.refused := rfl
@[simp] theorem invalidateSlot_events (s : State) (t : Nat) : (invalidateSlot s t).events = s.events := rfl
@[simp] theorem invalidateSlot_readData (s : State) (t : Nat) : (invalidateSlot s t).readData = s.readData := rfl

/-! #### installTable -/

@[simp] theorem installTable_config (s : State) (t : Nat) (tbl : Table) : (installTable s t tbl).config = s.config := rfl
@[simp] theorem installTable_result (s : State) (t : Nat) (tbl : Table) : (installTable s t tbl).result = s.result := rfl
@[simp] theorem installTable_lastErr (s : State) (t : Nat) (tbl : Table) : (installTable s t tbl).lastErr = s.lastErr := rfl
@[simp] theorem installTable_sfail (s : State) (t : Nat) (tbl : Table) : (installTable s t tbl).sfail = s.sfail := rfl
@[simp] theorem installTable_seenEos (s : State) (t : Nat) (tbl : Table) : (installTable s t tbl).seenEos = s.seenEos := rfl
@[simp] theorem installTable_seenInvalid (s : State) (t : Nat) (tbl : Table) : (installTable s t tbl).seenInvalid = s.seenInvalid := rfl
@[simp] theorem installTable_pos (s : State) (t : Nat) (tbl : Table) : (installTable s t tbl).pos = s.pos := rfl
@[simp] theorem installTable_len (s : State) (t : Nat) (tbl : Table) : (installTable s t tbl).len = s.len := rfl
@[simp] theorem installTable_slots (s : State) (t : Nat) (tbl : Table) : (installTable s t tbl).slots = s.slots.set t { valid := true, table := tbl } := rfl
@[simp] theorem installTable_clmem (s : State) (t : Nat) (tbl : Table) : (installTable s t tbl).clmem = s.clmem := rfl
@[simp] theorem installTable_stream (s : State) (t : Nat) (tbl : Table) : (installTable s t tbl).stream = s.stream := rfl
@[simp] theorem installTable_stale (s : State) (t : Nat) (tbl : Table) : (installTable s t tbl).stale = s.stale := rfl
@[simp] theorem installTable_cur (s : State) (t : Nat) (tbl : Table) : (installTable s t tbl).cur = s.cur := rfl
@[simp] theorem installTable_sr (s : State) (t : Nat) (tbl : Table) : (installTable s t tbl).sr = s.sr := rfl
@[simp] theorem installTable_faulted (s : State) (t : Nat) (tbl : Table) : (installTable s t tbl).faulted = s.faulted := rfl
@[simp] theorem installTable_refused (s : State) (t : Nat) (tbl : Table) : (installTable s t tbl).refused = s.refused := rfl
@[simp] theorem installTable_events (s : State) (t : Nat) (tbl : Table) : (installTable s t tbl).events = s.events := rfl
@[simp] theorem installTable_readData (s : State) (t : Nat) (tbl : Table) : (installTable s t tbl).readData = s.readData := rfl

/-! #### resetBlock -/

@[simp] theorem resetBlock_config (s : State) : (resetBlock s).config = s.config := rfl
@[simp] theorem resetBlock_result (s : State) : (resetBlock s).result = 0 := rfl
@[simp] theorem resetBlock_lastErr (s : State) : (resetBlock s).lastErr = .ok := rfl
@[simp] theorem resetBlock_sfail (s : State) : (resetBlock s).sfail = false := rfl
@[simp] theorem resetBlock_seenEos (s : State) : (resetBlock s).seenEos = false := rfl
@[simp] theorem resetBlock_seenInvalid (s : State) : (resetBlock s).seenInvalid = false := rfl
@[simp] theorem resetBlock_pos (s : State) : (resetBlock s).pos = 0 := rfl
@[simp] theorem resetBlock_len (s : State) : (resetBlock s).len = 0 := rfl
@[simp] theorem resetBlock_slots (s : State) : (resetBlock s).slots = List.replicate s.config.numSlots Slot.reset := rfl
@[simp] theorem resetBlock_clmem (s : State) : (resetBlock s).clmem = [] := rfl
@[simp] theorem resetBlock_stream (s : State) : (resetBlock s).stream = [] := rfl
@[simp] theorem resetBlock_stale (s : State) : (resetBlock s).stale = [] := rfl
@[simp] theorem resetBlock_cur (s : State) : (resetBlock s).cur = 0 := rfl
@[simp] theorem resetBlock_sr (s : State) : (resetBlock s).sr = [] := rfl
@[simp] theorem resetBlock_faulted (s : State) : (resetBlock s).faulted = s.faulted := rfl
@[simp] theorem resetBlock_refused (s : State) : (resetBlock s).refused = s.refused := rfl
@[simp] theorem resetBlock_events (s : State) : (resetBlock s).events = s.events := rfl
@[simp] theorem resetBlock_readData (s : State) : (resetBlock s).readData = s.readData := rfl

/-! #### withEvents -/

@[simp] theorem withEvents_config (s : State) (es : List Event) : (s.withEvents es).config = s.config := rfl
@[simp] theorem withEvents_result (s : State) (es : List Event) : (s.withEvents es).result = s.result := rfl
@[simp] theorem withEvents_lastErr (s : State) (es : List Event) : (s.withEvents es).lastErr = s.lastErr := rfl
@[simp] theorem withEvents_sfail (s : State) (es : List Event) : (s.withEvents es).sfail = s.sfail := rfl
@[simp] theorem withEvents_seenEos (s : State) (es : List Event) : (s.withEvents es).seenEos = s.seenEos := rfl
@[simp] theorem withEvents_seenInvalid (s : State) (es : List Event) : (s.withEvents es).seenInvalid = s.seenInvalid := rfl
@[simp] theorem withEvents_pos (s : State) (es : List Event) : (s.withEvents es).pos = s.pos := rfl
@[simp] theorem withEvents_len (s : State) (es : List Event) : (s.withEvents es).len = s.len := rfl
@[simp] theorem withEvents_slots (s : State) (es : List Event) : (s.withEvents es).slots = s.slots := rfl
@[simp] theorem withEvents_clmem (s : State) (es : List Event) : (s.withEvents es).clmem = s.clmem := rfl
@[simp] theorem withEvents_stream (s : State) (es : List Event) : (s.withEvents es).stream = s.stream := rfl
@[simp] theorem withEvents_stale (s : State) (es : List Event) : (s.withEvents es).stale = s.stale := rfl
@[simp] theorem withEvents_cur (s : State) (es : List Event) : (s.withEvents es).cur = s.cur := rfl
@[simp] theorem withEvents_sr (s : State) (es : List Event) : (s.withEvents es).sr = s.sr := rfl
@[simp] theorem withEvents_faulted (s : State) (es : List Event) : (s.withEvents es).faulted = s.faulted := rfl
@[simp] theorem withEvents_refused (s : State) (es : List Event) : (s.withEvents es).refused = s.refused := rfl
@[simp] theorem withEvents_events (s : State) (es : List Event) : (s.withEvents es).events = es := rfl
@[simp] theorem withEvents_readData (s : State) (es : List Event) : (s.withEvents es).readData = s.readData := rfl

/-! #### loadByte -/

@[simp] theorem loadByte_config (s : State) : (loadByte s).config = s.config := by unfold loadByte; split <;> rfl
@[simp] theorem loadByte_result (s : State) : (loadByte s).result = s.result := by unfold loadByte; split <;> rfl
@[simp] theorem loadByte_lastErr (s : State) : (loadByte s).lastErr = s.lastErr := by unfold loadByte; split <;> rfl
@[simp] theorem loadByte_sfail (s : State) : (loadByte s).sfail = s.sfail := by unfold loadByte; split <;> rfl
@[simp] theorem loadByte_seenEos (s : State) : (loadByte s).seenEos = s.seenEos := by unfold loadByte; split <;> rfl
@[simp] theorem loadByte_seenInvalid (s : State) : (loadByte s).seenInvalid = s.seenInvalid := by unfold loadByte; split <;> rfl
@[simp] theorem loadByte_pos (s : State) : (loadByte s).pos = s.pos := by unfold loadByte; split <;> rfl
@[simp] theorem loadByte_len (s : State) : (loadByte s).len = s.len := by unfold loadByte; split <;> rfl
@[simp] theorem loadByte_slots (s : State) : (loadByte s).slots = s.slots := by unfold loadByte; split <;> rfl
@[simp] theorem loadByte_clmem (s : State) : (loadByte s).clmem = s.clmem := by unfold loadByte; split <;> rfl
@[simp] theorem loadByte_stream (s : State) : (loadByte s).stream = s.stream := by unfold loadByte; split <;> rfl
@[simp] theorem loadByte_stale (s : State) : (loadByte s).stale = s.stale := by unfold loadByte; split <;> rfl
@[simp] theorem loadByte_faulted (s : State) : (loadByte s).faulted = s.faulted := by unfold loadByte; split <;> rfl
@[simp] theorem loadByte_refused (s : State) : (loadByte s).refused = s.refused := by unfold loadByte; split <;> rfl
@[simp] theorem loadByte_events (s : State) : (loadByte s).events = s.events := by unfold loadByte; split <;> rfl
@[simp] theorem loadByte_readData (s : State) : (loadByte s).readData = s.readData := by unfold loadByte; split <;> rfl

/-! #### refill -/

@[simp] theorem refill_config (s : State) (k : Nat) : (refill s k).config = s.config := by induction k generalizing s <;> simp_all [refill]
@[simp] theorem refill_result (s : State) (k : Nat) : (refill s k).result = s.result := by induction k generalizing s <;> simp_all [refill]
@[simp] theorem refill_lastErr (s : State) (k : Nat) : (refill s k).lastErr = s.lastErr := by induction k generalizing s <;> simp_all [refill]
@[simp] theorem refill_sfail (s : State) (k : Nat) : (refill s k).sfail = s.sfail := by induction k generalizing s <;> simp_all [refill]
@[simp] theorem refill_seenEos (s : State) (k : Nat) : (refill s k).seenEos = s.seenEos := by induction k generalizing s <;> simp_all [refill]
@[simp] theorem refill_seenInvalid (s : State) (k : Nat) : (refill s k).seenInvalid = s.seenInvalid := by induction k generalizing s <;> simp_all [refill]
@[simp] theorem refill_pos (s : State) (k : Nat) : (refill s k).pos = s.pos := by induction k generalizing s <;> simp_all [refill]
@[simp] theorem refill_len (s : State) (k : Nat) : (refill s k).len = s.len := by induction k generalizing s <;> simp_all [refill]
@[simp] theorem refill_slots (s : State) (k : Nat) : (refill s k).slots = s.slots := by induction k generalizing s <;> simp_all [refill]
@[simp] theorem refill_clmem (s : State) (k : Nat) : (refill s k).clmem = s.clmem := by induction k generalizing s <;> simp_all [refill]
@[simp] theorem refill_stream (s : State) (k : Nat) : (refill s k).stream = s.stream := by induction k generalizing s <;> simp_all [refill]
@[simp] theorem refill_stale (s : State) (k : Nat) : (refill s k).stale = s.stale := by induction k generalizing s <;> simp_all [refill]
@[simp] theorem refill_faulted (s : State) (k : Nat) : (refill s k).faulted = s.faulted := by induction k generalizing s <;> simp_all [refill]
@[simp] theorem refill_refused (s : State) (k : Nat) : (refill s k).refused = s.refused := by induction k generalizing s <;> simp_all [refill]
@[simp] theorem refill_events (s : State) (k : Nat) : (refill s k).events = s.events := by induction k generalizing s <;> simp_all [refill]
@[simp] theorem refill_readData (s : State) (k : Nat) : (refill s k).readData = s.readData := by induction k generalizing s <;> simp_all [refill]

/-! #### consume -/

@[simp] theorem consume_config (n : Nat) (s : State) : (consume n s).config = s.config := by simp [consume]
@[simp] theorem consume_result (n : Nat) (s : State) : (consume n s).result = s.result := by simp [consume]
@[simp] theorem consume_lastErr (n : Nat) (s : State) : (consume n s).lastErr = s.lastErr := by simp [consume]
@[simp] theorem consume_sfail (n : Nat) (s : State) : (consume n s).sfail = s.sfail := by simp [consume]
@[simp] theorem consume_seenEos (n : Nat) (s : State) : (consume n s).seenEos = s.seenEos := by simp [consume]
@[simp] theorem consume_seenInvalid (n : Nat) (s : State) : (consume n s).seenInvalid = s.seenInvalid := by simp [consume]
@[simp] theorem consume_pos (n : Nat) (s : State) : (consume n s).pos = s.pos + BitVec.ofNat 32 n := by simp [consume]
@[simp] theorem consume_len (n : Nat) (s : State) : (consume n s).len = s.len := by simp [consume]
@[simp] theorem consume_slots (n : Nat) (s : State) : (consume n s).slots = s.slots := by simp [consume]
@[simp] theorem consume_clmem (n : Nat) (s : State) : (consume n s).clmem = s.clmem := by simp [consume]
@[simp] theorem consume_stream (n : Nat) (s : State) : (consume n s).stream = s.stream := by simp [consume]
@[simp] theorem consume_stale (n : Nat) (s : State) : (consume n s).stale = s.stale := by simp [consume]
@[simp] theorem consume_faulted (n : Nat) (s : State) : (consume n s).faulted = s.faulted := by simp [consume]
@[simp] theorem consume_refused (n : Nat) (s : State) : (consume n s).refused = s.refused := by simp [consume]
@[simp] theorem consume_events (n : Nat) (s : State) : (consume n s).events = s.events := by simp [consume]
@[simp] theorem consume_readData (n : Nat) (s : State) : (consume n s).readData = s.readData := by simp [consume]

/-! #### writeStreamByte -/

@[simp] theorem writeStreamByte_config (s : State) (i : Nat) (b : Byte) : (writeStreamByte s i b).config = s.config := by unfold writeStreamByte; split <;> rfl
@[simp] theorem writeStreamByte_result (s : State) (i : Nat) (b : Byte) : (writeStreamByte s i b).result = s.result := by unfold writeStreamByte; split <;> rfl
@[simp] theorem writeStreamByte_lastErr (s : State) (i : Nat) (b : Byte) : (writeStreamByte s i b).lastErr = s.lastErr := by unfold writeStreamByte; split <;> rfl
@[simp] theorem writeStreamByte_sfail (s : State) (i : Nat) (b : Byte) : (writeStreamByte s i b).sfail = s.sfail := by unfold writeStreamByte; split <;> rfl
@[simp] theorem writeStreamByte_seenEos (s : State) (i : Nat) (b : Byte) : (writeStreamByte s i b).seenEos = s.seenEos := by unfold writeStreamByte; split <;> rfl
@[simp] theorem writeStreamByte_seenInvalid (s : State) (i : Nat) (b : Byte) : (writeStreamByte s i b).seenInvalid = s.seenInvalid := by unfold writeStreamByte; split <;> rfl
@[simp] theorem writeStreamByte_pos (s : State) (i : Nat) (b : Byte) : (writeStreamByte s i b).pos = s.pos := by unfold writeStreamByte; split <;> rfl
@[simp] theorem writeStreamByte_len (s : State) (i : Nat) (b : Byte) : (writeStreamByte s i b).len = s.len := by unfold writeStreamByte; split <;> rfl
@[simp] theorem writeStreamByte_slots (s : State) (i : Nat) (b : Byte) : (writeStreamByte s i b).slots = s.slots := by unfold writeStreamByte; split <;> rfl
@[simp] theorem writeStreamByte_clmem (s : State) (i : Nat) (b : Byte) : (writeStreamByte s i b).clmem = s.clmem := by unfold writeStreamByte; split <;> rfl
@[simp] theorem writeStreamByte_cur (s : State) (i : Nat) (b : Byte) : (writeStreamByte s i b).cur = s.cur := by unfold writeStreamByte; split <;> rfl
@[simp] theorem writeStreamByte_sr (s : State) (i : Nat) (b : Byte) : (writeStreamByte s i b).sr = s.sr := by unfold writeStreamByte; split <;> rfl
@[simp] theorem writeStreamByte_faulted (s : State) (i : Nat) (b : Byte) : (writeStreamByte s i b).faulted = s.faulted := by unfold writeStreamByte; split <;> rfl
@[simp] theorem writeStreamByte_refused (s : State) (i : Nat) (b : Byte) : (writeStreamByte s i b).refused = s.refused := by unfold writeStreamByte; split <;> rfl
@[simp] theorem writeStreamByte_events (s : State) (i : Nat) (b : Byte) : (writeStreamByte s i b).events = s.events := by unfold writeStreamByte; split <;> rfl
@[simp] theorem writeStreamByte_readData (s : State) (i : Nat) (b : Byte) : (writeStreamByte s i b).readData = s.readData := by unfold writeStreamByte; split <;> rfl

/-! #### writeStreamWord -/

@[simp] theorem writeStreamWord_config (i : Nat) (v : Word) (s : State) : (writeStreamWord i v s).config = s.config := by simp [writeStreamWord]
@[simp] theorem writeStreamWord_result (i : Nat) (v : Word) (s : State) : (writeStreamWord i v s).result = s.result := by simp [writeStreamWord]
@[simp] theorem writeStreamWord_lastErr (i : Nat) (v : Word) (s : State) : (writeStreamWord i v s).lastErr = s.lastErr := by simp [writeStreamWord]
@[simp] theorem writeStreamWord_sfail (i : Nat) (v : Word) (s : State) : (writeStreamWord i v s).sfail = s.sfail := by simp [writeStreamWord]
@[simp] theorem writeStreamWord_seenEos (i : Nat) (v : Word) (s : State) : (writeStreamWord i v s).seenEos = s.seenEos := by simp [writeStreamWord]
@[simp] theorem writeStreamWord_seenInvalid (i : Nat) (v : Word) (s : State) : (writeStreamWord i v s).seenInvalid = s.seenInvalid := by simp [writeStreamWord]
@[simp] theorem writeStreamWord_pos (i : Nat) (v : Word) (s : State) : (writeStreamWord i v s).pos = s.pos := by simp [writeStreamWord]
@[simp] theorem writeStreamWord_len (i : Nat) (v : Word) (s : State) : (writeStreamWord i v s).len = s.len := by simp [writeStreamWord]
@[simp] theorem writeStreamWord_slots (i : Nat) (v : Word) (s : State) : (writeStreamWord i v s).slots = s.slots := by simp [writeStreamWord]
@[simp] theorem writeStreamWord_clmem (i : Nat) (v : Word) (s : State) : (writeStreamWord i v s).clmem = s.clmem := by simp [writeStreamWord]
@[simp] theorem writeStreamWord_cur (i : Nat) (v : Word) (s : State) : (writeStreamWord i v s).cur = s.cur := by simp [writeStreamWord]
@[simp] theorem writeStreamWord_sr (i : Nat) (v : Word) (s : State) : (writeStreamWord i v s).sr = s.sr := by simp [writeStreamWord]
@[simp] theorem writeStreamWord_faulted (i : Nat) (v : Word) (s : State) : (writeStreamWord i v s).faulted = s.faulted := by simp [writeStreamWord]
@[simp] theorem writeStreamWord_refused (i : Nat) (v : Word) (s : State) : (writeStreamWord i v s).refused = s.refused := by simp [writeStreamWord]
@[simp] theorem writeStreamWord_events (i : Nat) (v : Word) (s : State) : (writeStreamWord i v s).events = s.events := by simp [writeStreamWord]
@[simp] theorem writeStreamWord_readData (i : Nat) (v : Word) (s : State) : (writeStreamWord i v s).readData = s.readData := by simp [writeStreamWord]

theorem streamBits_eq_of_len {s t : State} (h : s.len = t.len) : streamBits s = streamBits t := by
  simp [streamBits, h]

end Sys2Proof.Machine
end

