-- ==== Sys2Proof/Laws/Outcome.lean ====
section
/-! SUPPORT. What raising an error does (60_exceptions.md R201 to R204). -/

namespace Sys2Proof.Machine

/-- EOS sets SFAIL and SEEN_EOS (R201). -/
theorem raise_eos (s : State) :
    raise .eos s = { s with result := -1, lastErr := .eos, sfail := true, seenEos := true } := rfl

/-- INVALID_CODE sets SFAIL and SEEN_INVALID (R201). -/
theorem raise_invalidCode (s : State) :
    raise .invalidCode s = { s with result := -1, lastErr := .invalidCode, sfail := true, seenInvalid := true } := rfl

/-- Every other error sets no sticky bit (R201). -/
theorem raise_plain {e : ErrorCode} (h1 : e ≠ .eos) (h2 : e ≠ .invalidCode) (s : State) :
    raise e s = { s with result := -1, lastErr := e } := by
  cases e <;> first | rfl | contradiction

@[simp] theorem slotAt_finish (v : Word) (e : ErrorCode) (s : State) (t : Nat) : slotAt (finish v e s) t = slotAt s t := rfl

@[simp] theorem slotAt_raise (e : ErrorCode) (s : State) (t : Nat) : slotAt (raise e s) t = slotAt s t := by
  simp [slotAt]

/-- Reading a slot after writing one (10_state.md R30). -/
theorem slotAt_setSlot (s : State) (t j : Nat) (v : Slot) :
    slotAt (setSlot s t v) j = if j = t ∧ t < s.slots.length then v else slotAt s j := by
  simp only [slotAt, setSlot_slots, List.getD_eq_getElem?_getD, List.getElem?_set]
  by_cases h : t = j
  · subst h
    by_cases h' : t < s.slots.length <;> simp [h']
  · simp [h, Ne.symm h]

theorem slotAt_mem {s : State} {t : Nat} (h : t < s.slots.length) : slotAt s t ∈ s.slots := by
  simp [slotAt, List.getD_eq_getElem?_getD, h]

/-- A slot that reads as valid exists. -/
theorem lt_of_slotAt_valid {s : State} {t : Nat} (h : (slotAt s t).valid = true) : t < s.slots.length := by
  by_contra hn
  simp [slotAt, List.getD_eq_getElem?_getD, List.getElem?_eq_none (not_lt.1 hn), Slot.reset] at h

end Sys2Proof.Machine
end

