-- ==== Sys2Proof/Laws/Memory.lean ====
section
/-! SUPPORT. Read after write, and the canonical forms, for the sparse memories. -/

namespace Sys2Proof.Machine

open Sys2Proof

section cells

variable {α : Type}

theorem cellsGet_cellsPut (m : List (Nat × α)) (k j : Nat) (v : α) :
    cellsGet (cellsPut m k v) j = if j = k then some v else cellsGet m j := by
  induction m with
  | nil => simp [cellsPut, cellsGet, eq_comm]
  | cons x rest ih =>
    obtain ⟨a, b⟩ := x
    simp only [cellsPut]
    split
    · simp [cellsGet, eq_comm]
    · split
      · subst_vars; simp only [cellsGet, eq_comm]; split <;> simp_all
      · simp only [cellsGet, ih]; split <;> split <;> simp_all

theorem cellsGet_cellsDrop (m : List (Nat × α)) (k j : Nat) :
    cellsGet (cellsDrop m k) j = if j = k then none else cellsGet m j := by
  induction m with
  | nil => simp [cellsDrop, cellsGet]
  | cons x rest ih =>
    obtain ⟨a, b⟩ := x
    unfold cellsDrop at *
    by_cases h : a = k
    · subst h; simp only [ne_eq, not_true_eq_false, decide_false, Bool.false_eq_true, not_false_eq_true,
        List.filter_cons_of_neg, ih, cellsGet]
      split <;> simp_all [eq_comm]
    · simp only [ne_eq, h, not_false_eq_true, decide_true, List.filter_cons_of_pos, cellsGet, ih]
      split <;> split <;> simp_all

/-- A put lists the new pair and keeps only pairs that were there. -/
theorem mem_cellsPut {m : List (Nat × α)} {k : Nat} {v : α} {x : Nat × α} (h : x ∈ cellsPut m k v) :
    x = (k, v) ∨ x ∈ m := by
  induction m with
  | nil => simpa [cellsPut] using h
  | cons y rest ih =>
    simp only [cellsPut] at h
    split at h
    · simpa using h
    · split at h
      · simp only [List.mem_cons] at h ⊢; tauto
      · simp only [List.mem_cons] at h ⊢; rcases h with h | h
        · tauto
        · rcases ih h with h | h <;> tauto

theorem mem_cellsDrop {m : List (Nat × α)} {k : Nat} {x : Nat × α} (h : x ∈ cellsDrop m k) : x ∈ m :=
  List.mem_of_mem_filter h

theorem cellsPut_rising {m : List (Nat × α)} (h : m.Pairwise fun x y => x.1 < y.1) (k : Nat) (v : α) :
    (cellsPut m k v).Pairwise fun x y => x.1 < y.1 := by
  induction m with
  | nil => simp [cellsPut]
  | cons y rest ih =>
    obtain ⟨a, b⟩ := y
    rw [List.pairwise_cons] at h
    simp only [cellsPut]
    split
    · rename_i hk
      refine List.pairwise_cons.2 ⟨fun x hx => ?_, List.pairwise_cons.2 h⟩
      rcases List.mem_cons.1 hx with rfl | hx
      · exact hk
      · exact hk.trans (h.1 x hx)
    · split
      · subst_vars; exact List.pairwise_cons.2 h
      · refine List.pairwise_cons.2 ⟨fun x hx => ?_, ih h.2⟩
        rcases mem_cellsPut hx with rfl | hx
        · dsimp only; omega
        · exact h.1 x hx

theorem cellsDrop_rising {m : List (Nat × α)} (h : m.Pairwise fun x y => x.1 < y.1) (k : Nat) :
    (cellsDrop m k).Pairwise fun x y => x.1 < y.1 := h.filter _

/-- In a rising list a listed pair is what its key reads. -/
theorem cellsGet_of_mem {m : List (Nat × α)} (h : m.Pairwise fun x y => x.1 < y.1) {k : Nat} {v : α}
    (hm : (k, v) ∈ m) : cellsGet m k = some v := by
  induction m with
  | nil => simp at hm
  | cons y rest ih =>
    obtain ⟨a, b⟩ := y
    rw [List.pairwise_cons] at h
    rcases List.mem_cons.1 hm with hm | hm
    · obtain ⟨rfl, rfl⟩ := Prod.mk.inj hm; simp [cellsGet]
    · have := h.1 _ hm
      rw [cellsGet, if_neg (by dsimp only at this; omega), ih h.2 hm]

/-- What a key reads is listed. -/
theorem mem_of_cellsGet {m : List (Nat × α)} {k : Nat} {v : α} (h : cellsGet m k = some v) : (k, v) ∈ m := by
  induction m with
  | nil => simp [cellsGet] at h
  | cons y rest ih =>
    obtain ⟨a, b⟩ := y
    simp only [cellsGet] at h
    split at h
    · subst_vars; simp_all
    · exact List.mem_cons_of_mem _ (ih h)

end cells

/-! ### Code lengths -/

@[simp] theorem clRead_nil (s : Nat) : clRead [] s = 0 := rfl

/-- CLMEM after a write (R120). -/
theorem clRead_clWrite (m : CodeLengths) (s j : Nat) (cl : BitVec 4) :
    clRead (clWrite m s cl) j = if j = s then cl else clRead m j := by
  unfold clRead clWrite
  split
  · rw [cellsGet_cellsDrop]; split <;> simp_all
  · rw [cellsGet_cellsPut]; split <;> simp

theorem CodeLengths.wf_iff (m : CodeLengths) :
    CodeLengths.wf m = true ↔ (m.Pairwise fun x y => x.1 < y.1) ∧ ∀ x ∈ m, x.2 ≠ 0 := by
  simp [CodeLengths.wf]

theorem Memory.wf_iff (m : Memory) : Memory.wf m = true ↔ m.Pairwise fun x y => x.1 < y.1 := by
  simp [Memory.wf]

/-- A write keeps CLMEM's canonical form. -/
theorem clWrite_wf {m : CodeLengths} (h : CodeLengths.wf m = true) (s : Nat) (cl : BitVec 4) :
    CodeLengths.wf (clWrite m s cl) = true := by
  rw [CodeLengths.wf_iff] at h ⊢
  unfold clWrite
  split
  · exact ⟨cellsDrop_rising h.1 s, fun x hx => h.2 x (mem_cellsDrop hx)⟩
  · refine ⟨cellsPut_rising h.1 s cl, fun x hx => ?_⟩
    rcases mem_cellsPut hx with rfl | hx
    · assumption
    · exact h.2 x hx

theorem mem_clWrite {m : CodeLengths} {s : Nat} {cl : BitVec 4} {x : Nat × BitVec 4} (h : x ∈ clWrite m s cl) :
    x.1 = s ∨ x ∈ m := by
  unfold clWrite at h
  split at h
  · exact .inr (mem_cellsDrop h)
  · rcases mem_cellsPut h with rfl | h
    · exact .inl rfl
    · exact .inr h

/-! ### Rising lists of indices -/

@[simp] theorem mem_indexInsert {l : List Nat} {k j : Nat} : j ∈ indexInsert l k ↔ j = k ∨ j ∈ l := by
  induction l with
  | nil => simp [indexInsert]
  | cons a rest ih =>
    simp only [indexInsert]
    split
    · simp
    · split
      · subst_vars; simp
      · simp only [List.mem_cons, ih]; tauto

theorem indexInsert_rising {l : List Nat} (h : l.Pairwise (· < ·)) (k : Nat) :
    (indexInsert l k).Pairwise (· < ·) := by
  induction l with
  | nil => simp [indexInsert]
  | cons a rest ih =>
    rw [List.pairwise_cons] at h
    simp only [indexInsert]
    split
    · rename_i hk
      refine List.pairwise_cons.2 ⟨fun x hx => ?_, List.pairwise_cons.2 h⟩
      rcases List.mem_cons.1 hx with rfl | hx
      · exact hk
      · exact hk.trans (h.1 x hx)
    · split
      · exact List.pairwise_cons.2 h
      · refine List.pairwise_cons.2 ⟨fun x hx => ?_, ih h.2⟩
        rcases mem_indexInsert.1 hx with rfl | hx
        · omega
        · exact h.1 x hx

/-! ### Stream memory -/

theorem isStale_iff (s : State) (i : Nat) : isStale s i = true ↔ i ∈ s.stale := by
  simp [isStale]

theorem isStale_eq_false_iff (s : State) (i : Nat) : isStale s i = false ↔ i ∉ s.stale := by
  simp [isStale]

theorem streamByte_congr {s t : State} (h : s.stream = t.stream) (i : Nat) : streamByte s i = streamByte t i := by
  simp [streamByte, h]

theorem written_congr {s t : State} (h : s.stream = t.stream) (i : Nat) : written s i = written t i := by
  simp [written, streamByte_congr h]

theorem isStale_congr {s t : State} (h : s.stale = t.stale) (i : Nat) : isStale s i = isStale t i := by
  simp [isStale, h]

/-- STREAM_MEM after the host's write of a byte (R63). -/
theorem streamByte_writeStreamByte (s : State) (i j : Nat) (b : Byte) :
    streamByte (writeStreamByte s i b) j = if j = i ∧ i < s.config.streamBytes then some b else streamByte s j := by
  unfold writeStreamByte
  split
  · simp only [streamByte, cellsGet_cellsPut]; split <;> simp_all
  · simp_all

/-- STALE after the host's write of a byte (R63, R233). -/
theorem isStale_writeStreamByte (s : State) (i j : Nat) (b : Byte) :
    isStale (writeStreamByte s i b) j =
      (isStale s j || decide (j = i ∧ i < s.config.streamBytes ∧ s.pos.toNat / 8 ≤ i ∧ i < s.len.toNat)) := by
  rw [Bool.eq_iff_iff, isStale_iff, Bool.or_eq_true, isStale_iff, decide_eq_true_iff]
  unfold writeStreamByte
  split
  · dsimp only; split
    · rw [mem_indexInsert]; constructor
      · rintro (h | h) <;> tauto
      · tauto
    · tauto
  · tauto

/-- A byte write keeps the canonical form of stream memory. -/
theorem writeStreamByte_wf {s : State} (h : Memory.wf s.stream = true) (i : Nat) (b : Byte) :
    Memory.wf (writeStreamByte s i b).stream = true := by
  unfold writeStreamByte
  split
  · rw [Memory.wf_iff] at h ⊢; exact cellsPut_rising h i b
  · exact h

/-- Everything the host's word write does to stream memory (R63). -/
theorem streamByte_writeStreamWord (s : State) (i j : Nat) (v : Word) :
    streamByte (writeStreamWord i v s) j =
      if i ≤ j ∧ j < i + 4 ∧ j < s.config.streamBytes then some (v.extractLsb' (8 * (j - i)) 8)
      else streamByte s j := by
  simp only [writeStreamWord, streamByte_writeStreamByte, writeStreamByte_config]
  by_cases h : i ≤ j ∧ j < i + 4 ∧ j < s.config.streamBytes
  · rw [if_pos h]
    obtain ⟨h1, h2, h3⟩ := h
    obtain ⟨d, rfl⟩ := Nat.exists_eq_add_of_le h1
    have hd : d < 4 := by omega
    rw [Nat.add_sub_cancel_left]
    interval_cases d <;> simp_all
  · rw [if_neg h]
    repeat rw [if_neg (by omega)]

/-- Everything the host's word write does to STALE (R63, R233). -/
theorem isStale_writeStreamWord (s : State) (i j : Nat) (v : Word) :
    isStale (writeStreamWord i v s) j =
      (isStale s j || decide (i ≤ j ∧ j < i + 4 ∧ j < s.config.streamBytes ∧ s.pos.toNat / 8 ≤ j ∧
        j < s.len.toNat)) := by
  simp only [writeStreamWord, isStale_writeStreamByte, writeStreamByte_config, writeStreamByte_pos,
    writeStreamByte_len]
  rw [Bool.eq_iff_iff]
  simp only [Bool.or_eq_true, decide_eq_true_eq]
  constructor
  · rintro ((((h | h) | h) | h) | h)
    · exact .inl h
    all_goals right; omega
  · rintro (h | h)
    · tauto
    · obtain ⟨d, rfl⟩ := Nat.exists_eq_add_of_le h.1
      have hd : d < 4 := by omega
      interval_cases d <;> simp_all

end Sys2Proof.Machine
end

