-- ==== Sys2Proof/Laws/Reader.lean ====
section
/-! SUPPORT. Everything Peek, the shift register's loads and Consume can do (40_bitreader.md, 10_state.md R35). -/

namespace Sys2Proof.Machine

open Sys2Proof

/-! ### Peek -/

theorem streamValue_zero (s : State) (p : Nat) : streamValue s p 0 = 0 := rfl

/-- An LSB-first value: the first bit, then twice the value of the rest (R66). -/
theorem streamValue_succ (s : State) (p n : Nat) :
    streamValue s p (n + 1) = (streamBit s p).toNat + 2 * streamValue s (p + 1) n := by
  simp only [streamValue, List.range_succ_eq_map, List.map_cons, List.sum_cons, List.map_map, ← List.sum_map_mul_left]
  simp only [Nat.add_zero, Nat.pow_zero, Nat.mul_one, Nat.add_left_cancel_iff]
  congr 1
  refine List.map_congr_left fun i _ => ?_
  simp only [Function.comp, Nat.succ_eq_add_one]
  rw [show p + (i + 1) = p + 1 + i by omega, Nat.pow_succ]; ring

theorem streamValue_lt (s : State) (p n : Nat) : streamValue s p n < 2 ^ n := by
  induction n generalizing p with
  | zero => simp [streamValue_zero]
  | succ n ih =>
    have := ih (p + 1)
    have hb := Bool.toNat_le (streamBit s p)
    rw [streamValue_succ, Nat.pow_succ]; omega

theorem streamValue_testBit (s : State) (p n i : Nat) :
    (streamValue s p n).testBit i = (decide (i < n) && streamBit s (p + i)) := by
  induction n generalizing p i with
  | zero => simp [streamValue_zero]
  | succ n ih =>
    rw [streamValue_succ]
    cases i with
    | zero => cases streamBit s p <;> simp [Nat.testBit_zero]
    | succ i =>
      rw [Nat.testBit_succ, show ((streamBit s p).toNat + 2 * streamValue s (p + 1) n) / 2 = streamValue s (p + 1) n by
        have := Bool.toNat_le (streamBit s p); omega, ih, show p + 1 + i = p + (i + 1) by omega]
      simp

/-- Two reads joined (R106 (c)). -/
theorem streamValue_add (s : State) (p a b : Nat) :
    streamValue s p (a + b) = streamValue s p a + 2 ^ a * streamValue s (p + a) b := by
  induction a generalizing p with
  | zero => simp [streamValue_zero]
  | succ a ih =>
    rw [show a + 1 + b = a + b + 1 by omega, streamValue_succ, ih, streamValue_succ, show p + 1 + a = p + (a + 1) by omega]
    ring

theorem Readable.mono {s : State} {p n q m : Nat} (h : Readable s p n) (hp : p ≤ q) (hn : q + m ≤ p + n) :
    Readable s q m := fun j h1 h2 h3 => h j (by omega) (by omega) h3

theorem peekBit_of_readable {s : State} {p n j : Nat} (h : Readable s p n) (h1 : p ≤ j) (h2 : j < p + n) :
    peekBit s j = .ok (streamBit s j) := by
  unfold peekBit streamBit
  split
  · rename_i hj
    obtain ⟨hw, hs⟩ := h j h1 h2 hj
    obtain ⟨b, hb⟩ := Option.isSome_iff_exists.1 hw
    simp [hb, hs]
  · rfl

/-- Peek of readable bits answers their value (R101, R66). -/
theorem peek_of_readable {s : State} {p n : Nat} (h : Readable s p n) : peek s p n = .ok (streamValue s p n) := by
  induction n generalizing p with
  | zero => rfl
  | succ n ih =>
    have h' : Readable s (p + 1) n := h.mono (by omega) (by omega)
    simp [peek, peekBit_of_readable h (le_refl p) (by omega), ih h', streamValue_succ]

theorem peekBit_ok {s : State} {j : Nat} {b : Bool} (h : peekBit s j = .ok b) :
    b = streamBit s j ∧ (j < streamBits s → written s (j / 8) = true ∧ isStale s (j / 8) = false) := by
  unfold peekBit at h
  unfold streamBit written
  split at h
  · rename_i hj
    split at h
    · simp at h
    · rename_i b' hb
      split at h
      · simp at h
      · simp_all
  · simp_all

/-- Peek answers a value only for readable bits, and it is their value (R101). -/
theorem peek_ok {s : State} {p n v : Nat} (h : peek s p n = .ok v) : Readable s p n ∧ v = streamValue s p n := by
  induction n generalizing p v with
  | zero => exact ⟨fun j h1 h2 => by omega, by simpa [peek, streamValue_zero] using h.symm⟩
  | succ n ih =>
    simp only [peek] at h
    split at h
    · simp at h
    · rename_i b hb
      split at h
      · simp at h
      · rename_i w hw
        obtain ⟨hr, rfl⟩ := ih hw
        obtain ⟨rfl, hb'⟩ := peekBit_ok hb
        refine ⟨fun j h1 h2 h3 => ?_, ?_⟩
        · rcases Nat.lt_or_ge p j with h4 | h4
          · exact hr j h4 (by omega) h3
          · obtain rfl : j = p := by omega
            exact hb' h3
        · rw [streamValue_succ]; simpa using h.symm

theorem peek_eq_ok_iff (s : State) (p n v : Nat) :
    peek s p n = .ok v ↔ Readable s p n ∧ v = streamValue s p n :=
  ⟨peek_ok, fun ⟨h, e⟩ => e ▸ peek_of_readable h⟩

/-- Peek sees the bit reader's state only through LEN, STREAM_MEM and STALE. -/
theorem peekBit_congr {s t : State} (hl : s.len = t.len) (hm : s.stream = t.stream) (hs : s.stale = t.stale) (j : Nat) :
    peekBit s j = peekBit t j := by
  have e1 : streamBits s = streamBits t := streamBits_eq_of_len hl
  simp only [peekBit, e1, streamByte_congr hm, isStale_congr hs]

theorem peek_congr {s t : State} (hl : s.len = t.len) (hm : s.stream = t.stream) (hs : s.stale = t.stale) (p n : Nat) :
    peek s p n = peek t p n := by
  induction n generalizing p with
  | zero => rfl
  | succ n ih => simp only [peek, peekBit_congr hl hm hs, ih]

/-- The stream is a function of LEN and STREAM_MEM alone (20_memory.md R65). -/
theorem streamBit_congr {s t : State} (hl : s.len = t.len) (hm : s.stream = t.stream) (j : Nat) :
    streamBit s j = streamBit t j := by
  unfold streamBit
  rw [streamBits_eq_of_len hl, streamByte_congr hm]

theorem streamValue_congr {s t : State} (hl : s.len = t.len) (hm : s.stream = t.stream) (p n : Nat) :
    streamValue s p n = streamValue t p n := by
  simp only [streamValue, streamBit_congr hl hm]

theorem Readable.congr {s t : State} {p n : Nat} (h : Readable s p n) (hl : s.len = t.len) (hm : s.stream = t.stream)
    (hs : s.stale = t.stale) : Readable t p n := fun j h1 h2 h3 => by
  rw [← written_congr hm, ← isStale_congr hs]
  exact h j h1 h2 (by rwa [streamBits_eq_of_len hl])

/-- Peek stops at the first bit that stops it (R101). -/
theorem peek_error {s : State} {p n j : Nat} {e : Stop} (hp : p ≤ j) (hn : j < p + n) (he : peekBit s j = .error e)
    (hok : ∀ k, p ≤ k → k < j → ∃ b, peekBit s k = .ok b) : peek s p n = .error e := by
  induction n generalizing p with
  | zero => omega
  | succ n ih =>
    simp only [peek]
    rcases Nat.eq_or_lt_of_le hp with rfl | h
    · rw [he]
    · obtain ⟨b, hb⟩ := hok p (le_refl _) h
      rw [hb]
      simp only
      rw [ih (p := p + 1) h (by omega) fun k h1 h2 => hok k (by omega) h2]

/-! ### The shift register -/

@[simp] theorem byteBits_length (s : State) (i : Nat) : (byteBits s i).length = 8 := by simp [byteBits]

theorem byteBits_getElem? (s : State) (i k : Nat) (h : k < 8) :
    (byteBits s i)[k]? = some ((streamByte s i).map fun b => b.getLsbD k) := by
  simp [byteBits, h]

/-- A load moves CUR and NB together, so POS stays (R35). -/
theorem loadByte_balance (s : State) : (loadByte s).nb + 8 * s.cur = s.nb + 8 * (loadByte s).cur := by
  unfold loadByte State.nb
  split
  · simp; omega
  · rfl

theorem refill_balance (s : State) (k : Nat) : (refill s k).nb + 8 * s.cur = s.nb + 8 * (refill s k).cur := by
  induction k generalizing s with
  | zero => rfl
  | succ k ih =>
    have h1 := ih (loadByte s)
    have h2 := loadByte_balance s
    simp only [refill]; omega

theorem refill_cur (s : State) (k : Nat) : (refill s k).cur = max s.cur (min (s.cur + k) s.len.toNat) := by
  induction k generalizing s with
  | zero => simp [refill]
  | succ k ih =>
    rw [refill, ih, loadByte_len]
    unfold loadByte
    split <;> (try dsimp only) <;> omega

/-- A load changes CUR and SR, and nothing else (R35). -/
theorem refill_eq (s : State) (k : Nat) :
    refill s k = { s with cur := (refill s k).cur, sr := (refill s k).sr } := by
  induction k generalizing s with
  | zero => rfl
  | succ k ih =>
    simp only [refill]
    rw [ih (loadByte s)]
    unfold loadByte
    split <;> rfl

/-- Everything a load of up to k bytes does: the bytes from CUR on, below LEN, go behind the live bits (R35). -/
theorem refill_loads (s : State) (k : Nat) :
    refill s k = { s with
      cur := s.cur + min k (s.len.toNat - s.cur),
      sr := s.sr ++ (List.range' s.cur (min k (s.len.toNat - s.cur))).flatMap (byteBits s) } := by
  induction k generalizing s with
  | zero => simp [refill]
  | succ k ih =>
    rw [refill, ih]
    by_cases h : s.cur < s.len.toNat
    · rw [show loadByte s = { s with cur := s.cur + 1, sr := s.sr ++ byteBits s s.cur } by simp [loadByte, h]]
      dsimp only
      rw [show min (k + 1) (s.len.toNat - s.cur) = min k (s.len.toNat - (s.cur + 1)) + 1 by omega, List.range'_succ,
        List.flatMap_cons, List.append_assoc, Nat.add_assoc, Nat.add_comm 1]
      rfl
    · rw [show loadByte s = s by simp [loadByte, h], show s.len.toNat - s.cur = 0 by omega]; simp

theorem refill_streamBits (s : State) (k : Nat) : streamBits (refill s k) = streamBits s := by
  simp [streamBits]

/-- What the invariant says of the bit reader (R26, R35). -/
structure ReaderInv (s : State) : Prop where
  pos : s.pos.toNat + s.nb = 8 * s.cur
  cur : s.cur ≤ s.len.toNat
  bits : ∀ k, k < s.nb → isStale s ((s.pos.toNat + k) / 8) = false →
    s.sr[k]? = some ((streamByte s ((s.pos.toNat + k) / 8)).map fun b => b.getLsbD ((s.pos.toNat + k) % 8))

theorem State.Inv.reader {s : State} (h : s.Inv) : ReaderInv s := ⟨h.reader_pos, h.reader_cur, h.reader_bits⟩

theorem loadByte_reader {s : State} (h : ReaderInv s) : ReaderInv (loadByte s) := by
  have hb := loadByte_balance s
  by_cases hc : s.cur < s.len.toNat
  · have e : loadByte s = { s with cur := s.cur + 1, sr := s.sr ++ byteBits s s.cur } := by simp [loadByte, hc]
    refine ⟨?_, ?_, ?_⟩
    · have := h.pos; rw [loadByte_pos]; omega
    · rw [e]; exact hc
    · rw [e]
      intro k hk hs
      simp only [State.nb, List.length_append, byteBits_length] at hk
      simp only [isStale, streamByte] at hs ⊢
      rcases Nat.lt_or_ge k s.nb with hk' | hk'
      · rw [List.getElem?_append_left hk']
        exact h.bits k hk' hs
      · have hpos := h.pos
        rw [List.getElem?_append_right hk', byteBits_getElem? s s.cur _ (by have : s.nb = s.sr.length := rfl; omega)]
        have e1 : (s.pos.toNat + k) / 8 = s.cur := by have : s.nb = s.sr.length := rfl; omega
        have e2 : (s.pos.toNat + k) % 8 = k - s.sr.length := by have : s.nb = s.sr.length := rfl; omega
        rw [e1, e2]; rfl
  · have e : loadByte s = s := by simp [loadByte, hc]
    rw [e]; exact h

theorem refill_reader {s : State} (h : ReaderInv s) (k : Nat) : ReaderInv (refill s k) := by
  induction k generalizing s with
  | zero => exact h
  | succ k ih => exact ih (loadByte_reader h)

/-! ### Consume -/

theorem consume_cur (n : Nat) (s : State) : (consume n s).cur = (refill s ((n - s.nb + 7) / 8)).cur := rfl

theorem consume_sr (n : Nat) (s : State) : (consume n s).sr = (refill s ((n - s.nb + 7) / 8)).sr.drop n := rfl

/-- Consume changes POS, and the shift register behind it, and nothing else (R102). -/
theorem consume_eq (n : Nat) (s : State) :
    consume n s = { s with pos := s.pos + BitVec.ofNat 32 n, cur := (consume n s).cur, sr := (consume n s).sr } := by
  have h := refill_eq s ((n - s.nb + 7) / 8)
  rw [consume_cur, consume_sr]
  unfold consume
  rw [h]

/-- A checked Consume moves POS by exactly n: no wrap below 8*LEN < 2^31 (R26, R102). -/
theorem consume_pos_toNat {s : State} {n : Nat} (h : s.pos.toNat + n ≤ streamBits s) :
    (s.pos + BitVec.ofNat 32 n).toNat = s.pos.toNat + n := by
  have hl := s.len.isLt
  simp only [streamBits] at h
  rw [BitVec.toNat_add, BitVec.toNat_ofNat, Nat.mod_eq_of_lt (a := n) (by omega), Nat.mod_eq_of_lt (by omega)]

/-- A checked Consume keeps what the invariant says of the bit reader (R35). -/
theorem consume_reader {s : State} {n : Nat} (h : ReaderInv s) (hn : s.pos.toNat + n ≤ streamBits s) :
    ReaderInv (consume n s) := by
  set k := (n - s.nb + 7) / 8 with hk
  have hr := refill_reader h k
  have hpos : (consume n s).pos.toNat = s.pos.toNat + n := by rw [consume_pos, consume_pos_toNat hn]
  have hcur := refill_cur s k
  have hb := refill_balance s k
  have h0 := h.pos
  have h1 := h.cur
  simp only [streamBits] at hn
  have hnb : n ≤ (refill s k).nb := by omega
  have hnb' : (consume n s).nb = (refill s k).nb - n := by
    simp only [State.nb, consume_sr, List.length_drop, ← hk]
  refine ⟨?_, ?_, ?_⟩
  · rw [hpos, hnb', consume_cur, ← hk]; omega
  · rw [consume_cur, consume_len, ← hk, hcur]; omega
  · intro i hi hs
    rw [hpos] at hs ⊢
    rw [isStale_congr (consume_stale n s)] at hs
    rw [streamByte_congr (consume_stream n s), consume_sr, ← hk, List.getElem?_drop]
    have := hr.bits (n + i) (by omega)
    rw [refill_pos, isStale_congr (refill_stale s k), streamByte_congr (refill_stream s k)] at this
    rw [show s.pos.toNat + n + i = s.pos.toNat + (n + i) by omega] at hs ⊢
    exact this hs

/-! ### The host's writes, and a new stream -/

theorem startStream_reader (len : BitVec 28) (s : State) : ReaderInv (startStream len s) :=
  ⟨by simp [State.nb], by simp, fun k hk => by simp [State.nb] at hk⟩

/-- A host write changes no bit of the shift register's bytes that is not marked stale (R63, R233). -/
theorem writeStreamByte_reader {s : State} (h : ReaderInv s) (i : Nat) (b : Byte) :
    ReaderInv (writeStreamByte s i b) := by
  refine ⟨by simpa [State.nb] using h.pos, by simpa using h.cur, fun k hk hs => ?_⟩
  simp only [State.nb, writeStreamByte_sr] at hk
  rw [writeStreamByte_pos, isStale_writeStreamByte, Bool.or_eq_false_iff, decide_eq_false_iff_not] at hs
  rw [writeStreamByte_sr, writeStreamByte_pos, streamByte_writeStreamByte, if_neg, h.bits k hk hs.1]
  rintro ⟨h1, h2⟩
  have hp := h.pos; have hc := h.cur
  exact hs.2 ⟨h1, h2, by omega, by have : s.nb = s.sr.length := rfl; omega⟩

end Sys2Proof.Machine
end

