-- ==== Sys2Proof/Laws/Table.lean ====
section
/-! SUPPORT. What BUILD's tables hold, and that a lookup finds the code the stream starts with (42_build.md R138 to R145,
43_decode.md R161, R162). -/

namespace Sys2Proof.Machine

open Sys2Proof

/-! ### Entries -/

@[simp] theorem entrySym_mkEntry (sym ln : Nat) : entrySym (mkEntry sym ln) = BitVec.ofNat 12 sym := by
  rw [entrySym, mkEntry, BitVec.extractLsb'_append_eq_left]

@[simp] theorem entryLn_mkEntry (sym ln : Nat) : entryLn (mkEntry sym ln) = BitVec.ofNat 4 ln := by
  rw [entryLn, mkEntry, BitVec.extractLsb'_append_eq_right]

@[simp] theorem entrySym_unoccupied : entrySym unoccupied = unoccupiedSym := by decide

@[simp] theorem entryLn_unoccupied : entryLn unoccupied = 0 := by decide

theorem mkEntry_zero (sym : Nat) : mkEntry sym 0 = BitVec.ofNat 12 sym ++ 0#4 := rfl

/-- A symbol below 4095 is not the unoccupied sentinel (00_scope.md R7). -/
theorem ofNat_ne_unoccupied {s : Nat} (h : s < 4095) : BitVec.ofNat 12 s ≠ unoccupiedSym := by
  intro e
  have := congrArg BitVec.toNat e
  simp [Nat.mod_eq_of_lt (show s < 4096 by omega)] at this
  omega

theorem mainAt_mainOf (f : Nat → Entry) (ml : BitVec 4) (u : List Subtable) (i : BitVec 8) :
    mainAt { maxLen := ml, main := mainOf f, subs := u } i = f i.toNat := by
  simp [mainAt, mainOf]

/-! ### Subtables -/

/-- The step of the fold that computes `B[p]` (R138). -/
theorem subWidth_aux (cs : List Code) (p b : Nat) :
    let w := cs.foldl (fun b c => if huffmanSplit < c.len ∧ c.rev % mainSize = p then max b (c.len - huffmanSplit) else b) b
    b ≤ w ∧ (∀ c ∈ cs, 8 < c.len → c.rev % 256 = p → c.len - 8 ≤ w) ∧
      (w = b ∨ ∃ c ∈ cs, 8 < c.len ∧ c.rev % 256 = p ∧ c.len - 8 = w) := by
  induction cs generalizing b with
  | nil => simp
  | cons d rest ih =>
    simp only [List.foldl_cons, huffmanSplit, mainSize] at ih ⊢
    by_cases hd : 8 < d.len ∧ d.rev % 256 = p
    · obtain ⟨h1, h2, h3⟩ := ih (max b (d.len - 8))
      rw [if_pos hd]
      refine ⟨by omega, fun c hc a1 a2 => ?_, ?_⟩
      · rcases List.mem_cons.1 hc with rfl | hc
        · omega
        · exact h2 c hc a1 a2
      · rcases h3 with h3 | ⟨c, hc, h3⟩
        · rcases Nat.le_total b (d.len - 8) with hb | hb
          · exact .inr ⟨d, List.mem_cons_self, hd.1, hd.2, by omega⟩
          · exact .inl (by omega)
        · exact .inr ⟨c, List.mem_cons_of_mem _ hc, h3⟩
    · obtain ⟨h1, h2, h3⟩ := ih b
      rw [if_neg hd]
      refine ⟨h1, fun c hc a1 a2 => ?_, ?_⟩
      · rcases List.mem_cons.1 hc with rfl | hc
        · exact absurd ⟨a1, a2⟩ hd
        · exact h2 c hc a1 a2
      · rcases h3 with h3 | ⟨c, hc, h3⟩
        · exact .inl h3
        · exact .inr ⟨c, List.mem_cons_of_mem _ hc, h3⟩

/-- `B[p]` is at least the extra bits of every long code under p (R138). -/
theorem le_subWidth {cs : List Code} {p : Nat} {c : Code} (hc : c ∈ cs) (hl : 8 < c.len) (hp : c.rev % 256 = p) :
    c.len - 8 ≤ subWidth cs p := (subWidth_aux cs p 0).2.1 c hc hl hp

/-- `B[p]` is the extra bits of some long code under p (R138). -/
theorem exists_of_subWidth_pos {cs : List Code} {p : Nat} (h : 0 < subWidth cs p) :
    ∃ c ∈ cs, 8 < c.len ∧ c.rev % 256 = p ∧ c.len - 8 = subWidth cs p := by
  rcases (subWidth_aux cs p 0).2.2 with h' | h'
  · unfold subWidth at h; omega
  · exact h'

theorem mem_subOwners {cs : List Code} {p : Nat} : p ∈ subOwners cs ↔ p < 256 ∧ 0 < subWidth cs p := by
  simp [subOwners]

theorem subOwners_length (cs : List Code) : (subOwners cs).length ≤ 256 :=
  (List.length_filter_le _ _).trans (by simp)

theorem subOwners_getElem?_idxOf {cs : List Code} {p : Nat} (h : p ∈ subOwners cs) :
    (subOwners cs)[(subOwners cs).idxOf p]? = some p := by
  rw [List.getElem?_eq_getElem (List.idxOf_lt_length_of_mem h), List.getElem_idxOf]

/-! ### Finding the one matching code -/

/-- A search for a property that one element has, and no other, finds it. -/
theorem find?_unique {α : Type} {l : List α} {f : α → Bool} {a : α} (ha : a ∈ l) (hf : f a = true)
    (hu : ∀ b ∈ l, f b = true → b = a) : l.find? f = some a := by
  cases h : l.find? f with
  | none => exact absurd hf (by simpa using List.find?_eq_none.1 h a ha)
  | some b => rw [hu b (List.mem_of_find?_eq_some h) (List.find?_some h)]

/-- What canonical codes satisfy: lengths 1 to 15, and no stream value starts with two of them. -/
structure CodesOk (cs : List Code) : Prop where
  len_pos (c : Code) : c ∈ cs → 1 ≤ c.len
  len_le (c : Code) : c ∈ cs → c.len ≤ 15
  unique (c : Code) : c ∈ cs → ∀ d ∈ cs, ∀ x, x % 2 ^ c.len = c.rev → x % 2 ^ d.len = d.rev → c = d

theorem canonicalCodes_ok {ls : List (Nat × Nat)} (h : LengthsOk ls) (hk : kraftSum ls ≤ 2 ^ 15) :
    CodesOk (canonicalCodes ls) where
  len_pos _ hc := (canonicalCodes_sym_len h hc).2.1
  len_le _ hc := (canonicalCodes_sym_len h hc).2.2.1
  unique _ hc _ hd _ h1 h2 := canonicalCodes_prefixFree h hk hc hd h1 h2

section lookup

variable {cs : List Code} {c : Code}

theorem mod_mod_pow {x a b : Nat} (h : a ≤ b) : x % 2 ^ b % 2 ^ a = x % 2 ^ a :=
  Nat.mod_mod_of_dvd x (Nat.pow_dvd_pow 2 h)

/-- The first 8 bits of a longer match. -/
theorem mod256_of_match {x : Nat} (hl : 8 ≤ c.len) (hx : x % 2 ^ c.len = c.rev) : x % 256 = c.rev % 256 := by
  rw [← hx, show (256 : Nat) = 2 ^ 8 from rfl, mod_mod_pow hl]

/-- A main index a short code reaches holds its leaf (R140). -/
theorem mainEntry_short (h : CodesOk cs) (hc : c ∈ cs) (hl : c.len ≤ 8) {p : Nat} (hp : p % 2 ^ c.len = c.rev) :
    mainEntry cs (subOwners cs) p = leafEntry c := by
  unfold mainEntry
  rw [find?_unique hc (by simp [hl, hp]) fun d hd hm => ?_]
  simp only [huffmanSplit, Bool.and_eq_true, decide_eq_true_eq] at hm
  exact h.unique d hd c hc p hm.2 hp

/-- A main index that is the first 8 bits of a long code holds the number of its subtable (R139). -/
theorem mainEntry_long (h : CodesOk cs) (hc : c ∈ cs) (hl : 8 < c.len) {x : Nat} (hx : x % 2 ^ c.len = c.rev) :
    x % 256 ∈ subOwners cs ∧
      mainEntry cs (subOwners cs) (x % 256) = mkEntry ((subOwners cs).idxOf (x % 256)) 15 := by
  have e := mod256_of_match hl.le hx
  have hm : x % 256 ∈ subOwners cs :=
    mem_subOwners.2 ⟨Nat.mod_lt _ (by omega), by have := le_subWidth hc hl e.symm; omega⟩
  refine ⟨hm, ?_⟩
  unfold mainEntry
  rw [List.find?_eq_none.2 fun d hd => ?_]
  · simp [hm]
  · simp only [huffmanSplit, Bool.and_eq_true, decide_eq_true_eq, not_and]
    intro hd8 hp
    rw [show (256 : Nat) = 2 ^ 8 from rfl, mod_mod_pow hd8] at hp
    have := h.unique d hd c hc x hp hx
    subst this; omega

/-- The bits of a long match behind the first 8. -/
theorem div256_of_match {x w : Nat} (hl : 8 < c.len) (hw : c.len - 8 ≤ w) (hx : x % 2 ^ c.len = c.rev) :
    x / 256 % 2 ^ w % 2 ^ (c.len - 8) = c.rev / 256 := by
  rw [mod_mod_pow hw, ← hx, show (256 : Nat) = 2 ^ 8 from rfl]
  conv_rhs => rw [show c.len = 8 + (c.len - 8) by omega, Nat.pow_add, Nat.mod_mul_right_div_self]

/-- The first 8 bits and the bits behind them make a long match. -/
theorem match_of_parts {x w : Nat} (hl : 8 < c.len) (hw : c.len - 8 ≤ w) (h1 : c.rev % 256 = x % 256)
    (h2 : x / 256 % 2 ^ w % 2 ^ (c.len - 8) = c.rev / 256) : x % 2 ^ c.len = c.rev := by
  rw [mod_mod_pow hw] at h2
  rw [show c.len = 8 + (c.len - 8) by omega, Nat.pow_add, Nat.mod_mul, show (2 : Nat) ^ 8 = 256 from rfl, h2, ← h1]
  omega

/-- A subtable index a long code reaches holds its leaf (R141). -/
theorem subEntry_of_match (h : CodesOk cs) (hc : c ∈ cs) (hl : 8 < c.len) {x : Nat} (hx : x % 2 ^ c.len = c.rev) :
    subEntry cs (x % 256) (x / 256 % 2 ^ subWidth cs (x % 256)) = leafEntry c := by
  have e := mod256_of_match hl.le hx
  unfold subEntry
  rw [find?_unique hc]
  · have := div256_of_match hl (le_subWidth hc hl e.symm) hx
    simp only [huffmanSplit, mainSize, Bool.and_eq_true, decide_eq_true_eq]
    exact ⟨⟨hl, e.symm⟩, this⟩
  · intro d hd hm
    simp only [huffmanSplit, mainSize, Bool.and_eq_true, decide_eq_true_eq] at hm
    exact h.unique d hd c hc x (match_of_parts hm.1.1 (le_subWidth hd hm.1.1 hm.1.2) hm.1.2 hm.2) hx

theorem subWidth_le (h : CodesOk cs) (p : Nat) : subWidth cs p ≤ 7 := by
  rcases Nat.eq_zero_or_pos (subWidth cs p) with h0 | h0
  · omega
  · obtain ⟨c, hc, -, -, hw⟩ := exists_of_subWidth_pos h0
    have := h.len_le c hc; omega

end lookup

/-! ### The whole table -/

theorem splitTable_mainAt (ls : List (Nat × Nat)) (i : BitVec 8) :
    mainAt (splitTable ls) i = mainEntry (canonicalCodes ls) (subOwners (canonicalCodes ls)) i.toNat := by
  rw [splitTable, mainAt_mainOf]

theorem splitTable_subs (ls : List (Nat × Nat)) :
    (splitTable ls).subs = (subOwners (canonicalCodes ls)).map (subtableOf (canonicalCodes ls)) := rfl

section split

variable {ls : List (Nat × Nat)} {p k : Nat}

/-- The subtable under an owner, and its width (R138, R139). -/
theorem splitTable_sub (h : CodesOk (canonicalCodes ls)) (hp : p ∈ subOwners (canonicalCodes ls)) :
    let k := (subOwners (canonicalCodes ls)).idxOf p
    (splitTable ls).subs[k]? = some (subtableOf (canonicalCodes ls) p) ∧
      subBitsAt (splitTable ls) k = subWidth (canonicalCodes ls) p ∧
      ∀ q, q < 2 ^ subWidth (canonicalCodes ls) p →
        subAt (splitTable ls) k q = subEntry (canonicalCodes ls) p q := by
  have e : (splitTable ls).subs[(subOwners (canonicalCodes ls)).idxOf p]? = some (subtableOf (canonicalCodes ls) p) := by
    rw [splitTable_subs, List.getElem?_map, subOwners_getElem?_idxOf hp]; rfl
  have hw := subWidth_le h p
  refine ⟨e, ?_, fun q hq => ?_⟩
  · simp only [subBitsAt, e, subtableOf, BitVec.toNat_ofNat]; omega
  · simp [subAt, e, subtableOf, List.getD_eq_getElem?_getD, hq]

/-- The lookup of a value that starts with a code finds that code's leaf (R161, R162, R165). -/
theorem lookupEntry_splitTable (h : CodesOk (canonicalCodes ls)) {c : Code} (hc : c ∈ canonicalCodes ls) {x : Nat}
    (hx : x % 2 ^ c.len = c.rev) : lookupEntry (splitTable ls) x = leafEntry c := by
  have hi : (BitVec.ofNat 8 x).toNat = x % 256 := by simp
  unfold lookupEntry
  rw [splitTable_mainAt, hi]
  rcases Nat.lt_or_ge 8 c.len with hl | hl
  · obtain ⟨hm, he⟩ := mainEntry_long h hc hl hx
    obtain ⟨-, hb, hs⟩ := splitTable_sub h hm
    have hk : (subOwners (canonicalCodes ls)).idxOf (x % 256) < 256 :=
      (List.idxOf_lt_length_of_mem hm).trans_le (subOwners_length _)
    have hsym : (entrySym (mkEntry ((subOwners (canonicalCodes ls)).idxOf (x % 256)) 15)).toNat =
        (subOwners (canonicalCodes ls)).idxOf (x % 256) := by
      rw [entrySym_mkEntry, BitVec.toNat_ofNat, Nat.mod_eq_of_lt (by omega)]
    simp only [he, hsym]
    rw [if_pos (by rw [entryLn_mkEntry]), hb, mainSize, hs _ (Nat.mod_lt _ (Nat.two_pow_pos _)), subEntry_of_match h hc hl hx]
  · rw [mainEntry_short h hc hl (p := x % 256) (by rw [show (256 : Nat) = 2 ^ 8 from rfl, mod_mod_pow hl, hx])]
    rw [if_neg]
    rw [leafEntry, entryLn_mkEntry]
    intro e
    have := congrArg BitVec.toNat e
    simp at this
    omega

/-- `max { L[s] : s in S }` (R143). -/
theorem maxLength_aux (ls : List (Nat × Nat)) (b : Nat) :
    b ≤ ls.foldl (fun m p => max m p.2) b ∧ (∀ p ∈ ls, p.2 ≤ ls.foldl (fun m p => max m p.2) b) ∧
      (ls.foldl (fun m p => max m p.2) b = b ∨ ∃ p ∈ ls, p.2 = ls.foldl (fun m p => max m p.2) b) := by
  induction ls generalizing b with
  | nil => simp
  | cons d rest ih =>
    obtain ⟨h1, h2, h3⟩ := ih (max b d.2)
    simp only [List.foldl_cons]
    refine ⟨by omega, fun p hp => ?_, ?_⟩
    · rcases List.mem_cons.1 hp with rfl | hp
      · omega
      · exact h2 p hp
    · rcases h3 with h3 | ⟨p, hp, h3⟩
      · rcases Nat.le_total b d.2 with hb | hb
        · exact .inr ⟨d, List.mem_cons_self, by omega⟩
        · exact .inl (by omega)
      · exact .inr ⟨p, List.mem_cons_of_mem _ hp, h3⟩

/-- MAXLEN is the largest length (R143). -/
theorem splitTable_maxLen (h : LengthsOk ls) :
    (∀ p ∈ ls, p.2 ≤ (splitTable ls).maxLen.toNat) ∧
      (ls ≠ [] → ∃ p ∈ ls, p.2 = (splitTable ls).maxLen.toNat) := by
  obtain ⟨-, h2, h3⟩ := maxLength_aux ls 0
  have hm : (splitTable ls).maxLen.toNat = ls.foldl (fun m p => max m p.2) 0 := by
    simp only [splitTable, BitVec.toNat_ofNat]
    refine Nat.mod_eq_of_lt ?_
    rcases h3 with h3 | ⟨p, hp, h3⟩
    · omega
    · have := h p hp; omega
  rw [hm]
  refine ⟨h2, fun hne => ?_⟩
  rcases h3 with h3 | h3
  · obtain ⟨p, hp⟩ := List.exists_mem_of_ne_nil ls hne
    have := h2 p hp; have := h p hp; omega
  · exact h3

/-- The leaf of a code of symbol below 4095. -/
theorem leafEntry_kind {c : Code} (hs : c.sym < 4095) (hl : c.len ≤ 15) :
    entrySym (leafEntry c) ≠ unoccupiedSym ∧ (entryLn (leafEntry c)).toNat = c.len ∧
      (entrySym (leafEntry c)).toNat = c.sym := by
  refine ⟨?_, ?_, ?_⟩
  · rw [leafEntry, entrySym_mkEntry]; exact ofNat_ne_unoccupied hs
  · rw [leafEntry, entryLn_mkEntry, BitVec.toNat_ofNat]; omega
  · rw [leafEntry, entrySym_mkEntry, BitVec.toNat_ofNat]; omega

/-- A table built from two symbols or more meets the invariant of tables (R30, R31, R146). -/
theorem splitTable_inv (h : LengthsOk ls) (hk : kraftSum ls ≤ 2 ^ 15) (hne : ls ≠ [])
    (hs : ∀ p ∈ ls, p.1 < 4095) : (splitTable ls).Inv := by
  have ok := canonicalCodes_ok h hk
  have mx := splitTable_maxLen h
  have sym : ∀ c ∈ canonicalCodes ls, c.sym < 4095 := fun c hc => hs _ (canonicalCodes_sym_len h hc).1
  have len : ∀ c ∈ canonicalCodes ls, c.len ≤ (splitTable ls).maxLen.toNat :=
    fun c hc => mx.1 _ (canonicalCodes_sym_len h hc).1
  refine ⟨fun h0 => ?_, fun _ i => ?_, fun u hu => ?_, ?_⟩
  · obtain ⟨p, hp, e⟩ := mx.2 hne
    have := h p hp; simp [h0] at e; omega
  · rw [splitTable_mainAt, mainEntry]
    split
    · rename_i c hf
      have hc := List.mem_of_find?_eq_some hf
      have hm := List.find?_some hf
      simp only [huffmanSplit, Bool.and_eq_true, decide_eq_true_eq] at hm
      obtain ⟨k1, k2, -⟩ := leafEntry_kind (sym c hc) (ok.len_le c hc)
      have := len c hc; have := ok.len_pos c hc
      exact .inl (.inr ⟨k1, by omega, by omega⟩)
    · split
      · rename_i hm
        have hm' : i.toNat ∈ subOwners (canonicalCodes ls) := by simpa using hm
        have hk' := List.idxOf_lt_length_of_mem hm'
        have := subOwners_length (canonicalCodes ls)
        refine .inr ⟨by rw [entryLn_mkEntry]; rfl, ?_⟩
        rw [entrySym_mkEntry, BitVec.toNat_ofNat, Nat.mod_eq_of_lt (by omega), Table.nsub, splitTable_subs,
          List.length_map]
        exact hk'
      · exact .inl (.inl rfl)
  · rw [splitTable_subs, List.mem_map] at hu
    obtain ⟨p, hp, rfl⟩ := hu
    have hw := subWidth_le ok p
    have hw0 := (mem_subOwners.1 hp).2
    have hb : (subtableOf (canonicalCodes ls) p).bits.toNat = subWidth (canonicalCodes ls) p := by
      simp only [subtableOf, BitVec.toNat_ofNat]; omega
    obtain ⟨c, hc, c1, -, c3⟩ := exists_of_subWidth_pos hw0
    refine ⟨by omega, by have := len c hc; omega, ?_, ?_⟩
    · rw [hb]; simp [subtableOf]
    · intro e he
      rw [hb]
      simp only [subtableOf, List.mem_map, List.mem_range] at he
      obtain ⟨q, hq, rfl⟩ := he
      unfold subEntry
      split
      · rename_i d hf
        have hd := List.mem_of_find?_eq_some hf
        have hm := List.find?_some hf
        simp only [huffmanSplit, mainSize, Bool.and_eq_true, decide_eq_true_eq] at hm
        obtain ⟨k1, k2, -⟩ := leafEntry_kind (sym d hd) (ok.len_le d hd)
        have := le_subWidth hd hm.1.1 hm.1.2
        exact .inr ⟨k1, by omega, by omega⟩
      · exact .inl rfl
  · rw [Table.nsub, splitTable_subs, List.length_map]; exact subOwners_length _

end split

/-- A trivial table meets the invariant of tables (R134). -/
theorem trivialTable_inv {s : Nat} (hs : s < 4095) : (trivialTable s).Inv := by
  refine ⟨fun _ => ⟨BitVec.ofNat 12 s, ofNat_ne_unoccupied hs, rfl, rfl, fun i => ?_⟩, fun h => absurd rfl h,
    fun u hu => by simp [trivialTable] at hu, by simp [trivialTable, Table.nsub]⟩
  rw [trivialTable, mainAt_mainOf, mkEntry_zero]

/-- The Kraft sum of the first n code lengths is the one of the present symbols (R135). -/
theorem kraftOf_eq (m : CodeLengths) (n : Nat) : kraftOf m n = kraftSum (presentLengths m n) := by
  unfold kraftOf kraftSum presentLengths
  induction List.range n with
  | nil => rfl
  | cons a rest ih =>
    rw [List.map_cons, List.sum_cons, ih, List.filterMap_cons]
    by_cases h : clRead m a = 0
    · simp only [if_pos h, Nat.zero_add]
    · simp only [if_neg h, List.map_cons, List.sum_cons]

/-- Everything BUILD's checks and construction can answer (R133 to R135). -/
theorem buildTable_cases (inc : PIncomplete) (ls : List (Nat × Nat)) :
    (ls = [] ∧ buildTable inc ls = .error .buildEmpty) ∨
    (∃ p, ls = [p] ∧ buildTable inc ls = .ok (trivialTable p.1)) ∨
    (2 ≤ ls.length ∧ 2 ^ 15 < kraftSum ls ∧ buildTable inc ls = .error .buildOversub) ∨
    (2 ≤ ls.length ∧ kraftSum ls < 2 ^ 15 ∧ inc = .reject ∧ buildTable inc ls = .error .buildIncomplete) ∨
    (2 ≤ ls.length ∧ kraftSum ls ≤ 2 ^ 15 ∧ (kraftSum ls = 2 ^ 15 ∨ inc = .accept) ∧
      buildTable inc ls = .ok (splitTable ls)) := by
  match ls with
  | [] => exact .inl ⟨rfl, rfl⟩
  | [p] => exact .inr (.inl ⟨p, rfl, rfl⟩)
  | a :: b :: rest =>
    right; right
    have h2 : 2 ≤ (a :: b :: rest).length := by simp
    generalize a :: b :: rest = l at h2 ⊢
    match l, h2 with
    | a :: b :: rest, h2 =>
    simp only [buildTable, maxCodeLength]
    split
    · rename_i h; exact .inl ⟨h2, h, rfl⟩
    · split
      · rename_i h; exact .inr (.inl ⟨h2, h.1, h.2, rfl⟩)
      · rename_i h1 h
        refine .inr (.inr ⟨h2, by omega, ?_, rfl⟩)
        rcases Nat.lt_or_ge (kraftSum (a :: b :: rest)) (2 ^ 15) with hlt | hge
        · right; cases inc
          · rfl
          · exact absurd ⟨hlt, rfl⟩ h
        · left; omega

/-- A table BUILD answers meets the invariant of tables. -/
theorem buildTable_inv {inc : PIncomplete} {ls : List (Nat × Nat)} {t : Table} (h : LengthsOk ls)
    (hs : ∀ p ∈ ls, p.1 < 4095) (hb : buildTable inc ls = .ok t) : t.Inv := by
  rcases buildTable_cases inc ls with ⟨-, e⟩ | ⟨p, rfl, e⟩ | ⟨-, -, e⟩ | ⟨-, -, -, e⟩ | ⟨h2, hk, -, e⟩
  · simp [e] at hb
  · rw [e] at hb; cases hb
    exact trivialTable_inv (hs p (by simp))
  · simp [e] at hb
  · simp [e] at hb
  · rw [e] at hb; cases hb
    exact splitTable_inv h hk (by rintro rfl; simp at h2) hs

/-- The table of a slot built from two symbols or more (R136 to R143). -/
theorem BuiltSlot.split {s : State} {slot : BitVec 4} {m : CodeLengths} {cnt : Nat} (h : BuiltSlot s slot m cnt)
    (h2 : 2 ≤ (presentLengths m cnt).length) :
    kraftSum (presentLengths m cnt) ≤ 2 ^ 15 ∧ CodesOk (canonicalCodes (presentLengths m cnt)) ∧
      (slotAt s slot.toNat).table = splitTable (presentLengths m cnt) := by
  have hb := h.table
  rcases buildTable_cases s.config.pIncomplete (presentLengths m cnt) with
    ⟨e0, -⟩ | ⟨p, e0, -⟩ | ⟨-, -, e⟩ | ⟨-, -, -, e⟩ | ⟨-, hk, -, e⟩
  · rw [e0] at h2; simp at h2
  · rw [e0] at h2; simp at h2
  · simp [e] at hb
  · simp [e] at hb
  · rw [e] at hb; injection hb with hb
    exact ⟨hk, canonicalCodes_ok (presentLengths_ok m cnt) hk, hb.symm⟩

/-- Symbols of a slot's codes are below 4095. -/
theorem BuiltSlot.sym_lt {s : State} {slot : BitVec 4} {m : CodeLengths} {cnt : Nat} (h : BuiltSlot s slot m cnt)
    {c : Code} (hc : c ∈ canonicalCodes (presentLengths m cnt)) : c.sym < 4095 := by
  have h1 := presentLengths_lt (canonicalCodes_sym_len (presentLengths_ok m cnt) hc).1
  have h2 := h.count_le
  dsimp only at h1; omega

/-- The place of a number in the numbers below n that a test accepts. -/
theorem idxOf_filter_range (f : Nat → Bool) {n i : Nat} (hi : i < n) (hf : f i = true) :
    ((List.range n).filter f).idxOf i = ((List.range i).filter f).length := by
  obtain ⟨k, rfl⟩ := Nat.exists_eq_add_of_le hi.le
  rw [List.range_add, List.filter_append, List.idxOf_append_of_notMem (by simp)]
  cases k with
  | zero => omega
  | succ k =>
    rw [List.range_succ_eq_map, List.map_cons, Nat.add_zero, List.filter_cons_of_pos hf, List.idxOf_cons_self]
    rfl

/-- A main index has a subtable exactly when it is the first 8 bits of a long code (R138). -/
theorem subWidth_pos_iff {cs : List Code} {p : Nat} : 0 < subWidth cs p ↔ ∃ c ∈ cs, 8 < c.len ∧ c.rev % 256 = p := by
  constructor
  · intro h; obtain ⟨c, hc, h1, h2, -⟩ := exists_of_subWidth_pos h; exact ⟨c, hc, h1, h2⟩
  · rintro ⟨c, hc, h1, h2⟩; have := le_subWidth hc h1 h2; omega

/-- A main index no short code reaches (R139, R142). -/
theorem mainEntry_of_no_short {cs : List Code} {p : Nat} (h1 : ∀ c ∈ cs, c.len ≤ 8 → p % 2 ^ c.len ≠ c.rev) :
    mainEntry cs (subOwners cs) p =
      if p < 256 ∧ 0 < subWidth cs p then mkEntry ((subOwners cs).idxOf p) 15 else unoccupied := by
  unfold mainEntry
  rw [List.find?_eq_none.2 fun d hd => ?_]
  · simp [mem_subOwners]
  · simp only [huffmanSplit, Bool.and_eq_true, decide_eq_true_eq, not_and]
    exact h1 d hd

/-- An entry as the number R32 writes. -/
theorem mkEntry_eq_ofNat (a b : Nat) (ha : a < 2 ^ 12) (hb : b < 2 ^ 4) :
    mkEntry a b = BitVec.ofNat 16 (a <<< 4 ||| b) := by
  apply BitVec.eq_of_toNat_eq
  rw [mkEntry, BitVec.toNat_append, BitVec.toNat_ofNat, BitVec.toNat_ofNat, BitVec.toNat_ofNat, Nat.mod_eq_of_lt ha,
    Nat.mod_eq_of_lt hb]
  rw [← Nat.shiftLeft_add_eq_or_of_lt hb, Nat.mod_eq_of_lt]
  rw [Nat.shiftLeft_eq]; omega

/-- The subtable behind the indirect entry of a main index (R138, R139). -/
theorem BuiltSlot.subtable {s : State} {slot : BitVec 4} {m : CodeLengths} {cnt : Nat} (hb : BuiltSlot s slot m cnt)
    (h2 : 2 ≤ (presentLengths m cnt).length) {i : BitVec 8}
    (h : ∃ c ∈ canonicalCodes (presentLengths m cnt), 8 < c.len ∧ c.rev % 256 = i.toNat) :
    let cs := canonicalCodes (presentLengths m cnt)
    let t := (slotAt s slot.toNat).table
    let k := (entrySym (mainAt t i)).toNat
    k < t.nsub ∧ subBitsAt t k = subWidth cs i.toNat ∧
      (∀ q, q < 2 ^ subWidth cs i.toNat → subAt t k q = subEntry cs i.toNat q) ∧ i.toNat ∈ subOwners cs ∧
      mainAt t i = mkEntry ((subOwners cs).idxOf i.toNat) 15 := by
  intro cs t k
  obtain ⟨hk, ok, ht⟩ := hb.split h2
  obtain ⟨c, hc, hl, hi⟩ := h
  have hr : c.rev % 2 ^ c.len = c.rev := by
    rw [(canonicalCodes_sym_len (presentLengths_ok m cnt) hc).2.2.2]; exact Nat.mod_eq_of_lt (bitrev_lt _ _)
  obtain ⟨g1, g2⟩ := mainEntry_long ok hc hl hr
  rw [hi] at g1 g2
  have hm : mainAt t i = mkEntry ((subOwners cs).idxOf i.toNat) 15 := by
    show mainAt (slotAt s slot.toNat).table i = _
    rw [ht, splitTable_mainAt, g2]
  have hlt := List.idxOf_lt_length_of_mem g1
  have hk : k = (subOwners cs).idxOf i.toNat := by
    show (entrySym (mainAt t i)).toNat = _
    rw [hm, entrySym_mkEntry, BitVec.toNat_ofNat, Nat.mod_eq_of_lt]
    exact Nat.lt_of_lt_of_le hlt ((subOwners_length _).trans (by omega))
  obtain ⟨e1, e2, e3⟩ := splitTable_sub ok g1
  rw [hk]
  have ht' : t = splitTable (presentLengths m cnt) := ht
  refine ⟨?_, ?_, ?_, g1, hm⟩
  · rw [ht', Table.nsub, splitTable_subs, List.length_map]; exact hlt
  · rw [ht', e2]
  · rw [ht']; exact e3

/-- A subtable index no code reaches is unoccupied (R142). -/
theorem subEntry_of_no_match {cs : List Code} {p q : Nat}
    (h : ∀ c ∈ cs, 8 < c.len → c.rev % 256 = p → q % 2 ^ (c.len - 8) ≠ c.rev / 256) :
    subEntry cs p q = unoccupied := by
  unfold subEntry
  rw [List.find?_eq_none.2 fun d hd => ?_]
  simp only [huffmanSplit, mainSize, Bool.and_eq_true, decide_eq_true_eq, not_and, and_imp]
  exact h d hd

/-- A subtable index a long code reaches holds its leaf (R141). -/
theorem subEntry_of_reaches {cs : List Code} (ok : CodesOk cs) {c : Code} (hc : c ∈ cs) (hl : 8 < c.len) {p q : Nat}
    (hp : c.rev % 256 = p) (hq : q < 2 ^ subWidth cs p) (h : q % 2 ^ (c.len - 8) = c.rev / 256) :
    subEntry cs p q = leafEntry c := by
  have hw := le_subWidth hc hl hp
  have hx := match_of_parts (x := c.rev % 256 + 256 * q) (w := subWidth cs p) hl hw (by omega) (by
    rw [show (c.rev % 256 + 256 * q) / 256 = q by omega, mod_mod_pow hw, h])
  have := subEntry_of_match ok hc hl hx
  rw [show (c.rev % 256 + 256 * q) % 256 = p by omega, show (c.rev % 256 + 256 * q) / 256 = q by omega,
    Nat.mod_eq_of_lt hq] at this
  exact this

/-- A leaf is not the unoccupied entry (R142). -/
theorem leafEntry_ne_unoccupied {c : Code} (h : c.sym < 4095) : leafEntry c ≠ unoccupied := by
  intro e
  have := congrArg entrySym e
  rw [leafEntry, entrySym_mkEntry, entrySym_unoccupied] at this
  exact ofNat_ne_unoccupied h this

/-- NSUB is the number of main indices that are the first 8 bits of a long code (R138, R139). -/
theorem BuiltSlot.nsub_eq {s : State} {slot : BitVec 4} {m : CodeLengths} {cnt : Nat} (hb : BuiltSlot s slot m cnt)
    (h2 : 2 ≤ (presentLengths m cnt).length) :
    (slotAt s slot.toNat).table.nsub = (subOwners (canonicalCodes (presentLengths m cnt))).length := by
  obtain ⟨-, -, ht⟩ := hb.split h2
  rw [ht, Table.nsub, splitTable_subs, List.length_map]

/-- A table whose codes are at most 8 bits long has no subtable (44_inspect.md R181). -/
theorem Table.Inv.nsub_eq_zero {t : Table} (h : t.Inv) (hm : t.maxLen.toNat ≤ 8) : t.nsub = 0 := by
  rw [Table.nsub, List.length_eq_zero_iff, List.eq_nil_iff_forall_not_mem]
  intro u hu
  have h1 := (h.subs u hu).bits_pos
  have h2 := (h.subs u hu).bits_le
  omega

end Sys2Proof.Machine
end

