-- ==== Sys2Proof/Laws/Commands.lean ====
section
/-! SUPPORT. Everything each command can answer: one lemma for each meaning, which later proofs cite instead of unfolding
it. -/

namespace Sys2Proof.Machine

open Sys2Proof

/-- Everything READBITS answers as a next state (40_bitreader.md R105). -/
theorem execReadbits_next {n : BitVec 5} {s t : State} (h : execReadbits n s = .next t) :
    (n = 0 ∧ t = raise .illegalCmd s) ∨
    (n ≠ 0 ∧ s.sfail = true ∧ t = raise .streamFailed s) ∨
    (n ≠ 0 ∧ s.sfail = false ∧ streamBits s < s.pos.toNat + n.toNat ∧ t = raise .eos s) ∨
    (n ≠ 0 ∧ s.sfail = false ∧ s.pos.toNat + n.toNat ≤ streamBits s ∧ Readable s s.pos.toNat n.toNat ∧
      t = finish (BitVec.ofNat 32 (streamValue s s.pos.toNat n.toNat)) .ok (consume n.toNat s)) := by
  unfold execReadbits at h
  split at h
  · cases h; exact .inl ⟨by assumption, rfl⟩
  · rename_i hn
    split at h
    · cases h; exact .inr (.inl ⟨hn, by assumption, rfl⟩)
    · rename_i hs
      rw [Bool.not_eq_true] at hs
      split at h
      · cases h; exact .inr (.inr (.inl ⟨hn, hs, by assumption, rfl⟩))
      · split at h
        · rename_i e _; cases e <;> simp [Stop.outcome] at h
        · rename_i hv
          obtain ⟨hr, rfl⟩ := peek_ok hv
          cases h
          exact .inr (.inr (.inr ⟨hn, hs, by omega, hr, rfl⟩))

/-- READBITS completes where its bits are readable and in the stream (R105). -/
theorem execReadbits_of_readable {n : BitVec 5} {s : State} (hn : n ≠ 0) (hs : s.sfail = false)
    (hp : s.pos.toNat + n.toNat ≤ streamBits s) (hr : Readable s s.pos.toNat n.toNat) :
    execReadbits n s =
      .next (finish (BitVec.ofNat 32 (streamValue s s.pos.toNat n.toNat)) .ok (consume n.toNat s)) := by
  unfold execReadbits
  rw [if_neg hn, if_neg (by simp [hs]), if_neg (not_lt.2 hp), peek_of_readable hr]

/-- Everything DECODE answers as a next state (43_decode.md R160). -/
theorem execDecode_next {slot : BitVec 4} {s t : State} (h : execDecode slot s = .next t) :
    let tbl := (slotAt s slot.toNat).table
    let e := lookupEntry tbl (streamValue s s.pos.toNat tbl.maxLen.toNat)
    (slotOk s slot = false ∧ t = raise .illegalCmd s) ∨
    (slotOk s slot = true ∧ (slotAt s slot.toNat).valid = false ∧ t = raise .slotInvalid s) ∨
    (slotOk s slot = true ∧ (slotAt s slot.toNat).valid = true ∧ s.sfail = true ∧ t = raise .streamFailed s) ∨
    (slotOk s slot = true ∧ (slotAt s slot.toNat).valid = true ∧ s.sfail = false ∧
      Readable s s.pos.toNat tbl.maxLen.toNat ∧
      ((entrySym e = unoccupiedSym ∧ t = raise .invalidCode s) ∨
       (entrySym e ≠ unoccupiedSym ∧ streamBits s < s.pos.toNat + (entryLn e).toNat ∧ t = raise .eos s) ∨
       (entrySym e ≠ unoccupiedSym ∧ s.pos.toNat + (entryLn e).toNat ≤ streamBits s ∧
         t = finish ((entrySym e).setWidth 32) .ok (consume (entryLn e).toNat s)))) := by
  intro tbl e
  unfold execDecode at h
  split at h
  · rename_i h1; cases h; exact .inl ⟨by simpa using h1, rfl⟩
  · rename_i h1
    have h1' : slotOk s slot = true := by simpa using h1
    split at h
    · rename_i h2; cases h; exact .inr (.inl ⟨h1', by simpa using h2, rfl⟩)
    · rename_i h2
      have h2' : (slotAt s slot.toNat).valid = true := by simpa using h2
      split at h
      · rename_i h3; cases h; exact .inr (.inr (.inl ⟨h1', h2', h3, rfl⟩))
      · rename_i h3
        rw [Bool.not_eq_true] at h3
        split at h
        · rename_i x _; cases x <;> simp [Stop.outcome] at h
        · rename_i x hx
          obtain ⟨hr, rfl⟩ := peek_ok hx
          refine .inr (.inr (.inr ⟨h1', h2', h3, hr, ?_⟩))
          dsimp only at h
          split at h
          · cases h; exact .inl ⟨by assumption, rfl⟩
          · rename_i h4
            split at h
            · cases h; exact .inr (.inl ⟨h4, by assumption, rfl⟩)
            · rename_i h5; cases h; exact .inr (.inr ⟨h4, not_lt.1 h5, rfl⟩)

/-- DECODE completes where its lookup finds a leaf that is in the stream (R160, R164). -/
theorem execDecode_of_leaf {slot : BitVec 4} {s : State} {e : Entry} (h1 : slotOk s slot = true)
    (h2 : (slotAt s slot.toNat).valid = true) (h3 : s.sfail = false)
    (hr : Readable s s.pos.toNat (slotAt s slot.toNat).table.maxLen.toNat)
    (he : lookupEntry (slotAt s slot.toNat).table
      (streamValue s s.pos.toNat (slotAt s slot.toNat).table.maxLen.toNat) = e)
    (hu : entrySym e ≠ unoccupiedSym) (hp : s.pos.toNat + (entryLn e).toNat ≤ streamBits s) :
    execDecode slot s = .next (finish ((entrySym e).setWidth 32) .ok (consume (entryLn e).toNat s)) := by
  unfold execDecode
  rw [if_neg (by simp [h1]), if_neg (by simp [h2]), if_neg (by simp [h3]), peek_of_readable hr]
  dsimp only
  rw [he, if_neg hu, if_neg (not_lt.2 hp)]

/-- Everything BUILD answers: it always completes (42_build.md R130). -/
theorem execBuild_next (slot : BitVec 4) (cnt : BitVec 13) (s : State) :
    ((slotOk s slot && cntOk s cnt) = false ∧ execBuild slot cnt s = .next (raise .illegalCmd s)) ∨
    ((slotOk s slot && cntOk s cnt) = true ∧
      ((∃ e, buildTable s.config.pIncomplete (presentLengths s.clmem cnt.toNat) = .error e ∧
        (e = .buildEmpty ∨ e = .buildOversub ∨ e = .buildIncomplete) ∧
        execBuild slot cnt s = .next (raise e (invalidateSlot s slot.toNat))) ∨
       (∃ t, buildTable s.config.pIncomplete (presentLengths s.clmem cnt.toNat) = .ok t ∧
        execBuild slot cnt s = .next (finish 0 .ok (installTable s slot.toNat t))))) := by
  cases h : (slotOk s slot && cntOk s cnt)
  · exact .inl ⟨rfl, by rw [execBuild, h]; rfl⟩
  · refine .inr ⟨rfl, ?_⟩
    unfold execBuild
    rw [h, if_pos rfl]
    rcases buildTable_cases s.config.pIncomplete (presentLengths s.clmem cnt.toNat) with
      ⟨-, e⟩ | ⟨p, -, e⟩ | ⟨-, -, e⟩ | ⟨-, -, -, e⟩ | ⟨-, -, -, e⟩
    · exact .inl ⟨_, e, by simp, by rw [e]⟩
    · exact .inr ⟨_, e, by rw [e]⟩
    · exact .inl ⟨_, e, by simp, by rw [e]⟩
    · exact .inl ⟨_, e, by simp, by rw [e]⟩
    · exact .inr ⟨_, e, by rw [e]⟩

/-- BUILD with legal operands commits the table its lengths make (R143). -/
theorem execBuild_of_table {slot : BitVec 4} {cnt : BitVec 13} {s : State}
    (h1 : slot.toNat < s.config.numSlots) (h2 : cnt.toNat ≤ s.config.maxSymbol) {t : Table}
    (h : buildTable s.config.pIncomplete (presentLengths s.clmem cnt.toNat) = .ok t) :
    execBuild slot cnt s = .next (finish 0 .ok (installTable s slot.toNat t)) := by
  have hok : (slotOk s slot && cntOk s cnt) = true := by simp [slotOk, cntOk, h1, h2]
  rw [execBuild, if_pos hok, h]

/-- BUILD with legal operands ends with the error its lengths make (R131, R202). -/
theorem execBuild_of_error {slot : BitVec 4} {cnt : BitVec 13} {s : State}
    (h1 : slot.toNat < s.config.numSlots) (h2 : cnt.toNat ≤ s.config.maxSymbol) {e : ErrorCode}
    (h : buildTable s.config.pIncomplete (presentLengths s.clmem cnt.toNat) = .error e) :
    execBuild slot cnt s = .next (raise e (invalidateSlot s slot.toNat)) := by
  have hok : (slotOk s slot && cntOk s cnt) = true := by simp [slotOk, cntOk, h1, h2]
  rw [execBuild, if_pos hok, h]

/-- Everything the inspection commands answer: they write RESULT and LASTERR (44_inspect.md). -/
theorem execRdmain_next (slot : BitVec 4) (idx : BitVec 8) (s : State) :
    ∃ v e, execRdmain slot idx s = .next { s with result := v, lastErr := e } := by
  unfold execRdmain; split
  · exact ⟨_, _, rfl⟩
  · split <;> exact ⟨_, _, rfl⟩

theorem execRdsub_next (slot : BitVec 4) (sub : BitVec 8) (idx : BitVec 7) (s : State) :
    ∃ v e, execRdsub slot sub idx s = .next { s with result := v, lastErr := e } := by
  unfold execRdsub; dsimp only; split
  · exact ⟨_, _, rfl⟩
  · split
    · exact ⟨_, _, rfl⟩
    · split <;> exact ⟨_, _, rfl⟩

theorem execTinfo_next (slot : BitVec 4) (s : State) :
    ∃ v e, execTinfo slot s = .next { s with result := v, lastErr := e } := by
  unfold execTinfo; split
  · exact ⟨_, _, rfl⟩
  · split <;> exact ⟨_, _, rfl⟩

end Sys2Proof.Machine
end

