-- ==== Sys2Proof/Laws/Decoding.lean ====
section
/-! SUPPORT. Words and their fields as numbers (30_encoding.md R81). -/

namespace Sys2Proof

/-- A concatenation as a number: the more significant part is scaled past the other (00_scope.md R10). -/
theorem toNat_append_eq {v w : Nat} (x : BitVec v) (y : BitVec w) : (x ++ y).toNat = x.toNat * 2 ^ w + y.toNat := by
  rw [BitVec.toNat_append, ← Nat.shiftLeft_add_eq_or_of_lt y.isLt, Nat.shiftLeft_eq]

/-- A field of a word as a number (00_scope.md R10). -/
theorem toNat_field {n : Nat} (w : BitVec n) (s l : Nat) : (w.extractLsb' s l).toNat = w.toNat / 2 ^ s % 2 ^ l := by
  rw [BitVec.extractLsb'_toNat, Nat.shiftRight_eq_div_pow]

theorem field_eq_iff {n : Nat} (w : BitVec n) (s l : Nat) (v : BitVec l) :
    w.extractLsb' s l = v ↔ w.toNat / 2 ^ s % 2 ^ l = v.toNat := by
  rw [← toNat_field]
  exact ⟨congrArg _, BitVec.eq_of_toNat_eq⟩

theorem opField_toNat (w : Word) : (opField w).toNat = w.toNat / 2 ^ 28 := by
  have := w.isLt
  rw [opField, toNat_field]; omega

theorem slotField_toNat (w : Word) : (slotField w).toNat = w.toNat / 2 ^ 24 % 2 ^ 4 := toNat_field w 24 4

/-- A command passes the reserved-bit check exactly when the bits are 0 (R84 (b)). -/
theorem whenReserved_eq_ok {n : Nat} (r : BitVec n) (i j : Instr) :
    whenReserved r i = .ok j ↔ r = 0 ∧ i = j := by
  unfold whenReserved; split <;> simp_all

end Sys2Proof
end

