-- ==== Sys2Proof/Laws/Invariant.lean ====
section
/-! SUPPORT. Each named operation keeps the invariant of Safety.lean. -/

namespace Sys2Proof.Machine

open Sys2Proof

/-- The invariant of a state put together from the bit reader's part and the rest. -/
theorem State.Inv.mk' {s : State} (config_wf : s.config.wf = true) (slots_length : s.slots.length = s.config.numSlots)
    (tables : ∀ v ∈ s.slots, v.valid = true → v.table.Inv) (clmem_wf : CodeLengths.wf s.clmem = true)
    (clmem_keys : ∀ x ∈ s.clmem, x.1 < s.config.maxSymbol) (stream_wf : Memory.wf s.stream = true)
    (stream_keys : ∀ x ∈ s.stream, x.1 < s.config.streamBytes) (len_le : s.len.toNat ≤ s.config.streamBytes)
    (pos_le : s.pos.toNat ≤ streamBits s) (sfail_eq : s.sfail = (s.seenEos || s.seenInvalid))
    (seen_once : (s.seenEos && s.seenInvalid) = false) (stale_rising : s.stale.Pairwise (· < ·))
    (stale_active : ∀ i ∈ s.stale, i < s.len.toNat ∧ written s i = true) (reader : ReaderInv s) : s.Inv :=
  ⟨config_wf, slots_length, tables, clmem_wf, clmem_keys, stream_wf, stream_keys, len_le, pos_le, sfail_eq, seen_once,
    stale_rising, stale_active, reader.pos, reader.cur, reader.bits⟩

/-- The invariant says nothing of RESULT, LASTERR, the ghost bits, `events` and `readData`. -/
theorem State.Inv.congr {s : State} (h : s.Inv) (v : Word) (e : ErrorCode) (f r : Bool) (es : List Event)
    (d : Option Word) :
    State.Inv { s with result := v, lastErr := e, faulted := f, refused := r, events := es, readData := d } :=
  ⟨h.config_wf, h.slots_length, h.tables, h.clmem_wf, h.clmem_keys, h.stream_wf, h.stream_keys, h.len_le, h.pos_le,
    h.sfail_eq, h.seen_once, h.stale_rising, h.stale_active, h.reader_pos, h.reader_cur, h.reader_bits⟩

theorem finish_inv {s : State} (h : s.Inv) (v : Word) (e : ErrorCode) : (finish v e s).Inv :=
  h.congr v e s.faulted s.refused s.events s.readData

/-- Raising an error keeps the invariant; the two that set sticky bits are raised only while SFAIL = 0 (R25, R206). -/
theorem raise_inv {s : State} (h : s.Inv) {e : ErrorCode} (he : (e = .eos ∨ e = .invalidCode) → s.sfail = false) :
    (raise e s).Inv := by
  by_cases h1 : e = .eos ∨ e = .invalidCode
  · have hf := he h1
    have hs := h.sfail_eq
    rw [hf, eq_comm, Bool.or_eq_false_iff] at hs
    refine finish_inv ?_ (-1) e
    rcases h1 with rfl | rfl
    · exact ⟨h.config_wf, h.slots_length, h.tables, h.clmem_wf, h.clmem_keys, h.stream_wf, h.stream_keys, h.len_le,
        h.pos_le, rfl, by simpa [setSticky] using hs.2, h.stale_rising, h.stale_active, h.reader_pos, h.reader_cur,
        h.reader_bits⟩
    · exact ⟨h.config_wf, h.slots_length, h.tables, h.clmem_wf, h.clmem_keys, h.stream_wf, h.stream_keys, h.len_le,
        h.pos_le, by simp [setSticky], by simpa [setSticky] using hs.1, h.stale_rising, h.stale_active, h.reader_pos,
        h.reader_cur, h.reader_bits⟩
  · rw [not_or] at h1
    rw [raise_plain h1.1 h1.2]
    exact h.congr _ _ _ _ _ _

theorem startStream_inv {s : State} (h : s.Inv) {len : BitVec 28} (hl : len.toNat ≤ s.config.streamBytes) :
    (clearSticky (startStream len s)).Inv :=
  State.Inv.mk' (by simpa using h.config_wf) (by simpa using h.slots_length) (by simpa using h.tables)
    (by simpa using h.clmem_wf) (by simpa using h.clmem_keys) (by simpa using h.stream_wf)
    (by simpa using h.stream_keys) (by simpa using hl) (by simp) (by simp) (by simp) (by simp) (by simp)
    ⟨(startStream_reader len s).pos, (startStream_reader len s).cur, (startStream_reader len s).bits⟩

theorem consume_inv {s : State} (h : s.Inv) {n : Nat} (hn : s.pos.toNat + n ≤ streamBits s) : (consume n s).Inv := by
  refine State.Inv.mk' (by simpa using h.config_wf) (by simpa using h.slots_length) (by simpa using h.tables)
    (by simpa using h.clmem_wf) (by simpa using h.clmem_keys) (by simpa using h.stream_wf)
    (by simpa using h.stream_keys) (by simpa using h.len_le) ?_ (by simpa using h.sfail_eq)
    (by simpa using h.seen_once) (by simpa using h.stale_rising) ?_ (consume_reader h.reader hn)
  · rw [consume_pos, consume_pos_toNat hn, streamBits_eq_of_len (consume_len n s)]; exact hn
  · intro i hi
    rw [consume_len, written_congr (consume_stream n s)]
    exact h.stale_active i (by simpa using hi)

theorem refill_inv {s : State} (h : s.Inv) (k : Nat) : (refill s k).Inv := by
  refine State.Inv.mk' (by simpa using h.config_wf) (by simpa using h.slots_length) (by simpa using h.tables)
    (by simpa using h.clmem_wf) (by simpa using h.clmem_keys) (by simpa using h.stream_wf)
    (by simpa using h.stream_keys) (by simpa using h.len_le) ?_ (by simpa using h.sfail_eq)
    (by simpa using h.seen_once) (by simpa using h.stale_rising) ?_ (refill_reader h.reader k)
  · rw [refill_pos, refill_streamBits]; exact h.pos_le
  · intro i hi
    rw [refill_len, written_congr (refill_stream s k)]
    exact h.stale_active i (by simpa using hi)

theorem writeStreamByte_inv {s : State} (h : s.Inv) (i : Nat) (b : Byte) : (writeStreamByte s i b).Inv := by
  refine State.Inv.mk' (by simpa using h.config_wf) (by simpa using h.slots_length) (by simpa using h.tables)
    (by simpa using h.clmem_wf) (by simpa using h.clmem_keys) (writeStreamByte_wf h.stream_wf i b) ?_
    (by simpa using h.len_le) ?_ (by simpa using h.sfail_eq) (by simpa using h.seen_once) ?_ ?_
    (writeStreamByte_reader h.reader i b)
  · intro x hx
    rw [writeStreamByte_config]
    unfold writeStreamByte at hx
    split at hx
    · rcases mem_cellsPut hx with rfl | hx
      · assumption
      · exact h.stream_keys x hx
    · exact h.stream_keys x hx
  · rw [writeStreamByte_pos, streamBits_eq_of_len (writeStreamByte_len s i b)]; exact h.pos_le
  · unfold writeStreamByte
    split
    · dsimp only; split
      · exact indexInsert_rising h.stale_rising i
      · exact h.stale_rising
    · exact h.stale_rising
  · intro j hj
    rw [← isStale_iff, isStale_writeStreamByte, Bool.or_eq_true, isStale_iff, decide_eq_true_iff] at hj
    rw [writeStreamByte_len, written, streamByte_writeStreamByte]
    rcases hj with hj | ⟨rfl, h1, -, h3⟩
    · have := h.stale_active j hj
      refine ⟨this.1, ?_⟩
      split
      · rfl
      · exact this.2
    · exact ⟨h3, by simp [h1]⟩

theorem writeStreamWord_inv {s : State} (h : s.Inv) (i : Nat) (v : Word) : (writeStreamWord i v s).Inv :=
  writeStreamByte_inv (writeStreamByte_inv (writeStreamByte_inv (writeStreamByte_inv h _ _) _ _) _ _) _ _

theorem setSlot_inv {s : State} (h : s.Inv) (t : Nat) {v : Slot} (hv : v.valid = true → v.table.Inv) :
    (setSlot s t v).Inv := by
  refine ⟨h.config_wf, by simpa using h.slots_length, fun u hu hval => ?_, h.clmem_wf, h.clmem_keys, h.stream_wf,
    h.stream_keys, h.len_le, h.pos_le, h.sfail_eq, h.seen_once, h.stale_rising, h.stale_active, h.reader_pos,
    h.reader_cur, h.reader_bits⟩
  rcases List.mem_or_eq_of_mem_set (by simpa using hu) with hu | rfl
  · exact h.tables u hu hval
  · exact hv hval

theorem invalidateSlot_inv {s : State} (h : s.Inv) (t : Nat) : (invalidateSlot s t).Inv :=
  setSlot_inv h t fun e => by simp at e

theorem installTable_inv {s : State} (h : s.Inv) (t : Nat) {tbl : Table} (ht : tbl.Inv) : (installTable s t tbl).Inv :=
  setSlot_inv h t fun _ => ht

/-- Code-length memory may be replaced by any canonical one within MAX_SYMBOL. -/
theorem clmem_inv {s : State} (h : s.Inv) {m : CodeLengths} (hw : CodeLengths.wf m = true)
    (hk : ∀ x ∈ m, x.1 < s.config.maxSymbol) : State.Inv { s with clmem := m } :=
  ⟨h.config_wf, h.slots_length, h.tables, hw, hk, h.stream_wf, h.stream_keys, h.len_le, h.pos_le, h.sfail_eq,
    h.seen_once, h.stale_rising, h.stale_active, h.reader_pos, h.reader_cur, h.reader_bits⟩

theorem clWrite_keys {s : State} (h : s.Inv) {j : Nat} (hj : j < s.config.maxSymbol) (cl : BitVec 4) :
    ∀ x ∈ clWrite s.clmem j cl, x.1 < s.config.maxSymbol := by
  intro x hx
  rcases mem_clWrite hx with e | hx
  · omega
  · exact h.clmem_keys x hx

/-- MAX_SYMBOL is at most 4095 (00_scope.md R8). -/
theorem Config.maxSymbol_le {c : Config} (h : c.wf = true) : c.maxSymbol ≤ 4095 := by
  simp [Config.wf] at h; omega

end Sys2Proof.Machine
end

