-- ==== Sys2Proof/Laws/PerInstr.lean ====
section
/-! SUPPORT. Statements made for each command. -/

namespace Sys2Proof.Laws.Encoding

open Sys2Proof

/-- The word of each command as a number (30_encoding.md R88). -/
def number : Instr → Nat
  | .nop => 0x0 * 2 ^ 28
  | .stream len => 0x1 * 2 ^ 28 + len.toNat
  | .readbits n => 0x2 * 2 ^ 28 + n.toNat
  | .setcl sym cl => 0x3 * 2 ^ 28 + sym.toNat * 2 ^ 4 + cl.toNat
  | .clrcl => 0x4 * 2 ^ 28
  | .build slot cnt => 0x5 * 2 ^ 28 + slot.toNat * 2 ^ 24 + cnt.toNat
  | .decode slot => 0x6 * 2 ^ 28 + slot.toNat * 2 ^ 24
  | .rdmain slot idx => 0x7 * 2 ^ 28 + slot.toNat * 2 ^ 24 + idx.toNat
  | .rdsub slot sub idx => 0x8 * 2 ^ 28 + slot.toNat * 2 ^ 24 + sub.toNat * 2 ^ 7 + idx.toNat
  | .tinfo slot => 0x9 * 2 ^ 28 + slot.toNat * 2 ^ 24

/-- The encoder gives the word of R88. -/
def Statement (i : Instr) : Prop := (encode i).toNat = number i

theorem nop : Statement .nop := rfl

theorem stream (len : BitVec 28) : Statement (.stream len) := by
  simp only [Statement, encode, number, toNat_append_eq, BitVec.toNat_ofNat]

theorem readbits (n : BitVec 5) : Statement (.readbits n) := by
  simp only [Statement, encode, number, toNat_append_eq, BitVec.toNat_ofNat]; omega

theorem setcl (sym : BitVec 12) (cl : BitVec 4) : Statement (.setcl sym cl) := by
  simp only [Statement, encode, number, toNat_append_eq, BitVec.toNat_ofNat]; omega

theorem clrcl : Statement .clrcl := rfl

theorem build (slot : BitVec 4) (cnt : BitVec 13) : Statement (.build slot cnt) := by
  simp only [Statement, encode, number, toNat_append_eq, BitVec.toNat_ofNat]; omega

theorem decode (slot : BitVec 4) : Statement (.decode slot) := by
  simp only [Statement, encode, number, toNat_append_eq, BitVec.toNat_ofNat]; omega

theorem rdmain (slot : BitVec 4) (idx : BitVec 8) : Statement (.rdmain slot idx) := by
  simp only [Statement, encode, number, toNat_append_eq, BitVec.toNat_ofNat]; omega

theorem rdsub (slot : BitVec 4) (sub : BitVec 8) (idx : BitVec 7) : Statement (.rdsub slot sub idx) := by
  simp only [Statement, encode, number, toNat_append_eq, BitVec.toNat_ofNat]; omega

theorem tinfo (slot : BitVec 4) : Statement (.tinfo slot) := by
  simp only [Statement, encode, number, toNat_append_eq, BitVec.toNat_ofNat]; omega

end Sys2Proof.Laws.Encoding
end

