-- ==== Sys2Proof/Laws/Step.lean ====
section
/-! SUPPORT. Everything a step can do, and what no command touches: later proofs cite these instead of unfolding the bus. -/

namespace Sys2Proof.Machine

open Sys2Proof

theorem next_inj {s t : State} (h : (Host.Outcome.next s : Host.Outcome State Fault Refusal) = .next t) : t = s :=
  (Host.Outcome.next.inj h).symm

/-! ### Commands -/

/-- No command touches the parameters, stream memory, the ghost bits, or the model's own fields (60_exceptions.md R210). -/
theorem exec_keeps {s t : State} {i : Instr} (h : exec i s = .next t) :
    t.config = s.config ∧ t.stream = s.stream ∧ t.faulted = s.faulted ∧ t.refused = s.refused ∧
      t.events = s.events ∧ t.readData = s.readData := by
  cases i with
  | nop => rw [next_inj h]; simp
  | stream len => simp only [exec, execStream] at h; split at h <;> rw [next_inj h] <;> simp
  | readbits n =>
    rcases execReadbits_next h with ⟨-, rfl⟩ | ⟨-, -, rfl⟩ | ⟨-, -, -, rfl⟩ | ⟨-, -, -, -, rfl⟩ <;> simp
  | setcl sym cl => simp only [exec, execSetcl] at h; split at h <;> rw [next_inj h] <;> simp
  | clrcl => rw [next_inj h]; simp
  | build slot cnt =>
    rcases execBuild_next slot cnt s with ⟨-, e⟩ | ⟨-, ⟨_, -, -, e⟩ | ⟨_, -, e⟩⟩ <;> rw [next_inj (e.symm.trans h)] <;> simp
  | decode slot =>
    rcases execDecode_next h with ⟨-, rfl⟩ | ⟨-, -, rfl⟩ | ⟨-, -, -, rfl⟩ |
      ⟨-, -, -, -, ⟨-, rfl⟩ | ⟨-, -, rfl⟩ | ⟨-, -, rfl⟩⟩ <;> simp
  | rdmain slot idx => obtain ⟨_, _, e⟩ := execRdmain_next slot idx s; rw [next_inj (e.symm.trans h)]; simp
  | rdsub slot sub idx => obtain ⟨_, _, e⟩ := execRdsub_next slot sub idx s; rw [next_inj (e.symm.trans h)]; simp
  | tinfo slot => obtain ⟨_, _, e⟩ := execTinfo_next slot s; rw [next_inj (e.symm.trans h)]; simp

/-- Every command keeps the invariant. -/
theorem exec_inv {s t : State} {i : Instr} (hs : s.Inv) (h : exec i s = .next t) : t.Inv := by
  cases i with
  | nop => rw [next_inj h]; exact finish_inv hs _ _
  | stream len =>
    simp only [exec, execStream] at h
    split at h <;> rw [next_inj h]
    · rename_i hl; exact finish_inv (startStream_inv hs (by simpa [lenOk] using hl)) _ _
    · exact raise_inv hs (by simp)
  | readbits n =>
    rcases execReadbits_next h with ⟨-, rfl⟩ | ⟨-, -, rfl⟩ | ⟨-, hf, -, rfl⟩ | ⟨-, -, hp, -, rfl⟩
    · exact raise_inv hs (by simp)
    · exact raise_inv hs (by simp)
    · exact raise_inv hs fun _ => hf
    · exact finish_inv (consume_inv hs hp) _ _
  | setcl sym cl =>
    simp only [exec, execSetcl] at h
    split at h <;> rw [next_inj h]
    · rename_i hl
      exact finish_inv (clmem_inv hs (clWrite_wf hs.clmem_wf _ _) (clWrite_keys hs (by simpa [symOk] using hl) _)) _ _
    · exact raise_inv hs (by simp)
  | clrcl => rw [next_inj h]; exact finish_inv (clmem_inv hs rfl (by simp)) _ _
  | build slot cnt =>
    rcases execBuild_next slot cnt s with ⟨-, e⟩ | ⟨hok, ⟨_, -, he, e⟩ | ⟨tbl, ht, e⟩⟩ <;> rw [next_inj (e.symm.trans h)]
    · exact raise_inv hs (by simp)
    · exact raise_inv (invalidateSlot_inv hs _) (by rcases he with rfl | rfl | rfl <;> simp)
    · refine finish_inv (installTable_inv hs _ (buildTable_inv (presentLengths_ok _ _) (fun p hp => ?_) ht)) _ _
      have h1 := presentLengths_lt hp
      have h2 := Config.maxSymbol_le hs.config_wf
      simp [cntOk] at hok; omega
  | decode slot =>
    rcases execDecode_next h with ⟨-, rfl⟩ | ⟨-, -, rfl⟩ | ⟨-, -, -, rfl⟩ |
      ⟨-, -, hf, -, ⟨-, rfl⟩ | ⟨-, -, rfl⟩ | ⟨-, hp, rfl⟩⟩
    · exact raise_inv hs (by simp)
    · exact raise_inv hs (by simp)
    · exact raise_inv hs (by simp)
    · exact raise_inv hs fun _ => hf
    · exact raise_inv hs fun _ => hf
    · exact finish_inv (consume_inv hs hp) _ _
  | rdmain slot idx =>
    obtain ⟨_, _, e⟩ := execRdmain_next slot idx s; rw [next_inj (e.symm.trans h)]; exact hs.congr _ _ _ _ _ _
  | rdsub slot sub idx =>
    obtain ⟨_, _, e⟩ := execRdsub_next slot sub idx s; rw [next_inj (e.symm.trans h)]; exact hs.congr _ _ _ _ _ _
  | tinfo slot => obtain ⟨_, _, e⟩ := execTinfo_next slot s; rw [next_inj (e.symm.trans h)]; exact hs.congr _ _ _ _ _ _

/-! ### Host accesses -/

/-- The addresses of the stream window (20_memory.md R61). -/
theorem inWindow_iff (c : Config) (a : Word) :
    inWindow c a = true ↔ windowBase ≤ a.toNat ∧ a.toNat < windowBase + windowSize c := by
  simp [inWindow]

theorem hostWrite_cmd (v : Word) (s : State) : hostWrite 0 v s = runCommand v s := rfl

theorem hostWrite_window {a : Word} {s : State} (h : inWindow s.config a = true) (v : Word) :
    hostWrite a v s = .next (writeStreamWord (a.toNat - windowBase) v s) := by
  unfold hostWrite
  rw [if_neg, if_pos h]
  rintro rfl
  rw [inWindow_iff] at h
  exact absurd h.1 (by decide)

theorem hostWrite_ignored {a : Word} {s : State} (h0 : a ≠ 0) (h : inWindow s.config a = false) (v : Word) :
    hostWrite a v s = .next s := by
  unfold hostWrite
  rw [if_neg h0, if_neg (by rw [h]; exact Bool.false_ne_true)]

theorem hostRead_register {a : Word} {s : State} (h : inWindow s.config a = false) :
    hostRead a s = .next { s with readData := some (registerRead s a) } := by
  unfold hostRead
  rw [if_neg (by rw [h]; exact Bool.false_ne_true)]

theorem hostRead_window {a v : Word} {s : State} (h : inWindow s.config a = true)
    (hv : windowWord s (a.toNat - windowBase) = some v) : hostRead a s = .next { s with readData := some v } := by
  unfold hostRead
  rw [if_pos h, hv]

theorem hostRead_unwritten {a : Word} {s : State} (h : inWindow s.config a = true)
    (hv : windowWord s (a.toNat - windowBase) = none) : hostRead a s = .fault .unwrittenStreamByte := by
  unfold hostRead
  rw [if_pos h, hv]

theorem takeEvent_read {a : Word} {b : Nat} (h : shapeOk a b = true) (s : State) :
    takeEvent (.access false (.read a b)) s = hostRead a s := if_pos h

theorem takeEvent_write {a : Word} {b : Nat} (h : shapeOk a b = true) (v : Word) (s : State) :
    takeEvent (.access false (.write a b v)) s = hostWrite a v s := if_pos h

/-- Everything an event that answers a next state can have been. -/
theorem takeEvent_next {e : Event} {s t : State} (h : takeEvent e s = .next t) :
    (e = .reset ∧ t = resetBlock s) ∨
    (∃ n, e = .refill n ∧ t = refill s n) ∨
    (∃ a b d, e = .access false (.read a b) ∧ t = { s with readData := some d }) ∨
    (∃ w, e = .access false (.write 0 4 w) ∧ runCommand w s = .next t) ∨
    (∃ a b v, e = .access false (.write a b v) ∧ a ≠ 0 ∧ ((∃ i, t = writeStreamWord i v s) ∨ t = s)) := by
  cases e with
  | reset => exact .inl ⟨rfl, next_inj h⟩
  | refill n => exact .inr (.inl ⟨n, rfl, next_inj h⟩)
  | access r x =>
    right; right
    cases r with
    | true => simp [takeEvent] at h
    | false =>
      cases x with
      | read a b =>
        left
        cases hsh : shapeOk a b with
        | false => simp [takeEvent, hostAccess, hsh] at h
        | true =>
          rw [takeEvent_read hsh] at h
          cases hw : inWindow s.config a with
          | false => rw [hostRead_register hw] at h; exact ⟨a, b, _, rfl, next_inj h⟩
          | true =>
            cases hv : windowWord s (a.toNat - windowBase) with
            | none => rw [hostRead_unwritten hw hv] at h; simp at h
            | some v => rw [hostRead_window hw hv] at h; exact ⟨a, b, v, rfl, next_inj h⟩
      | write a b v =>
        right
        cases hsh : shapeOk a b with
        | false => simp [takeEvent, hostAccess, hsh] at h
        | true =>
          rw [takeEvent_write hsh] at h
          by_cases h0 : a = 0
          · subst h0
            simp only [shapeOk, Bool.and_eq_true, decide_eq_true_eq] at hsh
            exact .inl ⟨v, by rw [hsh.1], h⟩
          · right
            cases hw : inWindow s.config a with
            | false => rw [hostWrite_ignored h0 hw] at h; exact ⟨a, b, v, rfl, h0, .inr (next_inj h)⟩
            | true => rw [hostWrite_window hw] at h; exact ⟨a, b, v, rfl, h0, .inl ⟨_, next_inj h⟩⟩

/-- Everything a written command word can answer as a next state (30_encoding.md R84). -/
theorem runCommand_next {w : Word} {s t : State} (h : runCommand w s = .next t) :
    (∃ i, decode w = .ok i ∧ exec i s = .next t) ∨ ((∃ e, decode w = .error e) ∧ t = raise .illegalCmd s) := by
  unfold runCommand at h
  split at h
  · rename_i i hd; exact .inl ⟨i, hd, h⟩
  · rename_i e hd; exact .inr ⟨⟨e, hd⟩, next_inj h⟩

/-- A command word of a format with reserved bits: the command when they are 0, and ILLEGAL_CMD otherwise (R84 (b)). -/
theorem runCommand_whenReserved {w : Word} {n : Nat} (st : Nat) {i : Instr}
    (hd : decode w = whenReserved (w.extractLsb' st n) i) (s : State) :
    (w.toNat / 2 ^ st % 2 ^ n = 0 → runCommand w s = exec i s) ∧
      (w.toNat / 2 ^ st % 2 ^ n ≠ 0 → runCommand w s = .next (raise .illegalCmd s)) := by
  rw [← toNat_field]
  unfold runCommand
  rw [hd, whenReserved]
  refine ⟨fun h => by rw [if_pos (BitVec.eq_of_toNat_eq (by simpa using h))], fun h => ?_⟩
  rw [if_neg]
  intro e; rw [e] at h; simp at h

/-- A window write touches STREAM_MEM and STALE alone (20_memory.md R63). -/
theorem writeStreamByte_eq (s : State) (i : Nat) (b : Byte) :
    ∃ m l, writeStreamByte s i b = { s with stream := m, stale := l } := by
  unfold writeStreamByte; split
  · exact ⟨_, _, rfl⟩
  · exact ⟨s.stream, s.stale, rfl⟩

theorem writeStreamWord_eq (s : State) (i : Nat) (v : Word) :
    ∃ m l, writeStreamWord i v s = { s with stream := m, stale := l } := by
  unfold writeStreamWord
  dsimp only
  generalize v.extractLsb' 0 8 = b0
  generalize v.extractLsb' 8 8 = b1
  generalize v.extractLsb' 16 8 = b2
  generalize v.extractLsb' 24 8 = b3
  obtain ⟨m0, l0, e0⟩ := writeStreamByte_eq s i b0
  rw [e0]
  obtain ⟨m1, l1, e1⟩ := writeStreamByte_eq { s with stream := m0, stale := l0 } (i + 1) b1
  rw [e1]
  obtain ⟨m2, l2, e2⟩ := writeStreamByte_eq { s with stream := m1, stale := l1 } (i + 2) b2
  rw [e2]
  exact writeStreamByte_eq { s with stream := m2, stale := l2 } (i + 3) b3

/-- The address of a word of the stream window (20_memory.md R61). -/
theorem windowAddr {c : Config} {k : Nat} (hc : c.wf = true) (hk : 4 * k < c.streamBytes) :
    shapeOk (BitVec.ofNat 32 (0x10000000 + 4 * k)) 4 = true ∧
      (BitVec.ofNat 32 (0x10000000 + 4 * k)).toNat - windowBase = 4 * k ∧
      inWindow c (BitVec.ofNat 32 (0x10000000 + 4 * k)) = true := by
  have hb : c.streamBytes < 2 ^ 28 := by simp [Config.wf] at hc; omega
  have e : (BitVec.ofNat 32 (0x10000000 + 4 * k)).toNat = 0x10000000 + 4 * k := by
    rw [BitVec.toNat_ofNat]; omega
  refine ⟨?_, ?_, ?_⟩
  · simp only [shapeOk, e, Bool.and_eq_true, decide_eq_true_eq, true_and]; omega
  · rw [e, windowBase]; omega
  · rw [inWindow_iff, e, windowBase, windowSize]; omega

/-! ### Steps -/

theorem step_of_events {s : State} {e : Event} {rest : List Event} (h : s.events = e :: rest) :
    step s = takeEvent e { s with events := rest } := by
  unfold step; rw [h]

theorem step_of_idle {s : State} (h : s.events = []) : step s = .next s := by
  unfold step; rw [h]

end Sys2Proof.Machine
end

