-- ==== Sys2Proof/Tests/Slice0.lean ====
section
/-! SUPPORT. Tests: words written out from 30_encoding.md, the vectors of 95_test_vectors.md one step at a time, and for
each statement with hypotheses a state and operands that meet them. -/

namespace Sys2Proof.Tests

open Sys2Proof Sys2Proof.Machine

/-! ### Encodings, bit by bit from 30_encoding.md R81 and R83 -/

theorem test_decode_nop : decode 0b00000000000000000000000000000000#32 = .ok .nop := by decide

/-- OP 0001, LEN 28 bits. -/
theorem test_decode_stream : decode 0b00010000000000000001000000000000#32 = .ok (.stream 4096) := by decide

/-- OP 0010, 23 zeros, N 5 bits. -/
theorem test_decode_readbits : decode 0b00100000000000000000000000010111#32 = .ok (.readbits 23) := by decide

/-- OP 0011, 12 zeros, SYM 12 bits, CL 4 bits: SETCL 2327, 15 (vector C6). -/
theorem test_decode_setcl : decode 0b00110000000000001001000101111111#32 = .ok (.setcl 2327 15) := by decide

theorem test_decode_clrcl : decode 0b01000000000000000000000000000000#32 = .ok .clrcl := by decide

/-- OP 0101, SLOT 4 bits, 11 zeros, CNT 13 bits: BUILD 4, 2328 (vector B9). -/
theorem test_decode_build : decode 0b01010100000000000000100100011000#32 = .ok (.build 4 2328) := by decide

/-- OP 0110, SLOT 4 bits, 24 zeros. -/
theorem test_decode_decode : decode 0b01100010000000000000000000000000#32 = .ok (.decode 2) := by decide

/-- OP 0111, SLOT 4 bits, 16 zeros, IDX 8 bits: RDMAIN 4, 77. -/
theorem test_decode_rdmain : decode 0b01110100000000000000000001001101#32 = .ok (.rdmain 4 77) := by decide

/-- OP 1000, SLOT 4 bits, 9 zeros, SUB 8 bits, IDX 7 bits: RDSUB 1, 1, 0. -/
theorem test_decode_rdsub : decode 0b10000001000000000000000010000000#32 = .ok (.rdsub 1 1 0) := by decide

/-- OP 1001, SLOT 4 bits, 24 zeros. -/
theorem test_decode_tinfo : decode 0b10010001000000000000000000000000#32 = .ok (.tinfo 1) := by decide

/-- Vectors E2 to E4, E6 to E8, E13, E14: the words that encode no command. -/
theorem test_decode_refuses :
    decode 0x00000001#32 = .error .reservedBits ∧ decode 0xA0000000#32 = .error .reservedOp ∧
    decode 0xF1234567#32 = .error .reservedOp ∧ decode 0x20000020#32 = .error .reservedBits ∧
    decode 0x60000001#32 = .error .reservedBits ∧ decode 0x50002000#32 = .error .reservedBits ∧
    decode 0x40000010#32 = .error .reservedBits ∧ decode 0x80008000#32 = .error .reservedBits := by decide

/-- The assembler's encodings of 95_test_vectors.md section 2. -/
theorem test_encode_words :
    encode (.setcl 2 3) = 0x30000023#32 ∧ encode (.build 2 258) = 0x52000102#32 ∧
    encode (.rdsub 1 1 0) = 0x81000080#32 ∧ encode (.rdmain 4 77) = 0x7400004D#32 ∧
    encode (.tinfo 1) = 0x91000000#32 ∧ encode (.stream 5) = 0x10000005#32 := by decide

theorem test_decodeTableWord : decodeTableWord 32 0x81000080 = some (.rdsub 1 1 0) := by decide

/-! ### Ill-formed commands (R85, vectors E5, E9 to E12) -/

theorem test_wf_stream : Instr.wf Config.default (.stream 4097) = false := by decide
theorem test_wf_readbits : Instr.wf Config.default (.readbits 0) = false := by decide
theorem test_wf_setcl : Instr.wf Config.default (.setcl 2328 1) = false := by decide
theorem test_wf_build_slot : Instr.wf Config.default (.build 5 3) = false := by decide
theorem test_wf_build_cnt : Instr.wf Config.default (.build 0 2329) = false := by decide
theorem test_wf_decode : Instr.wf Config.default (.decode 5) = false := by decide
theorem test_wf_rdmain : Instr.wf Config.default (.rdmain 5 0) = false := by decide
theorem test_wf_rdsub : Instr.wf Config.default (.rdsub 5 0 0) = false := by decide
theorem test_wf_tinfo : Instr.wf Config.default (.tinfo 5) = false := by decide

/-- The largest legal fields (R85). -/
theorem test_wf_largest :
    (Instr.wf Config.default (.stream 4096) && Instr.wf Config.default (.readbits 31) &&
      Instr.wf Config.default (.setcl 2327 15) && Instr.wf Config.default (.build 4 2328) &&
      Instr.wf Config.default (.decode 4) && Instr.wf Config.default (.rdmain 4 255) &&
      Instr.wf Config.default (.rdsub 4 255 127) && Instr.wf Config.default (.tinfo 4)) = true := by decide

/-- Parameters outside 00_scope.md R8. -/
theorem test_wf_config :
    Config.wf { Config.default with maxSymbol := 4096 } = false ∧
    Config.wf { Config.default with numSlots := 17 } = false ∧
    Config.wf { Config.default with streamBytes := 0 } = false ∧ Config.wf Config.default = true := by decide

/-- Memories out of their canonical form. -/
theorem test_wf_memory :
    Memory.wf [(1, 0), (0, 0)] = false ∧ Memory.wf [(0, 1), (0, 1)] = false ∧
    CodeLengths.wf [(3, 0)] = false ∧ CodeLengths.wf [(0, 1), (3, 2)] = true := by decide

/-! ### Small states -/

/-- A state with a CLMEM, a stream of `len` bytes and a slot 1, the other slots invalid. -/
def small (clmem : CodeLengths) (bytes : List Byte) (len : BitVec 28) (slot1 : Slot) : State :=
  { State.reset with
    clmem := clmem, stream := bytes.zipIdx.map fun x => (x.2, x.1), len := len,
    slots := [Slot.reset, slot1, Slot.reset, Slot.reset, Slot.reset] }

/-- The valid slot of the code with the first `n` lengths of a CLMEM. -/
def built (clmem : CodeLengths) (n : Nat) : Slot := { valid := true, table := splitTable (presentLengths clmem n) }

/-- The lengths of vectors B1, B2, B7 and B9. -/
def lengthsB1 : CodeLengths := [(0, 2), (1, 1), (2, 3), (3, 3)]
def lengthsB2 : CodeLengths :=
  [(0, 1), (1, 2), (2, 3), (3, 4), (4, 5), (5, 6), (6, 7), (7, 8), (8, 9), (9, 10), (10, 10)]
def lengthsB7 : CodeLengths := [(0, 1), (2, 2)]
def lengthsB9 : CodeLengths := [(3, 1)]

/-- Lengths 1, 2, ..., 8, 8: the longest complete chain without a subtable. -/
def lengthsMax8 : CodeLengths := [(0, 1), (1, 2), (2, 3), (3, 4), (4, 5), (5, 6), (6, 7), (7, 8), (8, 8)]

/-- The setup of vector A1. -/
def stateA1 : State := small [] [0xA5, 0x3C, 0x00, 0x00] 2 Slot.reset

/-- Vector D3: the table of B2 in slot 1, and its stream. -/
def stateD3 : State := small lengthsB2 [0xFF, 0xFF, 0xFB, 0xCF, 0x1F, 0x00, 0x00, 0x00] 5 (built lengthsB2 11)

/-- Vector D6 with B7's table in slot 1. -/
def stateD6 : State := small lengthsB7 [0x0E, 0x00, 0x00, 0x00] 1 (built lengthsB7 3)

/-- Vector D7 with B9's trivial table in slot 1. -/
def stateD7 : State := small lengthsB9 [] 0 { valid := true, table := trivialTable 3 }

/-- RESULT, STATUS and POS after the step that runs a command word. -/
def after (w : Nat) (s : State) : Option (Word × Word × Word) :=
  match step (s.withFetchWord 32 w) with
  | .next t => some (t.result, statusWord t, t.pos)
  | _ => none

/-! ### Vectors, one step each -/

/-- A5. -/
theorem test_nop : after 0x00000000 { stateA1 with pos := 16 } = some (0, 0, 16) := by decide
/-- E2. -/
theorem test_nop_reserved : after 0x00000001 State.reset = some (0xFFFFFFFF, 0x01, 0) := by decide
/-- A2. -/
theorem test_stream : after 0x10000002 { stateA1 with pos := 10, sfail := true, seenEos := true, lastErr := .streamFailed } =
    some (0, 0, 0) := by decide
/-- A4: an illegal STREAM keeps POS and the sticky bits. -/
theorem test_stream_illegal : after 0x10001001 { stateA1 with pos := 16, sfail := true, seenEos := true, lastErr := .eos } =
    some (0xFFFFFFFF, 0x31, 16) := by decide
/-- A1. -/
theorem test_readbits : after 0x20000007 { stateA1 with pos := 3 } = some (0x14, 0x00, 10) := by decide
/-- A2: EOS consumes nothing. -/
theorem test_readbits_eos : after 0x20000007 { stateA1 with pos := 10 } = some (0xFFFFFFFF, 0x32, 10) := by decide
/-- C6. -/
theorem test_setcl : (match exec (.setcl 2327 15) State.reset with
    | .next t => some (t.clmem, t.result, t.lastErr)
    | _ => none) = some ([(2327, 15)], 0, .ok) := by decide
/-- E11. -/
theorem test_setcl_illegal : after 0x30009181 State.reset = some (0xFFFFFFFF, 0x01, 0) := by decide
/-- C4. -/
theorem test_clrcl : (match exec .clrcl { State.reset with clmem := lengthsB1 } with
    | .next t => some (t.clmem, t.result)
    | _ => none) = some ([], 0) := by decide
/-- E13. -/
theorem test_clrcl_reserved : after 0x40000010 State.reset = some (0xFFFFFFFF, 0x01, 0) := by decide
/-- B2: the subtable, the indirect entry and the summary. -/
theorem test_build : (match exec (.build 1 11) { State.reset with clmem := lengthsB2 } with
    | .next t => some ((slotAt t 1).table.subs, mainAt (slotAt t 1).table 255, mainAt (slotAt t 1).table 3,
        (slotAt t 1).table.maxLen)
    | _ => none) = some ([{ bits := 2, entries := [0x0089, 0x009A, 0x0089, 0x00AA] }], 0x000F, 0x0023, 10) := by
  decide +kernel
/-- B5: an over-subscribed code. -/
theorem test_build_oversub : after 0x50000003 { State.reset with clmem := [(0, 1), (1, 1), (2, 1)] } =
    some (0xFFFFFFFF, 0x07, 0) := by decide
/-- D3, the second line: a 9-bit code in a subtable. -/
theorem test_decode_step : after 0x61000000 { stateD3 with pos := 10 } = some (8, 0x00, 19) := by decide +kernel
/-- D6: an unoccupied entry. -/
theorem test_decode_invalid : after 0x61000000 { stateD6 with pos := 1 } = some (0xFFFFFFFF, 0x53, 1) := by decide +kernel
/-- Section 7: an unoccupied entry of B7. -/
theorem test_rdmain : after 0x71000003 stateD6 = some (0x0000FFF0, 0x00, 0) := by decide +kernel
/-- Section 7: a slot never built. -/
theorem test_rdmain_invalid : after 0x72000000 State.reset = some (0xFFFFFFFF, 0x05, 0) := by decide
/-- B2. -/
theorem test_rdsub : after 0x81000003 stateD3 = some (0x000000AA, 0x00, 0) := by decide +kernel
/-- B2: IDX and SUB out of range. -/
theorem test_rdsub_range : after 0x81000004 stateD3 = some (0xFFFFFFFF, 0x09, 0) ∧
    after 0x81000080 stateD3 = some (0xFFFFFFFF, 0x09, 0) := by decide +kernel
/-- B2. -/
theorem test_tinfo : after 0x91000000 stateD3 = some (0x0001001A, 0x00, 0) := by decide +kernel
/-- Section 7: a slot never built. -/
theorem test_tinfo_invalid : after 0x92000000 State.reset = some (0, 0x00, 0) := by decide

/-! ### Host accesses, faults and refusals (sections 8 and 9) -/

/-- What a step answers, without its next state. -/
def kind : Host.Outcome State Fault Refusal → Option Fault × Option Refusal
  | .next _ => (none, none)
  | .fault f => (some f, none)
  | .refused r => (none, some r)

/-- The state with one event pending. -/
def pend (s : State) (e : Event) : State := { s with events := [e] }

/-- F1. -/
theorem test_unwritten : kind (step ({ State.reset with len := 1 }.withFetchWord 32 0x20000001)) =
    (some .unwrittenStreamByte, none) := by decide
/-- F5. -/
theorem test_stale : kind (step ({ stateA1 with pos := 3, stale := [0, 1] }.withFetchWord 32 0x20000001)) =
    (none, some .staleStreamByte) := by decide
/-- F5: which bytes a write marks as stale. -/
theorem test_stale_marks : (match step (pend { stateA1 with pos := 3 } (.access false (.write 0x10000000 4 0x00003CA4))) with
    | .next t => some (t.stale, streamByte t 0)
    | _ => none) = some ([0, 1], some 0xA4) := by decide +kernel
/-- F8. -/
theorem test_shape : kind (step (pend State.reset (.access false (.write 0x10000000 2 0)))) =
    (none, some .hostAccessShape) := by decide
/-- 70_reset_and_hazards.md R230. -/
theorem test_in_reset : kind (step (pend State.reset (.access true (.read 0 4)))) =
    (none, some .accessDuringReset) := by decide
/-- Section 9: CAPS after reset. -/
theorem test_caps : (match step (pend State.reset (.access false (.read 0x14 4))) with
    | .next t => t.readData
    | _ => none) = some 0x00050918 := by decide
/-- F9 and F10. -/
theorem test_unmapped : (match step (pend State.reset (.access false (.read 0x0FFFFFFC 4))) with
    | .next t => t.readData
    | _ => none) = some 0 ∧
    step (pend State.reset (.access false (.write 8 4 0xFF))) = .next State.reset := ⟨by decide, rfl⟩
/-- R230: reset clears a built slot and keeps the ghost bits. -/
theorem test_reset : (match step (pend { stateD3 with faulted := true } .reset) with
    | .next t => some ((slotAt t 1).valid, t.clmem.isEmpty, t.stream.isEmpty, t.faulted)
    | _ => none) = some (false, true, true, true) := by decide +kernel
/-- R35: bytes 0 and 1 of A1's stream, bit 0 first, and no byte at or past LEN. -/
theorem test_prefetch : (match step (pend stateA1 (.refill 3)) with
    | .next t => (t.cur, t.sr.take 9)
    | _ => (0, [])) = (2, [true, false, true, false, false, true, false, true, false].map some) := by decide
/-- R88: an operand that does not fit is an error, and the text of a line. -/
theorem test_assembler : assemble (.setcl 4096 0) = none ∧
    parseLine ['S', 'E', 'T', 'C', 'L', ' ', '2', ',', ' ', '0', 'x', '3'] = some (.setcl 2 3) := by decide

/-! ### Witnesses: states and operands that meet the hypotheses of each statement -/

/-- Readable, as a test of finitely many bits. -/
def readableCheck (s : State) (p n : Nat) : Bool :=
  (List.range n).all fun i =>
    decide (streamBits s ≤ p + i) || (written s ((p + i) / 8) && !isStale s ((p + i) / 8))

theorem readable_of_check {s : State} {p n : Nat} (h : readableCheck s p n = true) : Readable s p n := by
  intro j h1 h2 h3
  have := List.all_eq_true.1 h (j - p) (List.mem_range.2 (by omega))
  rw [show p + (j - p) = j by omega] at this
  simpa [Nat.not_le.2 h3] using this

/-- An outcome that is a next state with a property, as a test. -/
theorem next_of_check {o : Host.Outcome State Fault Refusal} {p : State → Bool}
    (h : (match o with | .next t => p t | _ => false) = true) : ∃ t, o = .next t ∧ p t = true := by
  cases o with
  | next t => exact ⟨t, rfl, h⟩
  | fault f => exact absurd h Bool.false_ne_true
  | refused r => exact absurd h Bool.false_ne_true

/-- The state with a CMD write of a word pending. -/
def cmd (s : State) (w : Word) : State := pend s (.access false (.write 0 4 w))

theorem witness_StepRunsTheCommandWrittenToCmd :
    ((cmd stateA1 0x2000001F).events = .access false (.write 0 4 0x2000001F) :: [] ∧
      decode 0x2000001F#32 = .ok (.readbits 31)) ∧
    ((cmd stateA1 0xA0000000).events = .access false (.write 0 4 0xA0000000) :: [] ∧
      decode 0xA0000000#32 = .error .reservedOp) ∧
    (pend stateA1 (.access false (.read 0 4))).events = .access false (.read 0 4) :: [] ∧
    State.reset.events = [] := ⟨⟨rfl, by decide⟩, ⟨rfl, by decide⟩, rfl, rfl⟩

theorem witness_FetchedWordRunsNext : decodeTableWord 32 0x9F000000 = some (.tinfo 15) := by decide

theorem witness_EncodeOfDecodeIsTheWord : decode 0x8F007FFF#32 = .ok (.rdsub 15 255 127) := by decide

theorem witness_OpcodeMapSelectsTheCommand :
    (∀ i, decode 0xA0000000#32 ≠ .ok i) ∧ ∀ i, decode 0x20000020#32 ≠ .ok i := by
  constructor <;> intro i h
  · rw [show decode 0xA0000000#32 = .error .reservedOp by decide] at h; cases h
  · rw [show decode 0x20000020#32 = .error .reservedBits by decide] at h; cases h

/-- One word for each clause, every field at its largest value. -/
theorem witness_DecodedFieldsAreTheWordsBits :
    decode 0x1FFFFFFF#32 = .ok (.stream 0xFFFFFFF) ∧ decode 0x2000001F#32 = .ok (.readbits 31) ∧
    decode 0x3000FFFF#32 = .ok (.setcl 4095 15) ∧ decode 0x5F001FFF#32 = .ok (.build 15 8191) ∧
    decode 0x6F000000#32 = .ok (.decode 15) ∧ decode 0x7F0000FF#32 = .ok (.rdmain 15 255) ∧
    decode 0x8F007FFF#32 = .ok (.rdsub 15 255 127) ∧ decode 0x9F000000#32 = .ok (.tinfo 15) := by decide

theorem witness_ExactlyIllegalWordsRaise :
    wordLegal State.reset.config 0x10001001 = false ∧ wordLegal State.reset.config 0x10001000 = true ∧
      ∃ t, runCommand 0x10001000 State.reset = .next t := ⟨by decide, by decide, _, rfl⟩

theorem witness_IllegalCommandChangesNothingElse :
    (∃ t, runCommand 0xF1234567 State.reset = .next t ∧ t.lastErr = .illegalCmd) ∧
    ∃ t, exec (.readbits 0) State.reset = .next t ∧ t.lastErr = .illegalCmd := ⟨⟨_, rfl, rfl⟩, _, rfl, rfl⟩

/-- For the clauses about words of StreamStartsANewStream, ReadbitsReturnsTheNextBits, SetclWritesOneLength,
BuildReplacesItsSlotOnly, DecodeFollowsTheTwoLevelLookup, RdmainReadsAMainEntry, RdsubReadsASubtableEntry and
TinfoReadsTheSummary: a word without and one with a reserved bit set, the lowest and the highest. -/
theorem witness_words :
    (0x1FFFFFFF#32).toNat / 2 ^ 28 = 0x1 ∧
    ((0x2000001F#32).toNat / 2 ^ 28 = 0x2 ∧ (0x2000001F#32).toNat / 2 ^ 5 % 2 ^ 23 = 0 ∧
      (0x20000020#32).toNat / 2 ^ 5 % 2 ^ 23 ≠ 0 ∧ (0x28000000#32).toNat / 2 ^ 5 % 2 ^ 23 ≠ 0) ∧
    ((0x3000FFFF#32).toNat / 2 ^ 28 = 0x3 ∧ (0x3000FFFF#32).toNat / 2 ^ 16 % 2 ^ 12 = 0 ∧
      (0x30010000#32).toNat / 2 ^ 16 % 2 ^ 12 ≠ 0 ∧ (0x38000000#32).toNat / 2 ^ 16 % 2 ^ 12 ≠ 0) ∧
    ((0x5F001FFF#32).toNat / 2 ^ 28 = 0x5 ∧ (0x5F001FFF#32).toNat / 2 ^ 13 % 2 ^ 11 = 0 ∧
      (0x50002000#32).toNat / 2 ^ 13 % 2 ^ 11 ≠ 0 ∧ (0x50800000#32).toNat / 2 ^ 13 % 2 ^ 11 ≠ 0) ∧
    ((0x6F000000#32).toNat / 2 ^ 28 = 0x6 ∧ (0x6F000000#32).toNat % 2 ^ 24 = 0 ∧
      (0x60000001#32).toNat % 2 ^ 24 ≠ 0 ∧ (0x60800000#32).toNat % 2 ^ 24 ≠ 0) ∧
    ((0x7F0000FF#32).toNat / 2 ^ 28 = 0x7 ∧ (0x7F0000FF#32).toNat / 2 ^ 8 % 2 ^ 16 = 0 ∧
      (0x70000100#32).toNat / 2 ^ 8 % 2 ^ 16 ≠ 0 ∧ (0x70800000#32).toNat / 2 ^ 8 % 2 ^ 16 ≠ 0) ∧
    ((0x8F007FFF#32).toNat / 2 ^ 28 = 0x8 ∧ (0x8F007FFF#32).toNat / 2 ^ 15 % 2 ^ 9 = 0 ∧
      (0x80008000#32).toNat / 2 ^ 15 % 2 ^ 9 ≠ 0 ∧ (0x80800000#32).toNat / 2 ^ 15 % 2 ^ 9 ≠ 0) ∧
    ((0x9F000000#32).toNat / 2 ^ 28 = 0x9 ∧ (0x9F000000#32).toNat % 2 ^ 24 = 0 ∧
      (0x90000001#32).toNat % 2 ^ 24 ≠ 0 ∧ (0x90800000#32).toNat % 2 ^ 24 ≠ 0) := by decide

theorem witness_NopOnlyWritesItsResult : (0x0FFFFFFF#32).toNat < 2 ^ 28 ∧ 0x0FFFFFFF#32 ≠ 0 ∧ 1#32 ≠ 0 := by decide

/-- The largest legal length, and the smallest illegal one. -/
theorem witness_StreamStartsANewStream :
    (4096#28).toNat ≤ State.reset.config.streamBytes ∧ State.reset.config.streamBytes < (4097#28).toNat := by decide

/-- A read one bit past the end, and one that ends on the last bit (vectors A1 and A2). -/
theorem witness_ReadbitsReturnsTheNextBits :
    (7#5 ≠ 0 ∧ ({ stateA1 with sfail := true } : State).sfail = true) ∧
    (7#5 ≠ 0 ∧ stateA1.sfail = false ∧ 8 * stateA1.len.toNat < ({ stateA1 with pos := 10 } : State).pos.toNat + (7#5).toNat) ∧
    (6#5 ≠ 0 ∧ ({ stateA1 with pos := 10 } : State).pos.toNat + (6#5).toNat ≤ 8 * stateA1.len.toNat ∧
      Readable { stateA1 with pos := 10 } 10 6) :=
  ⟨by decide, by decide, by decide, by decide, readable_of_check (by decide)⟩

theorem witness_ReadFactsFollow :
    (∃ t, ({ stateA1 with pos := 16 } : State).pos.toNat ≤ 8 * stateA1.len.toNat ∧ step { stateA1 with pos := 16 } = .next t) ∧
    (∃ t u, (16#5).toNat = (10#5).toNat + (6#5).toNat ∧ exec (.readbits 10) stateA1 = .next t ∧ t.lastErr = .ok ∧
      exec (.readbits 6) t = .next u ∧ u.lastErr = .ok ∧ t.pos ≠ stateA1.pos) :=
  ⟨⟨_, by decide, rfl⟩, _, _, by decide, rfl, rfl, rfl, rfl, by decide⟩

/-- The last written byte, the first unwritten one, and a stale one. -/
theorem witness_PeekReturnsTheStreamBits :
    Readable stateA1 9 7 ∧
    (let s : State := { stateA1 with len := 5 }
     Readable s 25 (32 - 25) ∧ 25 ≤ 32 ∧ 32 < 25 + 8 ∧ 32 < 8 * s.len.toNat ∧ written s (32 / 8) = false) ∧
    (let s : State := { stateA1 with stale := [1] }
     Readable s 3 (8 - 3) ∧ 3 ≤ 8 ∧ 8 < 3 + 6 ∧ 8 < 8 * s.len.toNat ∧ written s (8 / 8) = true ∧ isStale s (8 / 8) = true) :=
  ⟨readable_of_check (by decide), ⟨readable_of_check (by decide), by decide⟩, readable_of_check (by decide), by decide⟩

theorem witness_CommandsStopOnlyWherePeekDoes :
    (let s : State := { State.reset with len := 1 }
     8#5 ≠ 0 ∧ s.sfail = false ∧ s.pos.toNat + (8#5).toNat ≤ 8 * s.len.toNat ∧
      peek s s.pos.toNat (8#5).toNat = .error (.fault .unwrittenStreamByte) ∧ ∀ t, exec (.readbits 8) s ≠ .next t) ∧
    (let s : State := { stateD6 with stale := [0] }
     (1#4).toNat < s.config.numSlots ∧ (slotAt s (1#4).toNat).valid = true ∧ s.sfail = false ∧
      peek s s.pos.toNat (slotAt s (1#4).toNat).table.maxLen.toNat = .error (.refuse .staleStreamByte)) :=
  ⟨⟨by decide, by decide, by decide, by decide, fun t h => by
    rw [show exec (.readbits 8) { State.reset with len := 1 } = .fault .unwrittenStreamByte from rfl] at h; cases h⟩,
    by decide, by decide, by decide, by decide +kernel⟩

theorem witness_PrefetchIsUnobservable :
    (∃ t, exec (.readbits 3) stateA1 = .next t) ∧
    exec (.readbits 8) { State.reset with len := 1 } = .fault .unwrittenStreamByte ∧
    exec (.readbits 8) { stateA1 with stale := [0] } = .refused .staleStreamByte := ⟨⟨_, rfl⟩, rfl, rfl⟩

theorem witness_SetclWritesOneLength :
    (2327#12).toNat < State.reset.config.maxSymbol ∧ State.reset.config.maxSymbol ≤ (2328#12).toNat := by decide

theorem witness_ClrclClearsEveryLength :
    ((4#4).toNat < stateD3.config.numSlots ∧ (2328#13).toNat ≤ stateD3.config.maxSymbol ∧ ∃ t, exec .clrcl stateD3 = .next t) ∧
    (0x40000000 < (0x40000001#32).toNat ∧ (0x4FFFFFFF#32).toNat < 0x50000000) :=
  ⟨⟨by decide, by decide, _, rfl⟩, by decide⟩

/-- CNT = 0, and lengths at CNT and above alone (vector B9). -/
theorem witness_BuildWithoutSymbolsFails :
    ((4#4).toNat < State.reset.config.numSlots ∧ (0#13).toNat ≤ State.reset.config.maxSymbol ∧
      ∀ j, j < (0#13).toNat → clRead lengthsB9 j = 0) ∧
    (∀ j, j < (3#13).toNat → clRead lengthsB9 j = 0) := by decide

theorem witness_BuildOfOneSymbolIsTrivial :
    (4#4).toNat < stateD7.config.numSlots ∧ stateD7.slots.length = stateD7.config.numSlots ∧
    (4#13).toNat ≤ stateD7.config.maxSymbol ∧ 3 < (4#13).toNat ∧
    ∀ j, j < (4#13).toNat → (clRead stateD7.clmem j ≠ 0 ↔ j = 3) := by decide

/-- Vectors B5, B7, B8 and B10. -/
theorem witness_KraftSumDecidesBuild :
    ((0#4).toNat < State.reset.config.numSlots ∧ State.reset.slots.length = State.reset.config.numSlots ∧
      (3#13).toNat ≤ State.reset.config.maxSymbol) ∧
    (clRead [(0, 1), (1, 1), (2, 1)] 0 ≠ 0 ∧ clRead [(0, 1), (1, 1), (2, 1)] 2 ≠ 0 ∧
      2 ^ 15 < kraftOf [(0, 1), (1, 1), (2, 1)] 3) ∧
    (clRead lengthsB7 0 ≠ 0 ∧ clRead lengthsB7 2 ≠ 0 ∧ kraftOf lengthsB7 3 < 2 ^ 15 ∧
      ({ Config.default with pIncomplete := .reject } : Config).pIncomplete = .reject ∧
      State.reset.config.pIncomplete = .accept) ∧
    (clRead [(0, 1), (1, 1)] 0 ≠ 0 ∧ clRead [(0, 1), (1, 1)] 1 ≠ 0 ∧ kraftOf [(0, 1), (1, 1)] 2 = 2 ^ 15) := by decide

theorem witness_BuildReplacesItsSlotOnly :
    State.reset.config.numSlots ≤ (5#4).toNat ∧ State.reset.config.maxSymbol < (2329#13).toNat ∧
    ((4#4).toNat < State.reset.config.numSlots ∧ State.reset.slots.length = State.reset.config.numSlots ∧
      (2328#13).toNat ≤ State.reset.config.maxSymbol) ∧
    (∃ u, exec (.build 1 3) { stateD7 with clmem := [] } = .next u ∧ ∀ j, j < (3#13).toNat → clRead [] j = clRead stateD7.clmem j) ∧
    (∃ t, exec (.setcl 0 1) stateD3 = .next t) ∧ ∃ t, exec .clrcl stateD3 = .next t :=
  ⟨by decide, by decide, by decide, ⟨_, rfl, by decide⟩, ⟨_, rfl⟩, _, rfl⟩

/-- The codes of B2, as 95_test_vectors.md gives them: a short code, two long codes of one length, and a longer one. -/
theorem witness_CodesAreCanonical :
    kraftOf lengthsB2 11 ≤ 2 ^ 15 ∧
    (let cs := canonicalCodes (presentLengths lengthsB2 11)
     { sym := 0, len := 1, code := 0, rev := 0 } ∈ cs ∧ { sym := 8, len := 9, code := 510, rev := 255 } ∈ cs ∧
      { sym := 9, len := 10, code := 1022, rev := 511 } ∈ cs ∧ { sym := 10, len := 10, code := 1023, rev := 1023 } ∈ cs) := by
  decide +kernel

/-- Two short codes, a short and a long one, and two long ones under one main index. -/
theorem witness_NoEntryIsWrittenTwice :
    kraftOf lengthsB2 11 ≤ 2 ^ 15 ∧
    (let cs := canonicalCodes (presentLengths lengthsB2 11)
     { sym := 0, len := 1, code := 0, rev := 0 } ∈ cs ∧ { sym := 7, len := 8, code := 254, rev := 127 } ∈ cs ∧
      { sym := 8, len := 9, code := 510, rev := 255 } ∈ cs ∧ { sym := 10, len := 10, code := 1023, rev := 1023 } ∈ cs) ∧
    255 % 256 = 1023 % 256 := by
  decide +kernel

theorem witness_SuccessfulBuildCommitsTheTable :
    State.reset.config.maxSymbol ≤ 4095 ∧ (stateD3.slots.length = stateD3.config.numSlots) ∧
    (∃ t, exec (.build 4 11) stateD3 = .next t ∧ t.lastErr = .ok) ∧
    clRead stateD3.clmem 9 ≠ 0 ∧ clRead stateD3.clmem 10 ≠ 0 := ⟨by decide, by decide, ⟨_, rfl, rfl⟩, by decide, by decide⟩

theorem built_D3 : BuiltSlot stateD3 1 lengthsB2 11 := ⟨by decide, rfl, by decide, rfl⟩
theorem built_D6 : BuiltSlot stateD6 1 lengthsB7 3 := ⟨by decide, rfl, by decide, rfl⟩
theorem built_D7 : BuiltSlot stateD7 1 lengthsB9 4 := ⟨by decide, rfl, by decide, rfl⟩

/-- A short code, a long code (B2), and an index no code reaches (B7, index 3). -/
theorem witness_MainTableHoldsItsEntries :
    (BuiltSlot stateD3 1 lengthsB2 11 ∧ 2 ≤ (presentLengths lengthsB2 11).length ∧
      (∃ c ∈ canonicalCodes (presentLengths lengthsB2 11), c.len ≤ 8 ∧ 127 % 2 ^ c.len = c.rev) ∧
      ∃ c ∈ canonicalCodes (presentLengths lengthsB2 11), 8 < c.len ∧ 255 = c.rev % 256) ∧
    (BuiltSlot stateD6 1 lengthsB7 3 ∧ 2 ≤ (presentLengths lengthsB7 3).length ∧
      (∀ c ∈ canonicalCodes (presentLengths lengthsB7 3), c.len ≤ 8 → 3 % 2 ^ c.len ≠ c.rev) ∧
      ∀ c ∈ canonicalCodes (presentLengths lengthsB7 3), 8 < c.len → 3 ≠ c.rev % 256) :=
  ⟨⟨built_D3, by decide +kernel⟩, built_D6, by decide +kernel⟩

/-- B2, and an incomplete code with an unoccupied subtable entry: lengths 1 and 10. -/
theorem witness_SubtablesHoldTheirEntries :
    (BuiltSlot stateD3 1 lengthsB2 11 ∧ 2 ≤ (presentLengths lengthsB2 11).length ∧
      ∃ c ∈ canonicalCodes (presentLengths lengthsB2 11), 8 < c.len ∧ c.rev % 256 = (255#8).toNat ∧
        3 % 2 ^ (c.len - 8) = c.rev / 256) ∧
    (let ls := presentLengths [(0, 1), (1, 10)] 2
     2 ≤ ls.length ∧ kraftSum ls ≤ 2 ^ 15 ∧ (∃ c ∈ canonicalCodes ls, 8 < c.len ∧ c.rev % 256 = (1#8).toNat) ∧
      ∀ c ∈ canonicalCodes ls, 8 < c.len → c.rev % 256 = (1#8).toNat → 3 % 2 ^ (c.len - 8) ≠ c.rev / 256) :=
  ⟨⟨built_D3, by decide +kernel⟩, by decide +kernel⟩

theorem witness_OccupancyOfABuiltTable :
    (BuiltSlot stateD3 1 lengthsB2 11 ∧ 2 ≤ (presentLengths lengthsB2 11).length ∧ kraftOf lengthsB2 11 = 2 ^ 15 ∧
      ∃ c ∈ canonicalCodes (presentLengths lengthsB2 11), 8 < c.len ∧ c.rev % 256 = (255#8).toNat) ∧
    (BuiltSlot stateD7 1 lengthsB9 4 ∧ (presentLengths lengthsB9 4).length = 1) :=
  ⟨⟨built_D3, by decide +kernel⟩, built_D7, by decide +kernel⟩

theorem witness_BuiltTableFitsItsStorage :
    BuiltSlot stateD3 1 lengthsB2 11 ∧ (4#4).toNat < stateD3.config.numSlots ∧ (2328#13).toNat ≤ stateD3.config.maxSymbol ∧
      ∃ t, exec (.build 0 0) stateD3 = .next t := ⟨built_D3, by decide, by decide, _, rfl⟩

/-- A slot past the store, an invalid one, a failed stream; an unoccupied entry (D6), a code past the end and one that ends
on the last bit (D3). -/
theorem witness_DecodeFollowsTheTwoLevelLookup :
    stateD3.config.numSlots ≤ (5#4).toNat ∧ (slotAt stateD3 (0#4).toNat).valid = false ∧
    ((slotAt stateD3 (1#4).toNat).valid = true ∧ ({ stateD3 with sfail := true } : State).sfail = true) ∧
    Readable { stateD6 with pos := 1 } 1 2 ∧ Readable { stateD3 with pos := 39 } 39 10 ∧
    Readable { stateD3 with pos := 40 } 40 10 ∧
    (match exec (.decode 1) { stateD6 with pos := 1 }, exec (.decode 1) { stateD3 with pos := 40 },
        exec (.decode 1) { stateD3 with pos := 39 } with
      | .next t, .next u, .next v => (t.lastErr, u.lastErr, v.lastErr, v.pos)
      | _, _, _ => (.ok, .ok, .eos, 0)) = (.invalidCode, .eos, .ok, 40) :=
  ⟨by decide, by decide, by decide, readable_of_check (by decide), readable_of_check (by decide),
    readable_of_check (by decide), by decide +kernel⟩

/-- The first code of D3's stream, symbol 10. -/
theorem witness_DecodeReturnsTheCodedSymbol :
    BuiltSlot stateD3 1 lengthsB2 11 ∧ 2 ≤ (presentLengths lengthsB2 11).length ∧
    { sym := 10, len := 10, code := 1023, rev := 1023 } ∈ canonicalCodes (presentLengths lengthsB2 11) ∧
    stateD3.sfail = false ∧ Readable stateD3 stateD3.pos.toNat (slotAt stateD3 (1#4).toNat).table.maxLen.toNat ∧
    (∀ i, i < 10 → streamBit stateD3 (stateD3.pos.toNat + i) = Nat.testBit 1023 (10 - 1 - i)) ∧
    stateD3.pos.toNat + 10 ≤ 8 * stateD3.len.toNat :=
  ⟨built_D3, by decide +kernel, by decide +kernel, rfl, readable_of_check (by decide +kernel), by decide, by decide⟩

theorem witness_TrivialDecodeConsumesNothing :
    (1#4).toNat < stateD7.config.numSlots ∧ (slotAt stateD7 (1#4).toNat).valid = true ∧
    (slotAt stateD7 (1#4).toNat).table.Trivial 3 ∧ 3#12 ≠ unoccupiedSym ∧ stateD7.sfail = false ∧
    stateD7.pos.toNat ≤ 8 * stateD7.len.toNat :=
  ⟨by decide, by decide, ⟨rfl, rfl, fun i => by
    show mainAt (trivialTable 3) i = _
    rw [trivialTable, mainAt_mainOf]; rfl⟩, by decide, rfl, by decide⟩

/-- D3's first two symbols, 10 and 8, with their codes. -/
def messageD3 : List Code :=
  [{ sym := 10, len := 10, code := 1023, rev := 1023 }, { sym := 8, len := 9, code := 510, rev := 255 }]

theorem witness_RoundTripReproducesTheMessage :
    BuiltSlot stateD3 1 lengthsB2 11 ∧ 2 ≤ (presentLengths lengthsB2 11).length ∧
    (∀ c ∈ messageD3, c ∈ canonicalCodes (presentLengths lengthsB2 11)) ∧ stateD3.sfail = false ∧
    Readable stateD3 stateD3.pos.toNat (8 * stateD3.len.toNat - stateD3.pos.toNat) ∧
    (∀ i, i < (messageD3.flatMap codeBits).length →
      (messageD3.flatMap codeBits)[i]? = some (streamBit stateD3 (stateD3.pos.toNat + i))) ∧
    stateD3.pos.toNat + (messageD3.flatMap codeBits).length ≤ 8 * stateD3.len.toNat :=
  ⟨built_D3, by decide +kernel, by decide +kernel, rfl, readable_of_check (by decide +kernel), by decide +kernel,
    by decide +kernel⟩

theorem witness_SuccessfulReadsMakeProgress :
    (∃ t, exec (.readbits 16) stateA1 = .next t ∧ t.lastErr = .ok) ∧
    (∃ t, exec (.decode 1) stateD7 = .next t ∧ t.lastErr = .ok) ∧
    (slotAt stateD3 (1#4).toNat).table.maxLen ≠ 0 ∧
    (slotAt stateD3 (1#4).toNat).table.Inv ∧
    ∃ t, exec (.decode 1) stateD3 = .next t ∧ decide (t.lastErr = .ok) = true :=
  ⟨⟨_, rfl, rfl⟩, ⟨_, rfl, rfl⟩, by decide +kernel,
    buildTable_inv (presentLengths_ok _ _) (fun _ hp => (presentLengths_lt hp).trans (by omega)) built_D3.table,
    next_of_check (by decide +kernel)⟩

theorem witness_RdmainReadsAMainEntry :
    stateD3.config.numSlots ≤ (5#4).toNat ∧ (4#4).toNat < stateD3.config.numSlots ∧
    (slotAt stateD3 (4#4).toNat).valid = false ∧ (slotAt stateD3 (1#4).toNat).valid = true := by decide

/-- The last subtable and index that exist, and the first that do not. -/
theorem witness_RdsubReadsASubtableEntry :
    let t := (slotAt stateD3 (1#4).toNat).table
    stateD3.config.numSlots ≤ (5#4).toNat ∧ (slotAt stateD3 (4#4).toNat).valid = false ∧
    (slotAt stateD3 (1#4).toNat).valid = true ∧ t.nsub ≤ (1#8).toNat ∧ 2 ^ subBitsAt t (0#8).toNat ≤ (4#7).toNat ∧
    (0#8).toNat < t.nsub ∧ (3#7).toNat < 2 ^ subBitsAt t (0#8).toNat := by decide +kernel

/-- MAXLEN = 8, the most a table without subtables has, and B7's shorter one. -/
theorem witness_RdsubReadsASubtableEntry_without_subtables :
    (let t := splitTable (presentLengths lengthsMax8 9)
     t.Inv ∧ t.maxLen.toNat = 8) ∧
    (1#4).toNat < stateD6.config.numSlots ∧ (slotAt stateD6 (1#4).toNat).valid = true ∧
    (slotAt stateD6 (1#4).toNat).table.Inv ∧ (slotAt stateD6 (1#4).toNat).table.maxLen.toNat ≤ 8 :=
  ⟨⟨splitTable_inv (presentLengths_ok _ _) (by decide +kernel) (by decide +kernel)
      fun _ hp => (presentLengths_lt hp).trans (by omega), by decide +kernel⟩, by decide, by decide,
    buildTable_inv (presentLengths_ok _ _) (fun _ hp => (presentLengths_lt hp).trans (by omega)) built_D6.table,
    by decide +kernel⟩

/-- A prefetch of nothing, of less and of more than is left of the stream. -/
theorem witness_PrefetchLoadsWholeBytes :
    ∀ n ∈ [0, 1, 5], (pend stateA1 (.refill n)).events = .refill n :: [] := fun _ _ => rfl

theorem witness_TinfoReadsTheSummary :
    stateD3.config.numSlots ≤ (5#4).toNat ∧ (4#4).toNat < stateD3.config.numSlots ∧
    (slotAt stateD3 (4#4).toNat).valid = false ∧ (slotAt stateD3 (1#4).toNat).valid = true ∧
    (slotAt stateD3 (1#4).toNat).table.nsub ≤ 256 := by decide +kernel

theorem witness_FailureValueIsNeverASuccess :
    (∃ t, exec (.readbits 31) State.reset = .next t ∧ t.lastErr ≠ .ok) ∧
    ∃ t, exec .nop State.reset = .next t ∧ t.lastErr = .ok := ⟨⟨_, rfl, by decide⟩, _, rfl, rfl⟩

theorem witness_ErrorsSetTheirStickyBits :
    ∃ t, exec (.readbits 1) State.reset = .next t ∧ (∀ slot cnt, Instr.readbits 1 ≠ .build slot cnt) ∧ t.lastErr ≠ .ok := by
  refine ⟨_, rfl, ?_, by decide⟩
  intro _ _ h; cases h

theorem witness_FailedStreamGatesReads :
    ((1#5 ≠ 0 ∧ ({ stateD3 with sfail := true } : State).sfail = true) ∧ (1#4).toNat < stateD3.config.numSlots ∧
      (slotAt { stateD3 with sfail := true } (1#4).toNat).valid = true) ∧
    ∃ t, (∀ len, Instr.clrcl ≠ .stream len) ∧ (∀ n, Instr.clrcl ≠ .readbits n) ∧ (∀ slot, Instr.clrcl ≠ .decode slot) ∧
      exec .clrcl stateD3 = .next t := by
  refine ⟨by decide, _, ?_, ?_, ?_, rfl⟩ <;> intro _ h <;> cases h

/-- A legal STREAM and a reset, after an EOS. -/
theorem witness_OnlyStreamAndResetClearStickyBits :
    let s : State := { stateA1 with sfail := true, seenEos := true }
    (∃ t, step (cmd s 0x10000002) = .next t ∧ (cmd s 0x10000002).sfail = true ∧ t.sfail = false) ∧
    ∃ t, step (pend s .reset) = .next t ∧ (pend s .reset).seenEos = true ∧ t.seenEos = false :=
  ⟨⟨_, rfl, rfl, rfl⟩, _, rfl, rfl, rfl⟩

theorem witness_EachCommandWritesItsStateOnly :
    (∃ t, exec .nop stateA1 = .next t) ∧ (∃ t, exec (.stream 4096) stateA1 = .next t) ∧
    (∃ t, exec (.readbits 16) stateA1 = .next t) ∧ (∃ t, exec (.setcl 2327 15) stateA1 = .next t) ∧
    (∃ t, exec .clrcl stateA1 = .next t) ∧ (∃ t, exec (.build 4 2328) stateA1 = .next t) ∧
    (∃ t, exec (.decode 1) stateD7 = .next t) ∧ (∃ t, exec (.rdmain 1 255) stateD7 = .next t) ∧
    (∃ t, exec (.rdsub 1 0 0) stateD3 = .next t) ∧ ∃ t, exec (.tinfo 1) stateD3 = .next t :=
  ⟨⟨_, rfl⟩, ⟨_, rfl⟩, ⟨_, rfl⟩, ⟨_, rfl⟩, ⟨_, rfl⟩,
    (execBuild_next 4 2328 stateA1).elim (fun h => ⟨_, h.2⟩) fun h => h.2.elim (fun ⟨_, _, _, e⟩ => ⟨_, e⟩) fun ⟨_, _, e⟩ => ⟨_, e⟩,
    ⟨_, rfl⟩, ⟨_, rfl⟩, ⟨_, rfl⟩, _, rfl⟩

/-- The registers, the first address past them, the last below the window and the first past it. -/
theorem witness_HostReadsReturnTheRegisters :
    stateA1.config.wf = true ∧
    (∀ a ∈ [0x000#32, 0x004#32, 0x008#32, 0x00C#32, 0x010#32, 0x014#32, 0x018#32, 0x0FFFFFFC#32, 0x10001000#32],
      (pend stateA1 (.access false (.read a 4))).events = .access false (.read a 4) :: [] ∧ a.toNat % 4 = 0 ∧
      (a.toNat < 0x10000000 ∨ 0x10000000 + 4 * ((stateA1.config.streamBytes + 3) / 4) ≤ a.toNat)) := by
  refine ⟨by decide, fun a ha => ⟨rfl, ?_⟩⟩
  rw [show stateA1.config.streamBytes = 4096 from rfl]
  simp only [List.mem_cons, List.not_mem_nil, or_false] at ha
  rcases ha with rfl | rfl | rfl | rfl | rfl | rfl | rfl | rfl | rfl <;> simp

theorem witness_HostWritesElsewhereAreIgnored :
    ∀ a ∈ [0x004#32, 0x0FFFFFFC#32, 0x10001000#32],
      (pend stateA1 (.access false (.write a 4 7))).events = .access false (.write a 4 7) :: [] ∧ a.toNat % 4 = 0 ∧ a ≠ 0 ∧
      (a.toNat < 0x10000000 ∨ 0x10000000 + 4 * ((stateA1.config.streamBytes + 3) / 4) ≤ a.toNat) := by
  refine fun a ha => ⟨rfl, ?_⟩
  rw [show stateA1.config.streamBytes = 4096 from rfl]
  simp only [List.mem_cons, List.not_mem_nil, or_false] at ha
  rcases ha with rfl | rfl | rfl <;> simp

theorem witness_MalformedAccessesAreRefused :
    ((2 : Nat) ≠ 4 ∧ (pend stateA1 (.access false (.read 0 2))).events = .access false (.read 0 2) :: []) ∧
    ((2#32).toNat % 4 ≠ 0 ∧ (pend stateA1 (.access false (.write 2 4 0))).events = .access false (.write 2 4 0) :: []) ∧
    (pend stateA1 (.access true (.read 0 4))).events = .access true (.read 0 4) :: [] := by decide

/-- The last word of the window, whole and cut off by STREAM_BYTES, and a byte in it. -/
theorem witness_WindowWriteStoresLittleEndian :
    let s : State := { stateA1 with config := { Config.default with streamBytes := 4094 } }
    let a := BitVec.ofNat 32 (0x10000000 + 4 * 1023)
    s.config.wf = true ∧ 4 * 1023 < s.config.streamBytes ∧
    (pend s (.access false (.write a 4 0xFFFFFFFF))).events = .access false (.write a 4 0xFFFFFFFF) :: [] ∧
    (4 * 1023 ≤ 4093 ∧ 4093 < 4 * 1023 + 4 ∧ 4093 < s.config.streamBytes) ∧ s.config.streamBytes ≤ 4094 := by decide

theorem witness_WindowReadReturnsTheBytes :
    stateA1.config.wf = true ∧ 4 * 0 < stateA1.config.streamBytes ∧
    (pend stateA1 (.access false (.read (BitVec.ofNat 32 (0x10000000 + 4 * 0)) 4))).events =
      .access false (.read (BitVec.ofNat 32 (0x10000000 + 4 * 0)) 4) :: [] ∧
    (∀ j, j < 4 → written stateA1 j = true) ∧ 4 * 1 ≤ 7 ∧ 7 < 4 * 1 + 4 ∧ written stateA1 7 = false := by decide

/-- The byte at the read position, the last byte of the stream, and a STREAM that takes it in. -/
theorem witness_StaleBytesAreRefusedUntilStream :
    let s : State := { stateA1 with pos := 11 }
    let t := writeStreamWord (4 * (1 / 4)) 0x00003CA4 s
    s.pos.toNat / 8 ≤ 1 ∧ 1 < s.len.toNat ∧ 1 < s.config.streamBytes ∧ 15 / 8 = 1 ∧ 1 < (2#28).toNat ∧
    ∃ u, exec (.stream 2) t = .next u ∧ u.lastErr = .ok := ⟨by decide, by decide, by decide, by decide, by decide, _, rfl, rfl⟩

theorem witness_ResetGivesTheResetValues : (pend stateD3 .reset).events = .reset :: [] := rfl

theorem witness_ResetMeetsTheInvariant :
    Config.wf Config.default = true ∧
    Config.wf { maxSymbol := 4095, numSlots := 16, streamBytes := 2 ^ 28 - 1, pIncomplete := .reject } = true ∧
    Config.wf { maxSymbol := 2, numSlots := 1, streamBytes := 1, pIncomplete := .accept } = true := by decide

/-- A state with a failed stream, a written byte and a length, and a command pending. -/
theorem witness_EveryStepKeepsTheInvariant :
    let s : State := { State.reset with
      stream := [(0, 0xA5)], len := 1, clmem := [(3, 1)], sfail := true, seenEos := true, stale := [0],
      events := [.access false (.write 0 4 0x10000001)] }
    s.Inv ∧ ∃ t, step s = .next t :=
  ⟨⟨by decide, by decide, fun v hv h => by
      rw [List.eq_of_mem_replicate hv] at h; exact absurd h Bool.false_ne_true, by decide, by decide, by decide, by decide,
      by decide, by decide, by decide, by decide, by decide, by decide, by decide, by decide,
      fun k hk _ => absurd hk (Nat.not_lt_zero k)⟩, _, rfl⟩

theorem witness_GhostBitsRecordTheStops :
    (∃ t, step (cmd stateA1 0x20000010) = .next t) ∧
    step (cmd { State.reset with len := 1 } 0x20000001) = .fault .unwrittenStreamByte ∧
    step (cmd { stateA1 with stale := [0] } 0x20000001) = .refused .staleStreamByte := ⟨⟨_, rfl⟩, rfl, rfl⟩

/-- A failing BUILD of a valid slot, and a reset. -/
theorem witness_OnlyBuildAndResetChangeASlot :
    (∃ t, step (cmd stateD7 0x51000000) = .next t ∧ slotAt t 1 ≠ slotAt (cmd stateD7 0x51000000) 1) ∧
    ∃ t, step (pend stateD7 .reset) = .next t ∧ slotAt t 1 ≠ slotAt (pend stateD7 .reset) 1 :=
  ⟨⟨_, rfl, fun h => absurd (congrArg Slot.valid h) (by decide)⟩, _, rfl,
    fun h => absurd (congrArg Slot.valid h) (by decide)⟩

theorem witness_LoadclLoadsTheLengths :
    [2, 0, 15].length ≤ State.reset.config.maxSymbol ∧ ∃ es, assemble (.loadcl [2, 0, 15]) = some es := ⟨by decide, _, rfl⟩

theorem witness_LdstreamStartsAReadableStream :
    State.reset.config.wf = true ∧ [0xA5, 0x3C, 0, 1, 255].length ≤ State.reset.config.streamBytes ∧
    ∃ es, assemble (.ldstream [0xA5, 0x3C, 0, 1, 255]) = some es := ⟨by decide, by decide, _, rfl⟩

end Sys2Proof.Tests
end

/-! PROOFS of the statements about the state (10_state.md): the invariant along steps, single events, reset, the host's view
of the registers, RESULT, the state each command writes, and what the shift register cannot change. -/

namespace Sys2Proof.Machine

open Sys2Proof

/-! ### The invariant -/

/-- Reset meets the invariant: every slot is invalid, every memory is empty, and the bit reader is at 0 (R37). -/
theorem resetOf_inv {c : Config} (hc : c.wf = true) : (State.resetOf c).Inv := by
  refine State.Inv.mk' hc (List.length_replicate ..) ?tables rfl (by simp [State.resetOf]) rfl (by simp [State.resetOf])
    (Nat.zero_le _) (Nat.zero_le _) rfl rfl .nil (by simp [State.resetOf]) ?reader
  case tables =>
    intro v hv hval
    rw [List.eq_of_mem_replicate hv] at hval
    exact absurd hval Bool.false_ne_true
  case reader => exact ⟨rfl, Nat.zero_le _, fun k hk => absurd hk (Nat.not_lt_zero k)⟩

/-- The reset of a running block meets the invariant: it differs from the reset state in the ghost bits and the host's
fields alone. -/
theorem resetBlock_inv {s : State} (hc : s.config.wf = true) : (resetBlock s).Inv :=
  (resetOf_inv hc).congr 0 .ok s.faulted s.refused s.events s.readData

theorem runCommand_inv {w : Word} {s t : State} (hs : s.Inv) (h : runCommand w s = .next t) : t.Inv := by
  rcases runCommand_next h with ⟨i, -, hi⟩ | ⟨-, rfl⟩
  · exact exec_inv hs hi
  · exact raise_inv hs (by simp)

/-- Every event keeps the invariant. -/
theorem takeEvent_inv {e : Event} {s t : State} (hs : s.Inv) (h : takeEvent e s = .next t) : t.Inv := by
  rcases takeEvent_next h with ⟨-, rfl⟩ | ⟨n, -, rfl⟩ | ⟨a, b, d, -, rfl⟩ | ⟨w, -, hw⟩ |
    ⟨a, b, v, -, -, ⟨i, rfl⟩ | rfl⟩
  · exact resetBlock_inv hs.config_wf
  · exact refill_inv hs n
  · exact hs.congr s.result s.lastErr s.faulted s.refused s.events (some d)
  · exact runCommand_inv hs hw
  · exact writeStreamWord_inv hs i v
  · exact hs

/-- Taking an event off the list keeps the invariant. -/
theorem events_inv {s : State} (hs : s.Inv) (es : List Event) : State.Inv { s with events := es } :=
  hs.congr s.result s.lastErr s.faulted s.refused es s.readData

/-- Settles O51: no slot is valid and every memory is empty after reset. -/
theorem resetMeetsTheInvariant : Obligations.ResetMeetsTheInvariant := fun _ hc => resetOf_inv hc

/-- Settles O52: by cases on the pending event, each of whose effects keeps the invariant. -/
theorem everyStepKeepsTheInvariant : Obligations.EveryStepKeepsTheInvariant := by
  intro s t hs h
  cases he : s.events with
  | nil =>
    rw [step_of_idle he] at h
    exact next_inj h ▸ hs
  | cons e rest =>
    rw [step_of_events he] at h
    exact takeEvent_inv (events_inv hs rest) h

/-! ### Single steps -/

theorem raise_illegalCmd (s : State) : raise .illegalCmd s = illegalResult s := rfl

theorem runCommand_of_decode_ok {w : Word} {i : Instr} (h : decode w = .ok i) (s : State) :
    runCommand w s = exec i s := by
  rw [runCommand, h]

theorem runCommand_of_decode_error {w : Word} {e : DecodeError} (h : decode w = .error e) (s : State) :
    runCommand w s = .next (illegalResult s) := by
  rw [runCommand, h, raise_illegalCmd]

/-- A host write of 32 bits to CMD runs its word (R23). -/
theorem step_of_cmdEvent {s : State} {w : Word} {rest : List Event} (h : s.events = cmdEvent w :: rest) :
    step s = runCommand w { s with events := rest } := by
  rw [step_of_events h, cmdEvent, takeEvent_write (by decide), hostWrite_cmd]

theorem decodeTableWord_eq_some {nbits w : Nat} {i : Instr} (h : decodeTableWord nbits w = some i) :
    decode (BitVec.ofNat 32 (w % 2 ^ nbits)) = .ok i := by
  unfold decodeTableWord at h
  split at h
  · rename_i hd; rw [hd, Option.some.inj h]
  · exact absurd h (by simp)

/-- Addresses outside the stream window (20_memory.md R61). -/
theorem inWindow_eq_false {c : Config} {a : Word}
    (h : a.toNat < 0x10000000 ∨ 0x10000000 + 4 * ((c.streamBytes + 3) / 4) ≤ a.toNat) : inWindow c a = false := by
  rw [Bool.eq_false_iff, ne_eq, inWindow_iff, windowBase, windowSize]
  omega

theorem shapeOk_of_aligned {a : Word} (h : a.toNat % 4 = 0) : shapeOk a 4 = true := by
  simp [shapeOk, h]

/-- An aligned read outside the stream window answers the register at its address (R61). -/
theorem step_of_register_read {s : State} {a : Word} {rest : List Event}
    (h : s.events = .access false (.read a 4) :: rest) (ha : a.toNat % 4 = 0) (hw : inWindow s.config a = false) :
    step s = .next { s with events := rest, readData := some (registerRead s a) } := by
  rw [step_of_events h, takeEvent_read (shapeOk_of_aligned ha)]
  exact hostRead_register (s := { s with events := rest }) hw

/-- Settles O1: a write to CMD is the run of its word, and a read of CMD is a register read. -/
theorem stepRunsTheCommandWrittenToCmd : Obligations.StepRunsTheCommandWrittenToCmd := by
  refine ⟨fun s w rest i he hd => ?_, fun s w rest e he hd => ?_, fun s rest he => ?_, fun s => step_of_idle⟩
  · rw [step_of_cmdEvent he, runCommand_of_decode_ok hd]
  · rw [step_of_cmdEvent he, runCommand_of_decode_error hd]
  · exact step_of_register_read he rfl (inWindow_eq_false (.inl (by decide)))

/-- Settles O2: the word placed is the next write to CMD. -/
theorem fetchedWordRunsNext : Obligations.FetchedWordRunsNext := by
  intro s w i h
  rw [step_of_cmdEvent (rest := s.events) rfl, runCommand_of_decode_ok (decodeTableWord_eq_some h)]
  rfl

/-- Settles O45: the address is neither CMD nor in the window. -/
theorem hostWritesElsewhereAreIgnored : Obligations.HostWritesElsewhereAreIgnored := by
  intro s a v rest he ha h0 hw
  rw [step_of_events he, takeEvent_write (shapeOk_of_aligned ha)]
  exact hostWrite_ignored (s := { s with events := rest }) h0 (inWindow_eq_false hw) v

/-- Settles O58: the event is a refill, whose whole effect `refill_loads` states. -/
theorem prefetchLoadsWholeBytes : Obligations.PrefetchLoadsWholeBytes := by
  intro s n rest he
  rw [step_of_events he, takeEvent, refill_loads]
  rfl

/-! ### Reset -/

/-- No slot is valid after reset, nor is a number past the table store (R37). -/
theorem resetBlock_slotAt (s : State) (k : Nat) : slotAt (resetBlock s) k = Slot.reset := by
  rw [slotAt, resetBlock_slots, List.getD_eq_getElem?_getD, List.getElem?_replicate]
  split <;> rfl

/-- Settles O50: the step is `resetBlock`, and each part is the value of one element after it. -/
theorem resetGivesTheResetValues : Obligations.ResetGivesTheResetValues := by
  intro s rest he
  refine ⟨resetBlock { s with events := rest }, step_of_events he, rfl, rfl, rfl, rfl, rfl, rfl, rfl, rfl, rfl, ?slots,
    List.length_replicate .., fun _ => rfl, fun _ => rfl, rfl, rfl, fun _ => rfl, rfl, rfl⟩
  case slots =>
    intro k
    rw [resetBlock_slotAt]
    rfl

/-! ### What a host reads -/

/-- STATUS as a number (R25). -/
theorem statusWord_toNat (s : State) :
    (statusWord s).toNat = s.lastErr.code.toNat + 2 ^ 4 * s.sfail.toNat + 2 ^ 5 * s.seenEos.toNat +
      2 ^ 6 * s.seenInvalid.toNat := by
  simp only [statusWord, toNat_append_eq, BitVec.toNat_ofBool, BitVec.toNat_ofNat]
  omega

/-- CAPS as a number, for parameters in range (R28). -/
theorem capsWord_toNat {c : Config} (hc : c.wf = true) :
    (capsWord c).toNat = c.maxSymbol + 2 ^ 16 * c.numSlots + 2 ^ 24 * (decide (c.pIncomplete = .reject)).toNat := by
  simp only [Config.wf, Bool.and_eq_true, decide_eq_true_eq] at hc
  have hs : c.maxSymbol < 2 ^ 13 := by omega
  have hn : c.numSlots < 2 ^ 5 := by omega
  simp only [capsWord, toNat_append_eq, BitVec.toNat_ofBool, BitVec.toNat_ofNat, Nat.mod_eq_of_lt hs,
    Nat.mod_eq_of_lt hn]
  omega

/-- From 0x018 on no address outside the window has a register (R29). -/
theorem registerRead_of_no_register {a : Word} (s : State) (h : 0x018 ≤ a.toNat) : registerRead s a = 0 := by
  unfold registerRead
  split
  case h_6 => rfl
  all_goals omega

theorem len_setWidth_toNat (l : BitVec 28) : (l.setWidth 32).toNat = l.toNat :=
  BitVec.toNat_setWidth_of_le (by decide)

/-- Settles O44: the step answers `registerRead`, and each part is its value at one address. -/
theorem hostReadsReturnTheRegisters : Obligations.HostReadsReturnTheRegisters := by
  intro s a rest he ha hw hc
  refine ⟨registerRead s a, step_of_register_read he ha (inWindow_eq_false hw), fun h => ?_, fun h => ?_, fun h => ?_,
    fun h => ?_, fun h => ?_, fun h => ?_, registerRead_of_no_register s⟩
  · simp only [registerRead, h]
  · simp only [registerRead, h]
  · rw [registerRead, h]; exact statusWord_toNat s
  · simp only [registerRead, h]
  · rw [registerRead, h]; exact len_setWidth_toNat s.len
  · rw [registerRead, h]; exact capsWord_toNat hc

/-! ### STREAM and SETCL -/

/-- Everything STREAM answers (40_bitreader.md R104). -/
theorem execStream_next {len : BitVec 28} {s t : State} (h : execStream len s = .next t) :
    (lenOk s len = true ∧ t = finish 0 .ok (clearSticky (startStream len s))) ∨
    (lenOk s len = false ∧ t = raise .illegalCmd s) := by
  unfold execStream at h
  split at h
  · rename_i hl; exact .inl ⟨hl, next_inj h⟩
  · rename_i hl; exact .inr ⟨by simpa using hl, next_inj h⟩

/-- Everything SETCL answers (41_codelengths.md R120). -/
theorem execSetcl_next {sym : BitVec 12} {cl : BitVec 4} {s t : State} (h : execSetcl sym cl s = .next t) :
    (symOk s sym = true ∧ t = finish 0 .ok { s with clmem := clWrite s.clmem sym.toNat cl }) ∨
    (symOk s sym = false ∧ t = raise .illegalCmd s) := by
  unfold execSetcl at h
  split at h
  · rename_i hl; exact .inl ⟨hl, next_inj h⟩
  · rename_i hl; exact .inr ⟨by simpa using hl, next_inj h⟩

/-! ### RESULT -/

/-- RESULT and LASTERR agree as R24 says: 0xFFFFFFFF for a failure, a value below 2^31 for a success. -/
def ResultFits (t : State) : Prop :=
  (t.lastErr ≠ .ok → t.result = 0xFFFFFFFF#32) ∧ (t.lastErr = .ok → t.result.toNat < 2 ^ 31)

theorem raise_resultFits {e : ErrorCode} (he : e ≠ .ok) (s : State) : ResultFits (raise e s) :=
  ⟨fun _ => raise_result e s, fun h => absurd ((raise_lastErr e s).symm.trans h) he⟩

theorem finish_resultFits {v : Word} (hv : v.toNat < 2 ^ 31) (s : State) : ResultFits (finish v .ok s) :=
  ⟨fun h => absurd rfl h, fun _ => hv⟩

/-- A value of at most 31 bits, as READBITS returns it (R105). -/
theorem ofNat_streamValue_lt (s : State) (p : Nat) (n : BitVec 5) :
    (BitVec.ofNat 32 (streamValue s p n.toNat)).toNat < 2 ^ 31 := by
  have hn : 2 ^ n.toNat ≤ 2 ^ 31 := Nat.pow_le_pow_right (by omega) (by omega)
  have hv := streamValue_lt s p n.toNat
  rw [BitVec.toNat_ofNat]
  omega

/-- A zero-extended field of at most 31 bits, as DECODE and the inspection commands return it. -/
theorem setWidth_toNat_lt {w : Nat} (hw : w ≤ 31) (x : BitVec w) : (x.setWidth 32).toNat < 2 ^ 31 := by
  rw [BitVec.toNat_setWidth_of_le (by omega)]
  exact x.isLt.trans_le (Nat.pow_le_pow_right (by omega) hw)

/-- Bits [31:17] of a table's summary are 0 (44_inspect.md R182). -/
theorem summaryWord_toNat_lt (t : Table) : (summaryWord t).toNat < 2 ^ 31 := by
  have hm := t.maxLen.isLt
  simp only [summaryWord, toNat_append_eq, BitVec.toNat_ofNat]
  omega

theorem execRdmain_resultFits {slot : BitVec 4} {idx : BitVec 8} {s t : State}
    (h : execRdmain slot idx s = .next t) : ResultFits t := by
  unfold execRdmain at h
  split at h
  · exact next_inj h ▸ raise_resultFits (by decide) s
  · split at h
    · exact next_inj h ▸ raise_resultFits (by decide) s
    · exact next_inj h ▸ finish_resultFits (setWidth_toNat_lt (by decide) _) s

theorem execRdsub_resultFits {slot : BitVec 4} {sub : BitVec 8} {idx : BitVec 7} {s t : State}
    (h : execRdsub slot sub idx s = .next t) : ResultFits t := by
  unfold execRdsub at h
  dsimp only at h
  split at h
  · exact next_inj h ▸ raise_resultFits (by decide) s
  · split at h
    · exact next_inj h ▸ raise_resultFits (by decide) s
    · split at h
      · exact next_inj h ▸ raise_resultFits (by decide) s
      · exact next_inj h ▸ finish_resultFits (setWidth_toNat_lt (by decide) _) s

theorem execTinfo_resultFits {slot : BitVec 4} {s t : State} (h : execTinfo slot s = .next t) : ResultFits t := by
  unfold execTinfo at h
  split at h
  · exact next_inj h ▸ raise_resultFits (by decide) s
  · split at h
    · exact next_inj h ▸ finish_resultFits (summaryWord_toNat_lt _) s
    · exact next_inj h ▸ finish_resultFits (by decide) s

/-- Every command leaves RESULT and LASTERR in agreement (R24). -/
theorem exec_resultFits {i : Instr} {s t : State} (h : exec i s = .next t) : ResultFits t := by
  cases i with
  | nop => exact next_inj h ▸ finish_resultFits (by decide) s
  | stream len =>
    rcases execStream_next h with ⟨-, rfl⟩ | ⟨-, rfl⟩
    · exact finish_resultFits (by decide) _
    · exact raise_resultFits (by decide) s
  | readbits n =>
    rcases execReadbits_next h with ⟨-, rfl⟩ | ⟨-, -, rfl⟩ | ⟨-, -, -, rfl⟩ | ⟨-, -, -, -, rfl⟩
    · exact raise_resultFits (by decide) s
    · exact raise_resultFits (by decide) s
    · exact raise_resultFits (by decide) s
    · exact finish_resultFits (ofNat_streamValue_lt s _ n) _
  | setcl sym cl =>
    rcases execSetcl_next h with ⟨-, rfl⟩ | ⟨-, rfl⟩
    · exact finish_resultFits (by decide) _
    · exact raise_resultFits (by decide) s
  | clrcl => exact next_inj h ▸ finish_resultFits (by decide) _
  | build slot cnt =>
    rcases execBuild_next slot cnt s with ⟨-, e⟩ | ⟨-, ⟨_, -, hb, e⟩ | ⟨_, -, e⟩⟩ <;> rw [next_inj (e.symm.trans h)]
    · exact raise_resultFits (by decide) s
    · exact raise_resultFits (by rcases hb with rfl | rfl | rfl <;> decide) _
    · exact finish_resultFits (by decide) _
  | decode slot =>
    rcases execDecode_next h with ⟨-, rfl⟩ | ⟨-, -, rfl⟩ | ⟨-, -, -, rfl⟩ |
      ⟨-, -, -, -, ⟨-, rfl⟩ | ⟨-, -, rfl⟩ | ⟨-, -, rfl⟩⟩
    · exact raise_resultFits (by decide) s
    · exact raise_resultFits (by decide) s
    · exact raise_resultFits (by decide) s
    · exact raise_resultFits (by decide) s
    · exact raise_resultFits (by decide) s
    · exact finish_resultFits (setWidth_toNat_lt (by decide) _) _
  | rdmain slot idx => exact execRdmain_resultFits h
  | rdsub slot sub idx => exact execRdsub_resultFits h
  | tinfo slot => exact execTinfo_resultFits h

/-- Settles O38: every command ends with `raise` of an error or with `finish` of a small value. -/
theorem failureValueIsNeverASuccess : Obligations.FailureValueIsNeverASuccess :=
  ⟨rfl, fun _ _ _ h => exec_resultFits h⟩

/-! ### The state each command writes -/

/-- A read that completes writes RESULT, LASTERR, POS and the shift register (R38). -/
theorem finish_consume_frame (v : Word) (e : ErrorCode) (n : Nat) (s : State) :
    finish v e (consume n s) = { s with
      result := v, lastErr := e, pos := (consume n s).pos, cur := (consume n s).cur, sr := (consume n s).sr } := by
  rw [consume_pos]
  exact congrArg (finish v e) (consume_eq n s)

theorem execStream_frame {len : BitVec 28} {s t : State} (h : execStream len s = .next t) : t = { s with
    result := t.result, lastErr := t.lastErr, sfail := t.sfail, seenEos := t.seenEos, seenInvalid := t.seenInvalid,
    pos := t.pos, len := t.len, cur := t.cur, sr := t.sr, stale := t.stale } := by
  rcases execStream_next h with ⟨-, rfl⟩ | ⟨-, rfl⟩ <;> rfl

theorem execReadbits_frame {n : BitVec 5} {s t : State} (h : execReadbits n s = .next t) : t = { s with
    result := t.result, lastErr := t.lastErr, sfail := t.sfail, seenEos := t.seenEos,
    pos := t.pos, cur := t.cur, sr := t.sr } := by
  rcases execReadbits_next h with ⟨-, rfl⟩ | ⟨-, -, rfl⟩ | ⟨-, -, -, rfl⟩ | ⟨-, -, -, -, rfl⟩
  · rfl
  · rfl
  · rfl
  · rw [finish_consume_frame]

theorem execDecode_frame {slot : BitVec 4} {s t : State} (h : execDecode slot s = .next t) : t = { s with
    result := t.result, lastErr := t.lastErr, sfail := t.sfail, seenEos := t.seenEos, seenInvalid := t.seenInvalid,
    pos := t.pos, cur := t.cur, sr := t.sr } := by
  rcases execDecode_next h with ⟨-, rfl⟩ | ⟨-, -, rfl⟩ | ⟨-, -, -, rfl⟩ |
    ⟨-, -, -, -, ⟨-, rfl⟩ | ⟨-, -, rfl⟩ | ⟨-, -, rfl⟩⟩
  · rfl
  · rfl
  · rfl
  · rfl
  · rfl
  · rw [finish_consume_frame]

theorem execSetcl_frame {sym : BitVec 12} {cl : BitVec 4} {s t : State} (h : execSetcl sym cl s = .next t) :
    t = { s with result := t.result, lastErr := t.lastErr, clmem := t.clmem } := by
  rcases execSetcl_next h with ⟨-, rfl⟩ | ⟨-, rfl⟩ <;> rfl

/-- Writing a slot leaves the others (R30). -/
theorem slotAt_setSlot_of_ne {s : State} {t k : Nat} (h : k ≠ t) (v : Slot) :
    slotAt (setSlot s t v) k = slotAt s k := by
  rw [slotAt_setSlot, if_neg fun hk => h hk.1]

theorem execBuild_frame {slot : BitVec 4} {cnt : BitVec 13} {s t : State} (h : execBuild slot cnt s = .next t) :
    t = { s with result := t.result, lastErr := t.lastErr, slots := t.slots } ∧
      ∀ k, k ≠ slot.toNat → slotAt t k = slotAt s k := by
  rcases execBuild_next slot cnt s with ⟨-, e⟩ | ⟨-, ⟨err, -, he, e⟩ | ⟨tbl, -, e⟩⟩ <;> rw [next_inj (e.symm.trans h)]
  · exact ⟨rfl, fun k _ => rfl⟩
  · have hne : err ≠ .eos ∧ err ≠ .invalidCode := by rcases he with rfl | rfl | rfl <;> decide
    rw [raise_plain hne.1 hne.2]
    exact ⟨rfl, fun k hk => slotAt_setSlot_of_ne hk _⟩
  · exact ⟨rfl, fun k hk => slotAt_setSlot_of_ne hk _⟩

/-- A command that always answers with RESULT and LASTERR written has written nothing else. -/
theorem frame_of_result_lastErr {o : Host.Outcome State Fault Refusal} {s t : State}
    (ho : ∃ v e, o = .next { s with result := v, lastErr := e }) (h : o = .next t) :
    t = { s with result := t.result, lastErr := t.lastErr } := by
  obtain ⟨v, e, rfl⟩ := ho
  rw [next_inj h]

/-- Settles O43: the frame of each command, one by one. -/
theorem eachCommandWritesItsStateOnly : Obligations.EachCommandWritesItsStateOnly := fun s t =>
  ⟨frame_of_result_lastErr ⟨0, .ok, rfl⟩,
    fun _ => execStream_frame,
    fun _ => execReadbits_frame,
    fun _ _ => execSetcl_frame,
    fun h => by rw [next_inj h]; rfl,
    fun _ _ => execBuild_frame,
    fun _ => execDecode_frame,
    fun slot idx => frame_of_result_lastErr (execRdmain_next slot idx s),
    fun slot sub idx => frame_of_result_lastErr (execRdsub_next slot sub idx s),
    fun slot => frame_of_result_lastErr (execTinfo_next slot s)⟩

/-! ### What the shift register cannot change -/

/-- Two outcomes agree but for CUR and SR of the next state (R35). -/
def AgreeButReader : Host.Outcome State Fault Refusal → Host.Outcome State Fault Refusal → Prop
  | .next t, o => ∃ (c : Nat) (r : List (Option Bool)), o = .next { t with cur := c, sr := r }
  | .fault f, o => o = .fault f
  | .refused f, o => o = .refused f

/-- Checks that do not look at the shift register select the same branch. -/
theorem agree_ite {p : Prop} [Decidable p] {a b a' b' : Host.Outcome State Fault Refusal}
    (ha : AgreeButReader a a') (hb : AgreeButReader b b') :
    AgreeButReader (if p then a else b) (if p then a' else b') := by
  split
  · exact ha
  · exact hb

theorem stop_agree (e : Stop) : AgreeButReader e.outcome e.outcome := by
  cases e <;> rfl

section reader

variable (s : State) (c : Nat) (r : List (Option Bool))

/-- Peek does not look at the shift register (40_bitreader.md R101). -/
theorem peek_reader (p n : Nat) : peek { s with cur := c, sr := r } p n = peek s p n :=
  peek_congr (s := { s with cur := c, sr := r }) (t := s) rfl rfl rfl p n

theorem raise_agree (e : ErrorCode) :
    AgreeButReader (.next (raise e s)) (.next (raise e { s with cur := c, sr := r })) :=
  ⟨c, r, by cases e <;> rfl⟩

theorem finish_agree (v : Word) (e : ErrorCode) :
    AgreeButReader (.next (finish v e s)) (.next (finish v e { s with cur := c, sr := r })) :=
  ⟨c, r, rfl⟩

/-- Consume moves POS by the same number whatever is prefetched (40_bitreader.md R102). -/
theorem finish_consume_agree (v : Word) (e : ErrorCode) (n : Nat) :
    AgreeButReader (.next (finish v e (consume n s)))
      (.next (finish v e (consume n { s with cur := c, sr := r }))) := by
  rw [finish_consume_frame, finish_consume_frame, consume_pos, consume_pos]
  exact ⟨_, _, rfl⟩

/-- A STREAM that is accepted discards what was prefetched (40_bitreader.md R104). -/
theorem execStream_agree (len : BitVec 28) :
    AgreeButReader (execStream len s) (execStream len { s with cur := c, sr := r }) :=
  agree_ite ⟨0, [], rfl⟩ (raise_agree s c r _)

theorem execReadbits_agree (n : BitVec 5) :
    AgreeButReader (execReadbits n s) (execReadbits n { s with cur := c, sr := r }) := by
  simp only [execReadbits, peek_reader]
  refine agree_ite (raise_agree s c r _) (agree_ite (raise_agree s c r _) (agree_ite (raise_agree s c r _) ?_))
  cases peek s s.pos.toNat n.toNat with
  | error e => exact stop_agree e
  | ok v => exact finish_consume_agree s c r _ _ _

theorem execBuild_agree (slot : BitVec 4) (cnt : BitVec 13) :
    AgreeButReader (execBuild slot cnt s) (execBuild slot cnt { s with cur := c, sr := r }) := by
  refine agree_ite ?_ (raise_agree s c r _)
  dsimp only
  cases buildTable s.config.pIncomplete (presentLengths s.clmem cnt.toNat) with
  | error e => exact raise_agree (invalidateSlot s slot.toNat) c r e
  | ok t => exact finish_agree (installTable s slot.toNat t) c r _ _

theorem execDecode_agree (slot : BitVec 4) :
    AgreeButReader (execDecode slot s) (execDecode slot { s with cur := c, sr := r }) := by
  have hslot : slotAt { s with cur := c, sr := r } slot.toNat = slotAt s slot.toNat := rfl
  simp only [execDecode, hslot, peek_reader]
  refine agree_ite (raise_agree s c r _) (agree_ite (raise_agree s c r _) (agree_ite (raise_agree s c r _) ?_))
  cases peek s s.pos.toNat (slotAt s slot.toNat).table.maxLen.toNat with
  | error e => exact stop_agree e
  | ok x =>
    exact agree_ite (raise_agree s c r _) (agree_ite (raise_agree s c r _) (finish_consume_agree s c r _ _ _))

/-- Every command answers the same whatever the shift register holds. -/
theorem exec_agree (i : Instr) : AgreeButReader (exec i s) (exec i { s with cur := c, sr := r }) := by
  cases i with
  | nop => exact finish_agree s c r _ _
  | stream len => exact execStream_agree s c r len
  | readbits n => exact execReadbits_agree s c r n
  | setcl sym cl =>
    exact agree_ite (finish_agree { s with clmem := clWrite s.clmem sym.toNat cl } c r _ _) (raise_agree s c r _)
  | clrcl => exact finish_agree { s with clmem := [] } c r _ _
  | build slot cnt => exact execBuild_agree s c r slot cnt
  | decode slot => exact execDecode_agree s c r slot
  | rdmain slot idx =>
    exact agree_ite (raise_agree s c r _) (agree_ite (raise_agree s c r _) (finish_agree s c r _ _))
  | rdsub slot sub idx =>
    exact agree_ite (raise_agree s c r _)
      (agree_ite (raise_agree s c r _) (agree_ite (raise_agree s c r _) (finish_agree s c r _ _)))
  | tinfo slot =>
    exact agree_ite (raise_agree s c r _) (agree_ite (finish_agree s c r _ _) (finish_agree s c r _ _))

end reader

/-- Settles O16: the two outcomes agree but for CUR and SR, and a fault or a refusal has neither. -/
theorem prefetchIsUnobservable : Obligations.PrefetchIsUnobservable := by
  intro i s c r
  have h := exec_agree s c r i
  refine ⟨fun t ht => ?_, fun f hf => ?_, fun f hf => ?_⟩
  · rwa [ht] at h
  · rwa [hf] at h
  · rwa [hf] at h

end Sys2Proof.Machine

/-! PROOFS of the statements about memory (20_memory.md): which commands stop, the accesses the model refuses, and what a
write and a read of the stream window do. -/

namespace Sys2Proof.Machine

open Sys2Proof

/-! ### Which commands stop -/

/-- READBITS past its checks stops as Peek does (40_bitreader.md R105). -/
theorem execReadbits_of_stop {n : BitVec 5} {s : State} {e : Stop} (hn : n ≠ 0) (hs : s.sfail = false)
    (hp : s.pos.toNat + n.toNat ≤ streamBits s) (he : peek s s.pos.toNat n.toNat = .error e) :
    execReadbits n s = e.outcome := by
  rw [execReadbits, if_neg hn, if_neg (by simp [hs]), if_neg (not_lt.2 hp), he]

/-- DECODE past its checks stops as Peek does (43_decode.md R160). -/
theorem execDecode_of_stop {slot : BitVec 4} {s : State} {e : Stop} (h1 : slotOk s slot = true)
    (h2 : (slotAt s slot.toNat).valid = true) (h3 : s.sfail = false)
    (he : peek s s.pos.toNat (slotAt s slot.toNat).table.maxLen.toNat = .error e) :
    execDecode slot s = e.outcome := by
  rw [execDecode, if_neg (by simp [h1]), if_neg (by simp [h2]), if_neg (by simp [h3]), he]

/-- A READBITS that does not answer a next state has come to a Peek that stops. -/
theorem execReadbits_stopped {n : BitVec 5} {s : State} (h : ∀ t, execReadbits n s ≠ .next t) :
    s.sfail = false ∧ ∃ e, peek s s.pos.toNat n.toNat = .error e := by
  unfold execReadbits at h
  split at h
  · exact absurd rfl (h _)
  · split at h
    · exact absurd rfl (h _)
    · rename_i hs
      split at h
      · exact absurd rfl (h _)
      · split at h
        · rename_i e he; exact ⟨by simpa using hs, e, he⟩
        · exact absurd rfl (h _)

/-- A DECODE that does not answer a next state has come to a Peek that stops. -/
theorem execDecode_stopped {slot : BitVec 4} {s : State} (h : ∀ t, execDecode slot s ≠ .next t) :
    s.sfail = false ∧ ∃ e, peek s s.pos.toNat (slotAt s slot.toNat).table.maxLen.toNat = .error e := by
  unfold execDecode at h
  split at h
  · exact absurd rfl (h _)
  · split at h
    · exact absurd rfl (h _)
    · split at h
      · exact absurd rfl (h _)
      · rename_i hs
        split at h
        · rename_i e he; exact ⟨by simpa using hs, e, he⟩
        · dsimp only at h
          split at h
          · exact absurd rfl (h _)
          · split at h <;> exact absurd rfl (h _)

/-- The commands that do not peek always answer a next state (60_exceptions.md R210). -/
theorem exec_completes {i : Instr} (hr : ∀ n, i ≠ .readbits n) (hd : ∀ slot, i ≠ .decode slot) (s : State) :
    ∃ t, exec i s = .next t := by
  cases i with
  | nop => exact ⟨_, rfl⟩
  | stream len => rw [exec, execStream]; split <;> exact ⟨_, rfl⟩
  | readbits n => exact absurd rfl (hr n)
  | setcl sym cl => rw [exec, execSetcl]; split <;> exact ⟨_, rfl⟩
  | clrcl => exact ⟨_, rfl⟩
  | build slot cnt =>
    rcases execBuild_next slot cnt s with ⟨-, e⟩ | ⟨-, ⟨_, -, -, e⟩ | ⟨_, -, e⟩⟩ <;> exact ⟨_, e⟩
  | decode slot => exact absurd rfl (hd slot)
  | rdmain slot idx => obtain ⟨_, _, e⟩ := execRdmain_next slot idx s; exact ⟨_, e⟩
  | rdsub slot sub idx => obtain ⟨_, _, e⟩ := execRdsub_next slot sub idx s; exact ⟨_, e⟩
  | tinfo slot => obtain ⟨_, _, e⟩ := execTinfo_next slot s; exact ⟨_, e⟩

/-- Settles O15: only READBITS and DECODE have a branch that is not a next state, and it is where their Peek stops. -/
theorem commandsStopOnlyWherePeekDoes : Obligations.CommandsStopOnlyWherePeekDoes := by
  refine ⟨fun n s e => execReadbits_of_stop, fun slot s e hslot => execDecode_of_stop (decide_eq_true hslot), ?stopped,
    fun i s hr hd => exec_completes hr hd s⟩
  case stopped =>
    intro i s h
    by_cases hr : ∃ n, i = .readbits n
    · obtain ⟨n, rfl⟩ := hr
      obtain ⟨hs, e, he⟩ := execReadbits_stopped h
      exact ⟨hs, .inl ⟨n, e, rfl, he⟩⟩
    · by_cases hd : ∃ slot, i = .decode slot
      · obtain ⟨slot, rfl⟩ := hd
        obtain ⟨hs, e, he⟩ := execDecode_stopped h
        exact ⟨hs, .inr ⟨slot, e, rfl, he⟩⟩
      · obtain ⟨t, ht⟩ := exec_completes (not_exists.1 hr) (not_exists.1 hd) s
        exact absurd ht (h t)

/-! ### Refused accesses -/

theorem shapeOk_eq_false {a : Word} {bytes : Nat} (h : bytes ≠ 4 ∨ a.toNat % 4 ≠ 0) : shapeOk a bytes = false := by
  simpa [shapeOk, imp_iff_not_or] using h

/-- Settles O46: a wrong shape fails the one check of `hostAccess`, and reset is looked at before it. -/
theorem malformedAccessesAreRefused : Obligations.MalformedAccessesAreRefused := by
  refine ⟨fun s a v bytes rest hshape he => ?_, fun s x rest he => by rw [step_of_events he, takeEvent]⟩
  have hs := shapeOk_eq_false hshape
  rcases he with he | he <;> rw [step_of_events he, takeEvent, hostAccess, hs, if_neg Bool.false_ne_true]

/-! ### Writes of the stream window -/

/-- A write of word k of the stream window (20_memory.md R61, R63). -/
theorem step_of_window_write {s : State} {k : Nat} {v : Word} {rest : List Event} (hc : s.config.wf = true)
    (hk : 4 * k < s.config.streamBytes)
    (he : s.events = .access false (.write (BitVec.ofNat 32 (0x10000000 + 4 * k)) 4 v) :: rest) :
    step s = .next (writeStreamWord (4 * k) v { s with events := rest }) := by
  obtain ⟨hshape, haddr, hw⟩ := windowAddr hc hk
  rw [step_of_events he, takeEvent_write hshape, hostWrite_window (s := { s with events := rest }) hw, haddr]

/-- A field of a word is the number its bits stand for (00_scope.md R10). -/
theorem extractLsb'_eq_ofNat {n : Nat} (w : BitVec n) (start len : Nat) :
    w.extractLsb' start len = BitVec.ofNat len (w.toNat / 2 ^ start) := by
  rw [field_eq_iff, BitVec.toNat_ofNat]

/-- A word write changes STREAM_MEM and STALE alone (20_memory.md R63). -/
theorem writeStreamWord_frame (i : Nat) (v : Word) (s : State) :
    writeStreamWord i v s =
      { s with stream := (writeStreamWord i v s).stream, stale := (writeStreamWord i v s).stale } := by
  obtain ⟨m, l, h⟩ := writeStreamWord_eq s i v
  rw [h]

/-- Settles O47: the step is `writeStreamWord`, whose effect on each byte and each STALE bit the laws of memory give. -/
theorem windowWriteStoresLittleEndian : Obligations.WindowWriteStoresLittleEndian := by
  intro s k v rest hc hk he
  refine ⟨_, _, (step_of_window_write hc hk he).trans (congrArg _ (writeStreamWord_frame ..)), fun t hm hl j => ?_⟩
  have hbyte : streamByte t j = if 4 * k ≤ j ∧ j < 4 * k + 4 ∧ j < s.config.streamBytes then
      some (v.extractLsb' (8 * (j - 4 * k)) 8) else streamByte s j :=
    (streamByte_congr hm j).trans (streamByte_writeStreamWord ..)
  have hstale : isStale t j = (isStale s j || decide (4 * k ≤ j ∧ j < 4 * k + 4 ∧ j < s.config.streamBytes ∧
      s.pos.toNat / 8 ≤ j ∧ j < s.len.toNat)) :=
    (isStale_congr hl j).trans (isStale_writeStreamWord ..)
  rw [hbyte, hstale]
  constructor
  · intro ⟨h1, h2, h3⟩
    simp only [h1, h2, h3, true_and, and_self, if_true, extractLsb'_eq_ofNat]
  · intro hout
    rw [if_neg (by omega), decide_eq_false (by omega), Bool.or_false]
    exact ⟨rfl, rfl⟩

/-! ### Reads of the stream window -/

/-- The pending events are no part of the stream window (20_memory.md R64). -/
theorem windowWord_events (s : State) (rest : List Event) (i : Nat) :
    windowWord { s with events := rest } i = windowWord s i := rfl

/-- A read of word k of the stream window answers the window word at byte 4k, or faults where there is none
(20_memory.md R61, R64). -/
theorem step_of_window_read {s : State} {k : Nat} {rest : List Event} (hc : s.config.wf = true)
    (hk : 4 * k < s.config.streamBytes)
    (he : s.events = .access false (.read (BitVec.ofNat 32 (0x10000000 + 4 * k)) 4) :: rest) :
    (∀ v, windowWord s (4 * k) = some v → step s = .next { s with events := rest, readData := some v }) ∧
      (windowWord s (4 * k) = none → step s = .fault .unwrittenStreamByte) := by
  obtain ⟨hshape, haddr, hw⟩ := windowAddr hc hk
  rw [step_of_events he, takeEvent_read hshape]
  constructor
  · intro v hv
    exact hostRead_window (s := { s with events := rest }) hw (by rw [windowWord_events, haddr, hv])
  · intro hv
    exact hostRead_unwritten (s := { s with events := rest }) hw (by rw [windowWord_events, haddr, hv])

/-- The byte a window read returns where it returns one: 0 at or past STREAM_BYTES (R64). -/
def windowValue (s : State) (i : Nat) : Byte :=
  if i < s.config.streamBytes then (streamByte s i).getD 0 else 0

theorem windowByte_eq_some {s : State} {i : Nat} (h : i < s.config.streamBytes → written s i = true) :
    windowByte s i = some (windowValue s i) := by
  unfold windowByte windowValue
  split
  · rename_i hi
    obtain ⟨b, hb⟩ := Option.isSome_iff_exists.1 (h hi)
    rw [hb, Option.getD_some]
  · rfl

theorem windowByte_eq_none {s : State} {i : Nat} (hi : i < s.config.streamBytes) (h : written s i = false) :
    windowByte s i = none := by
  rwa [windowByte, if_pos hi, ← Option.isNone_iff_eq_none, ← Option.isSome_eq_false_iff]

/-- A window word with every byte readable is the little-endian word of its bytes (R64). -/
theorem windowWord_eq_some {s : State} {i : Nat}
    (h : ∀ b, b < 4 → windowByte s (i + b) = some (windowValue s (i + b))) :
    windowWord s i =
      some (windowValue s (i + 3) ++ windowValue s (i + 2) ++ windowValue s (i + 1) ++ windowValue s i) := by
  have h0 : windowByte s i = some (windowValue s i) := h 0 (by decide)
  rw [windowWord, h0, h 1 (by decide), h 2 (by decide), h 3 (by decide)]

/-- One unreadable byte makes the window word unreadable (R64). -/
theorem windowWord_eq_none {s : State} {i b : Nat} (hb : b < 4) (h : windowByte s (i + b) = none) :
    windowWord s i = none := by
  unfold windowWord
  split
  · interval_cases b <;> simp_all
  · rfl

/-- Byte b of the little-endian word of four bytes (20_memory.md R64). -/
theorem byte_of_littleEndian (f : Nat → Byte) {b : Nat} (hb : b < 4) :
    BitVec.ofNat 8 ((f 3 ++ f 2 ++ f 1 ++ f 0).toNat / 2 ^ (8 * b)) = f b := by
  have h0 := (f 0).isLt
  have h1 := (f 1).isLt
  have h2 := (f 2).isLt
  have h3 := (f 3).isLt
  apply BitVec.eq_of_toNat_eq
  rw [BitVec.toNat_ofNat]
  simp only [toNat_append_eq]
  interval_cases b <;> omega

/-- Settles O48: the window word is there exactly when its bytes below STREAM_BYTES are written. -/
theorem windowReadReturnsTheBytes : Obligations.WindowReadReturnsTheBytes := by
  intro s k rest hc hk he
  obtain ⟨hread, hfault⟩ := step_of_window_read hc hk he
  refine ⟨fun hwritten => ?_, fun j h1 h2 h3 hj => ?_⟩
  · have hbytes : ∀ b, b < 4 → windowByte s (4 * k + b) = some (windowValue s (4 * k + b)) := fun b hb =>
      windowByte_eq_some fun hlt => hwritten _ (by omega) (by omega) hlt
    exact ⟨_, hread _ (windowWord_eq_some hbytes),
      fun _ => byte_of_littleEndian fun b => windowValue s (4 * k + b)⟩
  · obtain ⟨b, rfl⟩ := Nat.exists_eq_add_of_le h1
    exact hfault (windowWord_eq_none (by omega) (windowByte_eq_none h3 hj))

end Sys2Proof.Machine

/-! PROOFS of the statements about encoding (30_encoding.md): the decoder and the opcode map, legal words, and what the
assembler's lines stand for. -/

namespace Sys2Proof

open Sys2Proof.Laws.Encoding (number)

/-! ### The rows of the opcode map -/

/-- The row of the opcode map a word is in, with its command's fields: OP, the reserved bits, each field (R81, R83). -/
def IsRow (w : Word) : Instr → Prop
  | .nop => (opField w).toNat = 0x0 ∧ w.extractLsb' 0 28 = 0
  | .stream len => (opField w).toNat = 0x1 ∧ w.extractLsb' 0 28 = len
  | .readbits n => (opField w).toNat = 0x2 ∧ w.extractLsb' 5 23 = 0 ∧ w.extractLsb' 0 5 = n
  | .setcl sym cl =>
    (opField w).toNat = 0x3 ∧ w.extractLsb' 16 12 = 0 ∧ w.extractLsb' 4 12 = sym ∧ w.extractLsb' 0 4 = cl
  | .clrcl => (opField w).toNat = 0x4 ∧ w.extractLsb' 0 28 = 0
  | .build slot cnt =>
    (opField w).toNat = 0x5 ∧ w.extractLsb' 13 11 = 0 ∧ slotField w = slot ∧ w.extractLsb' 0 13 = cnt
  | .decode slot => (opField w).toNat = 0x6 ∧ w.extractLsb' 0 24 = 0 ∧ slotField w = slot
  | .rdmain slot idx =>
    (opField w).toNat = 0x7 ∧ w.extractLsb' 8 16 = 0 ∧ slotField w = slot ∧ w.extractLsb' 0 8 = idx
  | .rdsub slot sub idx =>
    (opField w).toNat = 0x8 ∧ w.extractLsb' 15 9 = 0 ∧ slotField w = slot ∧ w.extractLsb' 7 8 = sub ∧
      w.extractLsb' 0 7 = idx
  | .tinfo slot => (opField w).toNat = 0x9 ∧ w.extractLsb' 0 24 = 0 ∧ slotField w = slot

/-- The decoder accepts a word as a command exactly when the word is in the command's row. -/
theorem decode_eq_ok_iff {w : Word} {i : Instr} : decode w = .ok i ↔ IsRow w i := by
  constructor
  · intro h
    unfold decode at h
    split at h
    case h_2 hop => obtain rfl := Except.ok.inj h; exact ⟨hop, rfl⟩
    case h_11 => exact absurd h (by simp)
    all_goals
      rename_i hop
      obtain ⟨hr, rfl⟩ := (whenReserved_eq_ok ..).1 h
    case h_1 | h_5 => exact ⟨hop, hr⟩
    case h_3 | h_7 | h_10 => exact ⟨hop, hr, rfl⟩
    case h_4 | h_6 | h_8 => exact ⟨hop, hr, rfl, rfl⟩
    case h_9 => exact ⟨hop, hr, rfl, rfl, rfl⟩
  · intro h
    unfold decode
    cases i with
    | nop | clrcl =>
      obtain ⟨hop, hr⟩ := h
      rw [hop]; exact (whenReserved_eq_ok ..).2 ⟨hr, rfl⟩
    | stream len =>
      obtain ⟨hop, rfl⟩ := h
      simp only [hop]
    | readbits | decode | tinfo =>
      obtain ⟨hop, hr, rfl⟩ := h
      rw [hop]; exact (whenReserved_eq_ok ..).2 ⟨hr, rfl⟩
    | setcl | build | rdmain =>
      obtain ⟨hop, hr, rfl, rfl⟩ := h
      rw [hop]; exact (whenReserved_eq_ok ..).2 ⟨hr, rfl⟩
    | rdsub =>
      obtain ⟨hop, hr, rfl, rfl, rfl⟩ := h
      rw [hop]; exact (whenReserved_eq_ok ..).2 ⟨hr, rfl⟩

/-- The encoder gives every command the number R88 writes. -/
theorem encode_toNat : ∀ i : Instr, (encode i).toNat = number i
  | .nop => Laws.Encoding.nop
  | .stream len => Laws.Encoding.stream len
  | .readbits n => Laws.Encoding.readbits n
  | .setcl sym cl => Laws.Encoding.setcl sym cl
  | .clrcl => Laws.Encoding.clrcl
  | .build slot cnt => Laws.Encoding.build slot cnt
  | .decode slot => Laws.Encoding.decode slot
  | .rdmain slot idx => Laws.Encoding.rdmain slot idx
  | .rdsub slot sub idx => Laws.Encoding.rdsub slot sub idx
  | .tinfo slot => Laws.Encoding.tinfo slot

/-- A word is in a command's row exactly when it is the number of the command: OP, the reserved bits and the fields are
all of the word's digits. -/
theorem isRow_iff_toNat {w : Word} {i : Instr} : IsRow w i ↔ w.toNat = number i := by
  have hw := w.isLt
  cases i with
  | stream => simp only [IsRow, number, opField_toNat, field_eq_iff]; omega
  | nop | readbits | setcl | clrcl =>
    simp only [IsRow, number, opField_toNat, field_eq_iff, BitVec.ofNat_eq_ofNat, BitVec.toNat_ofNat]; omega
  | build | decode | rdmain | rdsub | tinfo =>
    simp only [IsRow, number, opField_toNat, slotField, field_eq_iff, BitVec.ofNat_eq_ofNat, BitVec.toNat_ofNat]; omega

/-- The decoder accepts one word for each command, the encoder's. -/
theorem decode_eq_ok_iff_encode {w : Word} {i : Instr} : decode w = .ok i ↔ encode i = w := by
  rw [decode_eq_ok_iff, isRow_iff_toNat, ← encode_toNat, eq_comm, BitVec.toNat_inj]

/-- Settles O4: the encoded word is the one word the decoder accepts for the command. -/
theorem decodeOfEncodeIsTheCommand : Obligations.DecodeOfEncodeIsTheCommand := fun _ =>
  decode_eq_ok_iff_encode.2 rfl

/-- Settles O5: the decoder accepts no word for a command but the encoded one. -/
theorem encodeOfDecodeIsTheWord : Obligations.EncodeOfDecodeIsTheWord := fun _ _ => decode_eq_ok_iff_encode.1

/-- Settles O3: each word is evaluated by the decoder. -/
theorem wordsOfTheVectorsDecode : Obligations.WordsOfTheVectorsDecode :=
  ⟨rfl, rfl, rfl, rfl, rfl, rfl, rfl, rfl, rfl, rfl, rfl, rfl⟩

/-- The lowest field of a word as a number. -/
theorem toNat_lowField (w : Word) (l : Nat) : (w.extractLsb' 0 l).toNat = w.toNat % 2 ^ l := by
  rw [toNat_field, Nat.pow_zero, Nat.div_one]

/-- Settles O7: a word that decodes is in its command's row, which names the bits of each field. -/
theorem decodedFieldsAreTheWordsBits : Obligations.DecodedFieldsAreTheWordsBits := by
  refine ⟨fun w len h => ?_, fun w n h => ?_, fun w sym cl h => ?_, fun w slot cnt h => ?_, fun w slot h => ?_,
    fun w slot idx h => ?_, fun w slot sub idx h => ?_, fun w slot h => ?_⟩
  all_goals rw [decode_eq_ok_iff] at h
  · obtain ⟨-, rfl⟩ := h
    exact toNat_lowField ..
  · obtain ⟨-, -, rfl⟩ := h
    exact toNat_lowField ..
  · obtain ⟨-, -, rfl, rfl⟩ := h
    exact ⟨toNat_field .., toNat_lowField ..⟩
  · obtain ⟨-, -, rfl, rfl⟩ := h
    exact ⟨slotField_toNat w, toNat_lowField ..⟩
  · obtain ⟨-, -, rfl⟩ := h
    exact slotField_toNat w
  · obtain ⟨-, -, rfl, rfl⟩ := h
    exact ⟨slotField_toNat w, toNat_lowField ..⟩
  · obtain ⟨-, -, rfl, rfl, rfl⟩ := h
    exact ⟨slotField_toNat w, toNat_field .., toNat_lowField ..⟩
  · obtain ⟨-, -, rfl⟩ := h
    exact slotField_toNat w

/-! ### The masks of the opcode map -/

/-- A row's mask: OP, and `n` reserved bits from bit `lo` (R83). -/
def rowMask (lo n : Nat) : Word := 0xF#4 ++ (BitVec.allOnes n).setWidth 28 <<< lo

theorem getLsbD_rowMask {lo n j : Nat} (h : lo + n ≤ 28) (hj : j < 32) :
    (rowMask lo n).getLsbD j = decide (28 ≤ j ∨ lo ≤ j ∧ j < lo + n) := by
  have hop : ∀ k < 4, (0xF#4).getLsbD k = true := by decide
  rw [rowMask, BitVec.getLsbD_append, Bool.eq_iff_iff, decide_eq_true_eq]
  split
  · simp only [BitVec.getLsbD_shiftLeft, BitVec.getLsbD_setWidth, BitVec.getLsbD_allOnes, Bool.and_eq_true,
      decide_eq_true_eq, Bool.not_eq_true', decide_eq_false_iff_not]
    omega
  · rw [hop _ (by omega), eq_self, true_iff]
    omega

theorem getLsbD_rowMatch (op : BitVec 4) (j : Nat) :
    (op ++ 0#28 : Word).getLsbD j = (decide (28 ≤ j) && op.getLsbD (j - 28)) := by
  rw [BitVec.getLsbD_append]
  split
  · rw [decide_eq_false (by omega), BitVec.getLsbD_zero, Bool.false_and]
  · rw [decide_eq_true (by omega), Bool.true_and]

/-- A field of a word, bit by bit (00_scope.md R10). -/
theorem field_eq_iff_bits (w : Word) (lo : Nat) {n : Nat} (v : BitVec n) :
    w.extractLsb' lo n = v ↔ ∀ j < n, w.getLsbD (lo + j) = v.getLsbD j := by
  rw [BitVec.eq_of_getLsbD_eq_iff]
  refine forall₂_congr fun j hj => ?_
  rw [BitVec.getLsbD_extractLsb', decide_eq_true hj, Bool.true_and]

/-- A word matches a row exactly when its OP is the row's and its reserved bits are 0 (R83). -/
theorem and_rowMask_eq_iff {lo n : Nat} (h : lo + n ≤ 28) (op : BitVec 4) (w : Word) :
    w &&& rowMask lo n = op ++ 0#28 ↔ (opField w).toNat = op.toNat ∧ w.extractLsb' lo n = 0 := by
  have hmask : w &&& rowMask lo n = op ++ 0#28 ↔ ∀ j < 32,
      (w.getLsbD j && decide (28 ≤ j ∨ lo ≤ j ∧ j < lo + n)) = (decide (28 ≤ j) && op.getLsbD (j - 28)) := by
    rw [BitVec.eq_of_getLsbD_eq_iff]
    refine forall₂_congr fun j hj => ?_
    rw [BitVec.getLsbD_and, getLsbD_rowMask h hj, getLsbD_rowMatch]
  rw [hmask, BitVec.toNat_inj, opField, field_eq_iff_bits, field_eq_iff_bits]
  constructor
  · intro hm
    constructor <;> intro j hj
    · simpa using hm (28 + j) (by omega)
    · simpa [show ¬ 28 ≤ lo + j by omega, hj] using hm (lo + j) (by omega)
  · rintro ⟨hop, hr⟩ j hj
    by_cases h28 : 28 ≤ j
    · obtain ⟨k, rfl⟩ := Nat.exists_eq_add_of_le h28
      simp [hop k (by omega)]
    · by_cases hlo : lo ≤ j ∧ j < lo + n
      · obtain ⟨k, rfl⟩ := Nat.exists_eq_add_of_le hlo.1
        simp [hr k (by omega), h28]
      · simp only [h28, hlo, or_self, decide_false, Bool.and_false, Bool.false_and]

end Sys2Proof

namespace Sys2Proof.Machine

open Sys2Proof
open Sys2Proof.Laws.Encoding (number)

/-- A word that is no command ends with ILLEGAL_CMD (R84). -/
theorem runCommand_of_not_decoded {w : Word} (h : ∀ i, decode w ≠ .ok i) (s : State) :
    runCommand w s = .next (illegalResult s) := by
  cases hd : decode w with
  | ok i => exact absurd hd (h i)
  | error e => exact runCommand_of_decode_error hd s

/-- Settles O6: each row is `IsRow` with its fields left free, and its mask takes OP and the row's reserved bits. -/
theorem opcodeMapSelectsTheCommand : Obligations.OpcodeMapSelectsTheCommand := by
  refine ⟨fun w => ?nop, fun w => ?stream, fun w => ?readbits, fun w => ?setcl, fun w => ?clrcl, fun w => ?build,
    fun w => ?decode, fun w => ?rdmain, fun w => ?rdsub, fun w => ?tinfo,
    fun w h s => runCommand_of_not_decoded h s⟩
  all_goals simp only [decode_eq_ok_iff, IsRow, exists_and_left, exists_eq', and_true]
  case nop => exact and_rowMask_eq_iff (lo := 0) (n := 28) (by decide) 0x0 w
  case stream =>
    exact (and_rowMask_eq_iff (lo := 0) (n := 0) (by decide) 0x1 w).trans (and_iff_left (Subsingleton.elim _ _))
  case readbits => exact and_rowMask_eq_iff (lo := 5) (n := 23) (by decide) 0x2 w
  case setcl => exact and_rowMask_eq_iff (lo := 16) (n := 12) (by decide) 0x3 w
  case clrcl => exact and_rowMask_eq_iff (lo := 0) (n := 28) (by decide) 0x4 w
  case build => exact and_rowMask_eq_iff (lo := 13) (n := 11) (by decide) 0x5 w
  case decode => exact and_rowMask_eq_iff (lo := 0) (n := 24) (by decide) 0x6 w
  case rdmain => exact and_rowMask_eq_iff (lo := 8) (n := 16) (by decide) 0x7 w
  case rdsub => exact and_rowMask_eq_iff (lo := 15) (n := 9) (by decide) 0x8 w
  case tinfo => exact and_rowMask_eq_iff (lo := 0) (n := 24) (by decide) 0x9 w

/-! ### Legal words -/

/-- The word of a command is legal exactly when the command's fields are in range (R84, R85). -/
theorem wordLegal_of_decode_ok {w : Word} {i : Instr} (h : decode w = .ok i) (c : Config) :
    wordLegal c w.toNat = i.wf c := by
  rw [decode_eq_ok_iff] at h
  have hn : w.toNat = number i := isRow_iff_toNat.1 h
  rw [wordLegal, ← opField_toNat]
  cases i with
  | nop | clrcl => rw [h.1, hn]; rfl
  | stream | setcl | build | decode | rdmain | rdsub | tinfo =>
    rw [h.1, Bool.eq_iff_iff]
    simp only [number] at hn
    simp only [Instr.wf, Bool.and_eq_true, decide_eq_true_eq]
    omega
  | readbits n =>
    rw [h.1, Bool.eq_iff_iff]
    simp only [number] at hn
    simp only [Instr.wf, Bool.and_eq_true, decide_eq_true_eq, ne_eq, ← BitVec.toNat_inj,
      BitVec.ofNat_eq_ofNat, BitVec.toNat_ofNat]
    omega

/-- A legal word is some command's: its OP is in the opcode map and its reserved bits are 0 (R84). -/
theorem decode_ok_of_wordLegal {c : Config} {w : Word} (h : wordLegal c w.toNat = true) : ∃ i, decode w = .ok i := by
  have hfield : ∀ lo n, w.toNat / 2 ^ lo % 2 ^ n = 0 → w.extractLsb' lo n = 0 := fun lo n h0 =>
    (field_eq_iff ..).2 (h0.trans BitVec.toNat_zero.symm)
  simp only [decode_eq_ok_iff]
  rw [wordLegal, ← opField_toNat] at h
  split at h
  case h_11 => exact absurd h (by simp)
  all_goals
    rename_i hop
    simp only [Bool.and_eq_true, decide_eq_true_eq] at h
  case h_1 => exact ⟨.nop, hop, hfield _ _ (by omega)⟩
  case h_2 => exact ⟨.stream _, hop, rfl⟩
  case h_3 => exact ⟨.readbits _, hop, hfield _ _ (by omega), rfl⟩
  case h_4 => exact ⟨.setcl _ _, hop, hfield _ _ (by omega), rfl, rfl⟩
  case h_5 => exact ⟨.clrcl, hop, hfield _ _ (by omega)⟩
  case h_6 => exact ⟨.build _ _, hop, hfield _ _ (by omega), rfl, rfl⟩
  case h_7 => exact ⟨.decode _, hop, hfield _ _ (by omega), rfl⟩
  case h_8 => exact ⟨.rdmain _ _, hop, hfield _ _ (by omega), rfl, rfl⟩
  case h_9 => exact ⟨.rdsub _ _ _, hop, hfield _ _ (by omega), rfl, rfl, rfl⟩
  case h_10 => exact ⟨.tinfo _, hop, hfield _ _ (by omega), rfl⟩

/-- A command with a field out of its range ends with ILLEGAL_CMD (R84 (c), R85). -/
theorem exec_of_not_wf {i : Instr} {s : State} (h : i.wf s.config = false) : exec i s = .next (illegalResult s) := by
  rw [← raise_illegalCmd]
  cases i with
  | nop | clrcl => exact absurd h (by simp [Instr.wf])
  | readbits n => exact if_pos (by simpa [Instr.wf] using h)
  | stream | setcl | build => exact if_neg (ne_true_of_eq_false h)
  | decode | rdmain | rdsub | tinfo => exact if_pos (congrArg (!·) h)

/-- A command with every field in range never ends with ILLEGAL_CMD (R85). -/
theorem lastErr_ne_illegalCmd_of_wf {i : Instr} {s t : State} (h : i.wf s.config = true) (ht : exec i s = .next t) :
    t.lastErr ≠ .illegalCmd := by
  cases i with
  | nop | clrcl => rw [next_inj ht]; simp
  | stream len =>
    rcases execStream_next ht with ⟨-, rfl⟩ | ⟨hl, -⟩
    · simp
    · exact absurd (hl.symm.trans h) Bool.false_ne_true
  | readbits n =>
    rcases execReadbits_next ht with ⟨rfl, -⟩ | ⟨-, -, rfl⟩ | ⟨-, -, -, rfl⟩ | ⟨-, -, -, -, rfl⟩
    · exact absurd h (by simp [Instr.wf])
    · simp
    · simp
    · simp
  | setcl sym cl =>
    rcases execSetcl_next ht with ⟨-, rfl⟩ | ⟨hl, -⟩
    · simp
    · exact absurd (hl.symm.trans h) Bool.false_ne_true
  | build slot cnt =>
    rcases execBuild_next slot cnt s with ⟨hl, -⟩ | ⟨-, ⟨_, -, he, e⟩ | ⟨_, -, e⟩⟩
    · exact absurd (hl.symm.trans h) Bool.false_ne_true
    · rw [next_inj (e.symm.trans ht), raise_lastErr]
      rcases he with rfl | rfl | rfl <;> simp
    · rw [next_inj (e.symm.trans ht)]; simp
  | decode slot =>
    rcases execDecode_next ht with ⟨hl, -⟩ | ⟨-, -, rfl⟩ | ⟨-, -, -, rfl⟩ |
      ⟨-, -, -, -, ⟨-, rfl⟩ | ⟨-, -, rfl⟩ | ⟨-, -, rfl⟩⟩
    · exact absurd (hl.symm.trans h) Bool.false_ne_true
    all_goals simp
  | rdmain slot idx =>
    have hok : slotOk s slot = true := h
    rw [exec, execRdmain, hok, if_neg (by simp)] at ht
    split at ht <;> rw [next_inj ht] <;> simp
  | rdsub slot sub idx =>
    have hok : slotOk s slot = true := h
    rw [exec, execRdsub, hok, if_neg (by simp)] at ht
    split at ht
    · rw [next_inj ht]; simp
    · split at ht <;> rw [next_inj ht] <;> simp
  | tinfo slot =>
    have hok : slotOk s slot = true := h
    rw [exec, execTinfo, hok, if_neg (by simp)] at ht
    split at ht <;> rw [next_inj ht] <;> simp

/-- Settles O8: the word is legal exactly when it is the word of a command with every field in range. -/
theorem exactlyIllegalWordsRaise : Obligations.ExactlyIllegalWordsRaise := by
  intro w s
  constructor
  · intro h
    cases hd : decode w with
    | ok i =>
      rw [wordLegal_of_decode_ok hd] at h
      rw [runCommand_of_decode_ok hd, exec_of_not_wf h]
    | error e => exact runCommand_of_decode_error hd s
  · intro h t ht
    obtain ⟨i, hd⟩ := decode_ok_of_wordLegal h
    rw [wordLegal_of_decode_ok hd] at h
    rw [runCommand_of_decode_ok hd] at ht
    exact lastErr_ne_illegalCmd_of_wf h ht

/-! ### Assembler lines -/

/-- The accesses of a command line: one write of the command's number to CMD (R88). -/
theorem commandEvent_eq (i : Instr) : commandEvent i = .access false (.write 0 4 (BitVec.ofNat 32 (number i))) := by
  rw [commandEvent, cmdEvent, ← encode_toNat, BitVec.ofNat_toNat, BitVec.setWidth_eq]

/-- A line's operand goes on to its field exactly when it fits (R88). -/
theorem fitField_bind {α : Type} (width n : Nat) (f : BitVec width → Option α) :
    (fitField width n >>= f) = if n < 2 ^ width then f (BitVec.ofNat width n) else none := by
  unfold fitField
  split <;> rfl

/-- A line stands for the write of the number `n` where its operands fit, if `n` is then the number of its command. -/
theorem commandLine_eq {p : Prop} [Decidable p] {i : Instr} {n : Nat} (h : p → number i = n) :
    (if p then pure [commandEvent i] else none : Option (List Event)) =
      if p then some [.access false (.write 0 4 (BitVec.ofNat 32 n))] else none :=
  ite_congr rfl (fun hp => by rw [commandEvent_eq, h hp]; rfl) fun _ => rfl

/-- A field below the lowest bit of the others is put in by adding it. -/
theorem or_eq_add {x b i : Nat} (hx : 2 ^ i ∣ x) (hb : b < 2 ^ i) : x ||| b = x + b := by
  obtain ⟨a, rfl⟩ := hx
  exact (Nat.two_pow_add_eq_or_of_lt hb a).symm

/-- Settles O55: the assembler's word is the number of its command, whose fields add up as R88's shifts and ORs do. -/
theorem assemblerEncodesEachLine : Obligations.AssemblerEncodesEachLine := by
  refine ⟨rfl, rfl, fun len => ?stream, fun n => ?readbits, fun sym cl => ?setcl, fun slot cnt => ?build,
    fun slot => ?decode, fun slot idx => ?rdmain, fun slot sub idx => ?rdsub, fun slot => ?tinfo⟩
  all_goals
    simp only [assemble, fitField_bind, ← ite_and]
    refine commandLine_eq fun hfit => ?_
    simp only [number, BitVec.toNat_ofNat, Nat.shiftLeft_eq]
  case stream => rw [or_eq_add (i := 28) (by omega) hfit]; omega
  case readbits => rw [or_eq_add (i := 5) (by omega) hfit]; omega
  case setcl =>
    rw [or_eq_add (i := 28) (b := sym * 2 ^ 4) (by omega) (by omega), or_eq_add (i := 4) (by omega) hfit.2]; omega
  case build =>
    rw [or_eq_add (i := 28) (b := slot * 2 ^ 24) (by omega) (by omega), or_eq_add (i := 13) (by omega) hfit.2]; omega
  case decode => rw [or_eq_add (i := 28) (by omega) (by omega)]; omega
  case rdmain =>
    rw [or_eq_add (i := 28) (b := slot * 2 ^ 24) (by omega) (by omega), or_eq_add (i := 8) (by omega) hfit.2]; omega
  case rdsub =>
    rw [or_eq_add (i := 28) (b := slot * 2 ^ 24) (by omega) (by omega),
      or_eq_add (i := 24) (b := sub * 2 ^ 7) (by omega) (by omega), or_eq_add (i := 7) (by omega) hfit.2.2]; omega
  case tinfo => rw [or_eq_add (i := 28) (by omega) (by omega)]; omega

/-! ### Runs of host accesses -/

/-- A run goes on where another ends. -/
theorem SafeRun.append {m n : Nat} {s u t : State} (h : SafeRun m s u) (h' : SafeRun n u t) : SafeRun (m + n) s t := by
  induction m generalizing s with
  | zero => rw [Nat.zero_add, ← show u = s from h]; exact h'
  | succ m ih =>
    obtain ⟨v, hstep, hrun⟩ := h
    rw [Nat.succ_add]
    exact ⟨v, hstep, ih hrun⟩

/-- The step of an assembled command line runs the command. -/
theorem step_of_commandEvent {s : State} {i : Instr} {rest : List Event} (h : s.events = commandEvent i :: rest) :
    step s = exec i { s with events := rest } := by
  rw [step_of_cmdEvent h, runCommand_of_decode_ok (decode_eq_ok_iff_encode.2 rfl)]

/-! ### LOADCL -/

/-- The block between two lines of a LOADCL: the lines still pending, the last one completed, and CLMEM so far (R89). -/
def loading (s : State) (es : List Event) (m : CodeLengths) : State :=
  { s with events := es, result := 0, lastErr := .ok, clmem := m }

theorem step_clrcl (s : State) (es : List Event) :
    step (s.withEvents (commandEvent .clrcl :: es)) = .next (loading s es []) :=
  step_of_commandEvent (s := s.withEvents (commandEvent .clrcl :: es)) rfl

theorem step_loading_setcl {s : State} {sym : BitVec 12} (h : sym.toNat < s.config.maxSymbol) (cl : BitVec 4)
    (es : List Event) (m : CodeLengths) :
    step (loading s (commandEvent (.setcl sym cl) :: es) m) = .next (loading s es (clWrite m sym.toNat cl)) :=
  (step_of_commandEvent (s := loading s (commandEvent (.setcl sym cl) :: es) m) rfl).trans (if_pos (decide_eq_true h))

/-- A length of 0 stands for no line, and any other for a SETCL whose operands fit (R89). -/
theorem loadLengths_cons {i l : Nat} {ls : List Nat} {es : List Event} (h : loadLengths i (l :: ls) = some es) :
    ∃ tail, loadLengths (i + 1) ls = some tail ∧
      (l = 0 ∧ es = tail ∨ ∃ (sym : BitVec 12) (cl : BitVec 4), sym.toNat = i ∧ cl.toNat = l ∧
        es = commandEvent (.setcl sym cl) :: tail) := by
  rw [loadLengths, Option.bind_eq_bind, Option.bind_eq_some_iff] at h
  obtain ⟨tail, htail, h⟩ := h
  refine ⟨tail, htail, ?_⟩
  split at h
  · exact .inl ⟨by assumption, (Option.some.inj h).symm⟩
  · simp only [fitField_bind] at h
    split at h
    · rename_i hi
      split at h
      · rename_i hl
        exact .inr ⟨_, _, (BitVec.toNat_ofNat ..).trans (Nat.mod_eq_of_lt hi),
          (BitVec.toNat_ofNat ..).trans (Nat.mod_eq_of_lt hl), (Option.some.inj h).symm⟩
      · exact absurd h (by simp)
    · exact absurd h (by simp)

/-- The first element of a list of lengths writes its symbol's length where CLMEM was 0, and the run goes on with the
other lines. -/
theorem loadLengths_first {i l : Nat} {ls : List Nat} {es : List Event} {s : State} {m : CodeLengths}
    (hes : loadLengths i (l :: ls) = some es) (hi : i < s.config.maxSymbol) (hzero : clRead m i = 0) :
    ∃ tail m₁, loadLengths (i + 1) ls = some tail ∧
      (∀ t, SafeRun tail.length (loading s tail m₁) t → SafeRun es.length (loading s es m) t) ∧
      (clRead m₁ i).toNat = l ∧ ∀ j, j ≠ i → clRead m₁ j = clRead m j := by
  obtain ⟨tail, htail, ⟨rfl, rfl⟩ | ⟨sym, cl, rfl, rfl, rfl⟩⟩ := loadLengths_cons hes
  · exact ⟨es, m, htail, fun _ h => h, by rw [hzero]; rfl, fun _ _ => rfl⟩
  · refine ⟨tail, clWrite m sym.toNat cl, htail, fun t h => ⟨_, step_loading_setcl hi cl tail m, h⟩, ?_, fun j hj => ?_⟩
    · rw [clRead_clWrite, if_pos rfl]
    · rw [clRead_clWrite, if_neg hj]

/-- The lines for the lengths from symbol i on complete, and write those lengths where CLMEM was 0. -/
theorem loadLengths_run {ls : List Nat} {i : Nat} {es : List Event} {s : State} {m : CodeLengths}
    (hes : loadLengths i ls = some es) (hmax : i + ls.length ≤ s.config.maxSymbol)
    (hzero : ∀ j, i ≤ j → clRead m j = 0) :
    ∃ m', SafeRun es.length (loading s es m) (loading s [] m') ∧ (∀ j < i, clRead m' j = clRead m j) ∧
      ∀ j, (clRead m' (i + j)).toNat = ls.getD j 0 := by
  induction ls generalizing i es m with
  | nil =>
    obtain rfl := Option.some.inj hes
    exact ⟨m, rfl, fun _ _ => rfl, fun j => by rw [hzero _ (by omega)]; rfl⟩
  | cons l ls ih =>
    rw [List.length_cons] at hmax
    obtain ⟨tail, m₁, htail, hfirst, hl, hother⟩ := loadLengths_first (s := s) hes (by omega) (hzero i le_rfl)
    obtain ⟨m', hrun, hbelow, hlist⟩ := ih htail (by omega) fun j hj => by rw [hother j (by omega), hzero j (by omega)]
    refine ⟨m', hfirst _ hrun, fun j hj => ?_, fun j => ?_⟩
    · rw [hbelow j (by omega), hother j (by omega)]
    · cases j with
      | zero => rw [Nat.add_zero, hbelow i (by omega), hl]; rfl
      | succ j => rw [← Nat.add_assoc, Nat.add_right_comm, hlist]; rfl

/-- Settles O56: CLRCL empties CLMEM, and each line after it writes one length. -/
theorem loadclLoadsTheLengths : Obligations.LoadclLoadsTheLengths := by
  intro s ls es hlen hes
  rw [assemble, Option.bind_eq_bind, Option.bind_eq_some_iff] at hes
  obtain ⟨tail, htail, hes⟩ := hes
  obtain rfl := Option.some.inj hes
  obtain ⟨m, hrun, -, hlist⟩ := loadLengths_run (s := s) (m := []) htail (by omega) fun _ _ => rfl
  exact ⟨m, ⟨_, step_clrcl s tail, hrun⟩, fun i => by simpa using hlist i⟩

/-! ### LDSTREAM -/

theorem loadWords_length (a : Nat) (bs : List Nat) (m : Nat) : (loadWords a bs m).length = m := by
  induction m generalizing a bs with
  | zero => rfl
  | succ m ih => rw [loadWords, List.length_cons, ih]

/-- Byte d of a word packed from bytes (R89). -/
theorem byte_of_packWord {bs : List Nat} (hb : ∀ b ∈ bs, b < 256) {d : Nat} (hd : d < 4) :
    (BitVec.ofNat 32 (packWord (bs.take 4))).extractLsb' (8 * d) 8 = BitVec.ofNat 8 (bs.getD d 0) := by
  have hget : ∀ k, bs.getD k 0 < 256 := fun k => by
    rw [List.getD_eq_getElem?_getD]
    cases hk : bs[k]? with
    | none => decide
    | some b => exact hb b (List.mem_of_getElem? hk)
  have htake : ∀ k < 4, (bs.take 4).getD k 0 = bs.getD k 0 := fun k hk => by
    rw [List.getD_eq_getElem?_getD, List.getD_eq_getElem?_getD, List.getElem?_take, if_pos hk]
  have h0 := hget 0
  have h1 := hget 1
  have h2 := hget 2
  have h3 := hget 3
  rw [field_eq_iff, BitVec.toNat_ofNat, BitVec.toNat_ofNat, packWord, htake 0 (by decide), htake 1 (by decide),
    htake 2 (by decide), htake 3 (by decide)]
  interval_cases d <;> omega

/-- The word writes of a list of bytes from word k on complete, and leave the bytes in stream memory and every byte
below word k as it was. -/
theorem loadWords_run {m k : Nat} {bs : List Nat} {s : State} {rest : List Event} (hc : s.config.wf = true)
    (hm : m = (bs.length + 3) / 4) (hlen : 0 < bs.length → 4 * k + bs.length ≤ s.config.streamBytes)
    (hb : ∀ b ∈ bs, b < 256) (he : s.events = loadWords (windowBase + 4 * k) bs m ++ rest) :
    ∃ t, SafeRun m s t ∧ t.config = s.config ∧ t.events = rest ∧
      (∀ j < 4 * k, streamByte t j = streamByte s j) ∧
      ∀ j < bs.length, streamByte t (4 * k + j) = some (BitVec.ofNat 8 (bs.getD j 0)) := by
  induction m generalizing k bs s with
  | zero => exact ⟨s, rfl, rfl, he, fun _ _ => rfl, fun j hj => by omega⟩
  | succ m ih =>
    have hstep := step_of_window_write hc (by omega) he
    generalize hu : writeStreamWord _ _ _ = u at hstep
    have hconfig : u.config = s.config := by rw [← hu, writeStreamWord_config]
    have hbytes : ∀ j, streamByte u j = if 4 * k ≤ j ∧ j < 4 * k + 4 ∧ j < s.config.streamBytes then
        some (BitVec.ofNat 8 (bs.getD (j - 4 * k) 0)) else streamByte s j := fun j => by
      rw [← hu, streamByte_writeStreamWord]
      split
      · rw [byte_of_packWord hb (by omega)]
      · rfl
    obtain ⟨t, hrun, htc, hte, hbelow, hlist⟩ := ih (k := k + 1) (bs := bs.drop 4) (s := u) (hconfig ▸ hc)
      (by rw [List.length_drop]; omega) (by rw [List.length_drop, hconfig]; omega)
      (fun b hmem => hb b (List.mem_of_mem_drop hmem)) (by rw [← hu, writeStreamWord_events]; rfl)
    refine ⟨t, ⟨u, hstep, hrun⟩, htc.trans hconfig, hte, fun j hj => ?_, fun j hj => ?_⟩
    · rw [hbelow j (by omega), hbytes, if_neg (by omega)]
    · by_cases h4 : j < 4
      · rw [hbelow _ (by omega), hbytes, if_pos (by omega), Nat.add_sub_cancel_left]
      · obtain ⟨d, rfl⟩ := Nat.exists_eq_add_of_le (not_lt.1 h4)
        have := hlist d (by rw [List.length_drop]; omega)
        rw [← Nat.add_assoc]
        simpa [List.getD_eq_getElem?_getD, Nat.mul_add] using this

/-- An accepted LDSTREAM stands for the word writes of its bytes and a STREAM of their number (R89). -/
theorem assemble_ldstream {bs : List Nat} {es : List Event} (h : assemble (.ldstream bs) = some es) :
    (∀ b ∈ bs, b < 256) ∧ ∃ len : BitVec 28, len.toNat = bs.length ∧
      es = loadWords windowBase bs ((bs.length + 3) / 4) ++ [commandEvent (.stream len)] := by
  rw [assemble] at h
  split at h
  · rename_i hb
    simp only [fitField_bind] at h
    split at h
    · rename_i hl
      exact ⟨by simpa using hb, _, (BitVec.toNat_ofNat ..).trans (Nat.mod_eq_of_lt hl), (Option.some.inj h).symm⟩
    · exact absurd h (by simp)
  · exact absurd h (by simp)

/-- A STREAM line within STREAM_BYTES starts its stream (40_bitreader.md R104). -/
theorem step_stream {s : State} {len : BitVec 28} {rest : List Event}
    (he : s.events = commandEvent (.stream len) :: rest) (hl : len.toNat ≤ s.config.streamBytes) :
    step s = .next (finish 0 .ok (clearSticky (startStream len { s with events := rest }))) :=
  (step_of_commandEvent he).trans (if_pos (decide_eq_true hl))

/-- A stream with nothing stale is readable where all its bytes are written (40_bitreader.md R101). -/
theorem readable_of_written {s : State} (hstale : s.stale = []) (h : ∀ i < s.len.toNat, written s i = true)
    (p n : Nat) : Readable s p n := by
  intro j _ _ hj
  rw [streamBits] at hj
  exact ⟨h _ (by omega), by rw [isStale, hstale]; rfl⟩

/-- Settles O57: the word writes leave the bytes, and the STREAM after them clears POS, SFAIL and STALE. -/
theorem ldstreamStartsAReadableStream : Obligations.LdstreamStartsAReadableStream := by
  intro s bs es hc hlen hes
  obtain ⟨hb, len, hl, rfl⟩ := assemble_ldstream hes
  obtain ⟨u, hrun, huc, hue, -, hbytes⟩ := loadWords_run (k := 0) (rest := [commandEvent (.stream len)])
    (s := s.withEvents (loadWords windowBase bs ((bs.length + 3) / 4) ++ [commandEvent (.stream len)])) hc rfl
    (by simpa using fun _ => hlen) hb rfl
  have hstream := step_stream hue (by rw [hl, huc]; exact hlen)
  have hbyte : ∀ i < bs.length, streamByte u i = some (BitVec.ofNat 8 (bs.getD i 0)) := by simpa using hbytes
  refine ⟨finish 0 .ok (clearSticky (startStream len { u with events := [] })), ?run, rfl, rfl, hl, rfl, rfl,
    readable_of_written rfl ?written 0 _, hbyte⟩
  case run =>
    rw [List.length_append, loadWords_length]
    exact hrun.append ⟨_, hstream, rfl⟩
  case written =>
    intro i hi
    exact Option.isSome_iff_exists.2 ⟨_, hbyte i (hl ▸ hi)⟩

end Sys2Proof.Machine

/-! PROOFS of the statements about the bit reader (40_bitreader.md): Peek, NOP, STREAM, READBITS, and what moves
POS. -/

namespace Sys2Proof.Machine

open Sys2Proof

/-! ### Peek -/

/-- Peek of a bit below 8*LEN whose byte is unwritten faults (20_memory.md R67). -/
theorem peekBit_of_unwritten {s : State} {j : Nat} (hj : j < streamBits s) (hw : written s (j / 8) = false) :
    peekBit s j = .error (.fault .unwrittenStreamByte) := by
  have hb : streamByte s (j / 8) = none := by simpa [written] using hw
  rw [peekBit, if_pos hj, hb]

/-- Peek of a bit below 8*LEN whose byte is written and stale is refused (70_reset_and_hazards.md R233). -/
theorem peekBit_of_stale {s : State} {j : Nat} (hj : j < streamBits s) (hw : written s (j / 8) = true)
    (hs : isStale s (j / 8) = true) : peekBit s j = .error (.refuse .staleStreamByte) := by
  obtain ⟨b, hb⟩ := Option.isSome_iff_exists.1 hw
  rw [peekBit, if_pos hj, hb]
  exact if_pos hs

/-- Peek stops as its first bit that stops, the bits before it being readable. -/
theorem peek_error_of_readable {s : State} {p n j : Nat} {e : Stop} (hp : p ≤ j) (hn : j < p + n)
    (hr : Readable s p (j - p)) (he : peekBit s j = .error e) : peek s p n = .error e :=
  peek_error hp hn he fun k hk hkj => ⟨_, peekBit_of_readable hr hk (by omega)⟩

/-- Settles O14: a readable run of bits has its value, and the first bit that is not readable gives Peek's stop. -/
theorem peekReturnsTheStreamBits : Obligations.PeekReturnsTheStreamBits :=
  ⟨fun _ _ _ => peek_of_readable,
    fun _ _ _ _ hp hn hr hj hw => peek_error_of_readable hp hn hr (peekBit_of_unwritten hj hw),
    fun _ _ _ _ hp hn hr hj hw hs => peek_error_of_readable hp hn hr (peekBit_of_stale hj hw hs)⟩

/-! ### NOP and STREAM -/

/-- Settles O10: the arm of NOP is its `finish`, and the words of OP 0 go through the check of the reserved bits. -/
theorem nopOnlyWritesItsResult : Obligations.NopOnlyWritesItsResult := by
  refine ⟨fun s => rfl, fun s => rfl, fun w s hw h0 => ?_⟩
  have hop : (opField w).toNat = 0 := by rw [opField_toNat]; omega
  have hd : decode w = whenReserved (w.extractLsb' 0 28) .nop := by simp only [decode, hop]
  refine (runCommand_whenReserved 0 hd s).2 ?_
  have hne : w.toNat ≠ 0 := fun h => h0 (BitVec.eq_of_toNat_eq h)
  omega

/-- Settles O11: OP 1 has no reserved bit, and LEN is the one operand check. -/
theorem streamStartsANewStream : Obligations.StreamStartsANewStream := by
  refine ⟨fun w s h => ?word, fun len s => ⟨fun hl => if_pos (decide_eq_true hl), fun hl => ?illegal⟩⟩
  case word =>
    exact runCommand_of_decode_ok ((decode_eq_ok_iff (i := .stream _)).2 ⟨(opField_toNat w).trans h, rfl⟩) s
  case illegal => exact exec_of_not_wf (decide_eq_false (not_le.2 hl))

/-! ### READBITS -/

/-- What READBITS leaves where its bits are readable and in the stream, as numbers (R105). -/
theorem finish_consume_of_le (v : Word) {n : Nat} {s : State} (h : s.pos.toNat + n ≤ streamBits s) :
    finish v .ok (consume n s) = { s with
      result := v, lastErr := .ok, pos := BitVec.ofNat 32 (s.pos.toNat + n),
      cur := (consume n s).cur, sr := (consume n s).sr } := by
  have hpos : (consume n s).pos = BitVec.ofNat 32 (s.pos.toNat + n) := by
    rw [consume_pos, ← consume_pos_toNat h, BitVec.ofNat_toNat, BitVec.setWidth_eq]
  rw [finish_consume_frame, hpos]

/-- Settles O12: the words go through the check of the reserved bits, and each case is the branch its premises select. -/
theorem readbitsReturnsTheNextBits : Obligations.ReadbitsReturnsTheNextBits := by
  refine ⟨fun w s h => ?words, fun n s => ⟨fun hn => ?illegal, fun hn hs => ?failed, fun hn hs hp => ?eos,
    fun hn hs hp e => execReadbits_of_stop hn hs hp, fun hn hs hp hr => ?completes⟩⟩
  case words =>
    have hop : (opField w).toNat = 2 := (opField_toNat w).trans h
    exact runCommand_whenReserved 5 (by simp only [decode, hop]) s
  case illegal => exact if_pos hn
  case failed => rw [exec, execReadbits, if_neg hn, if_pos hs]; rfl
  case eos => rw [exec, execReadbits, if_neg hn, if_neg (ne_true_of_eq_false hs)]; exact if_pos hp
  case completes =>
    exact ⟨_, _, (execReadbits_of_readable hn hs hp hr).trans (congrArg _ (finish_consume_of_le _ hp))⟩

/-! ### Facts about reads -/

/-- The value of a read fits RESULT: no read has more than 31 bits. -/
theorem toNat_ofNat_streamValue (s : State) (p : Nat) (n : BitVec 5) :
    (BitVec.ofNat 32 (streamValue s p n.toNat)).toNat = streamValue s p n.toNat :=
  (BitVec.toNat_ofNat ..).trans
    (Nat.mod_eq_of_lt ((streamValue_lt s p n.toNat).trans_le (Nat.pow_le_pow_right (by omega) (by omega))))

/-- A read that completes moves POS by exactly its length: POS does not wrap below 8*LEN (R102). -/
theorem finish_consume_pos_toNat (v : Word) (e : ErrorCode) {n : Nat} {s : State}
    (h : s.pos.toNat + n ≤ streamBits s) : (finish v e (consume n s)).pos.toNat = s.pos.toNat + n := by
  rw [finish_pos, consume_pos, consume_pos_toNat h]

/-- What a READBITS that ends with OK found in `s`, and what it left in `t` of RESULT, POS and the stream (R105). -/
structure CompletedRead (n : BitVec 5) (s t : State) : Prop where
  nonzero : n ≠ 0
  not_failed : s.sfail = false
  in_stream : s.pos.toNat + n.toNat ≤ streamBits s
  readable : Readable s s.pos.toNat n.toNat
  result : t.result.toNat = streamValue s s.pos.toNat n.toNat
  pos : t.pos.toNat = s.pos.toNat + n.toNat
  len : t.len = s.len
  stream : t.stream = s.stream
  stale : t.stale = s.stale

/-- A READBITS that ends with OK has passed every check and completed. -/
theorem completedRead_of_ok {n : BitVec 5} {s t : State} (h : execReadbits n s = .next t) (ht : t.lastErr = .ok) :
    CompletedRead n s t := by
  rcases execReadbits_next h with ⟨-, rfl⟩ | ⟨-, -, rfl⟩ | ⟨-, -, -, rfl⟩ | ⟨hn, hs, hp, hr, rfl⟩
  · exact absurd ht (by simp)
  · exact absurd ht (by simp)
  · exact absurd ht (by simp)
  · exact ⟨hn, hs, hp, hr, toNat_ofNat_streamValue .., finish_consume_pos_toNat _ _ hp, by simp, by simp, by simp⟩

/-- Two adjacent runs of readable bits are one. -/
theorem Readable.append {s : State} {p a b : Nat} (ha : Readable s p a) (hb : Readable s (p + a) b) :
    Readable s p (a + b) := fun j h1 h2 h3 =>
  (Nat.lt_or_ge j (p + a)).elim (fun h => ha j h1 h h3) fun h => hb j h (by omega) h3

/-- R106 (b): n bits have a value below 2^n, which RESULT holds whole. -/
theorem execReadbits_result_lt {n : BitVec 5} {s t : State} (h : execReadbits n s = .next t) (ht : t.lastErr = .ok) :
    t.result.toNat < 2 ^ n.toNat := by
  rw [(completedRead_of_ok h ht).result]
  exact streamValue_lt ..

/-- R106 (c): the second read sees the same stream, from where the first one ended. -/
theorem execReadbits_append {a b ab : BitVec 5} {s t u : State} (hab : ab.toNat = a.toNat + b.toNat)
    (ha : execReadbits a s = .next t) (ht : t.lastErr = .ok) (hb : execReadbits b t = .next u) (hu : u.lastErr = .ok) :
    ∃ v, execReadbits ab s = .next v ∧ v.lastErr = .ok ∧ v.pos = u.pos ∧
      v.result.toNat = t.result.toNat + u.result.toNat * 2 ^ a.toNat := by
  have first := completedRead_of_ok ha ht
  have second := completedRead_of_ok hb hu
  have hr : Readable s s.pos.toNat ab.toNat :=
    hab ▸ first.readable.append (first.pos ▸ second.readable.congr first.len first.stream first.stale)
  have hp : s.pos.toNat + ab.toNat ≤ streamBits s := by
    have := second.in_stream
    rw [first.pos, streamBits_eq_of_len first.len] at this
    omega
  have h0 : ab ≠ 0 := by
    have := first.nonzero
    bv_omega
  have hv := execReadbits_of_readable h0 first.not_failed hp hr
  have joined := completedRead_of_ok hv rfl
  refine ⟨_, hv, rfl, BitVec.eq_of_toNat_eq ?pos, ?value⟩
  case pos => rw [joined.pos, second.pos, first.pos, hab, Nat.add_assoc]
  case value =>
    rw [joined.result, second.result, first.result, hab, streamValue_add, first.pos,
      streamValue_congr first.len first.stream, Nat.mul_comm]

/-! ### Where POS moves -/

/-- A command that ends with an error moves neither POS nor LEN (60_exceptions.md R202). -/
theorem raise_pos_len (e : ErrorCode) (s : State) : (raise e s).pos = s.pos ∧ (raise e s).len = s.len :=
  ⟨raise_pos e s, raise_len e s⟩

/-- Everything a command does to POS and LEN: STREAM may start over at 0, a successful READBITS or DECODE may move POS up
within the stream, and otherwise both stay (R102, R106 (d)). -/
theorem exec_pos_len {i : Instr} {s t : State} (h : exec i s = .next t) :
    (∃ len, i = .stream len ∧ t.pos = 0) ∨ (t.pos = s.pos ∧ t.len = s.len) ∨
    (t.lastErr = .ok ∧ ((∃ n, i = .readbits n) ∨ ∃ slot, i = .decode slot) ∧ t.len = s.len ∧
      ∃ n, s.pos.toNat + n ≤ streamBits s ∧ t.pos.toNat = s.pos.toNat + n) := by
  obtain ⟨hnop, -, -, hsetcl, hclrcl, hbuild, -, hrdmain, hrdsub, htinfo⟩ := eachCommandWritesItsStateOnly s t
  have kept {u : State} (hu : t = u) (hp : u.pos = s.pos) (hl : u.len = s.len) : t.pos = s.pos ∧ t.len = s.len :=
    hu ▸ ⟨hp, hl⟩
  cases i with
  | nop => exact .inr (.inl (kept (hnop h) rfl rfl))
  | stream len =>
    rcases execStream_next h with ⟨-, rfl⟩ | ⟨-, rfl⟩
    · exact .inl ⟨len, rfl, rfl⟩
    · exact .inr (.inl (raise_pos_len _ s))
  | readbits n =>
    rcases execReadbits_next h with ⟨-, rfl⟩ | ⟨-, -, rfl⟩ | ⟨-, -, -, rfl⟩ | ⟨-, -, hp, -, rfl⟩
    · exact .inr (.inl (raise_pos_len _ s))
    · exact .inr (.inl (raise_pos_len _ s))
    · exact .inr (.inl (raise_pos_len _ s))
    · exact .inr (.inr ⟨rfl, .inl ⟨n, rfl⟩, by simp, _, hp, finish_consume_pos_toNat _ _ hp⟩)
  | setcl sym cl => exact .inr (.inl (kept (hsetcl sym cl h) rfl rfl))
  | clrcl => exact .inr (.inl (kept (hclrcl h) rfl rfl))
  | build slot cnt => exact .inr (.inl (kept (hbuild slot cnt h).1 rfl rfl))
  | decode slot =>
    rcases execDecode_next h with ⟨-, rfl⟩ | ⟨-, -, rfl⟩ | ⟨-, -, -, rfl⟩ |
      ⟨-, -, -, -, ⟨-, rfl⟩ | ⟨-, -, rfl⟩ | ⟨-, hp, rfl⟩⟩
    · exact .inr (.inl (raise_pos_len _ s))
    · exact .inr (.inl (raise_pos_len _ s))
    · exact .inr (.inl (raise_pos_len _ s))
    · exact .inr (.inl (raise_pos_len _ s))
    · exact .inr (.inl (raise_pos_len _ s))
    · exact .inr (.inr ⟨rfl, .inr ⟨slot, rfl⟩, by simp, _, hp, finish_consume_pos_toNat _ _ hp⟩)
  | rdmain slot idx => exact .inr (.inl (kept (hrdmain slot idx h) rfl rfl))
  | rdsub slot sub idx => exact .inr (.inl (kept (hrdsub slot sub idx h) rfl rfl))
  | tinfo slot => exact .inr (.inl (kept (htinfo slot h) rfl rfl))

/-- POS at most 8*LEN is a matter of POS and LEN alone. -/
theorem pos_le_of_eq {s t : State} (hs : s.pos.toNat ≤ streamBits s) (hp : t.pos = s.pos) (hl : t.len = s.len) :
    t.pos.toNat ≤ streamBits t := by
  rwa [hp, streamBits_eq_of_len hl]

theorem exec_pos_le {i : Instr} {s t : State} (hs : s.pos.toNat ≤ streamBits s) (h : exec i s = .next t) :
    t.pos.toNat ≤ streamBits t := by
  rcases exec_pos_len h with ⟨-, -, hp⟩ | ⟨hp, hl⟩ | ⟨-, -, hl, n, hn, hp⟩
  · rw [hp]; exact Nat.zero_le _
  · exact pos_le_of_eq hs hp hl
  · rwa [hp, streamBits_eq_of_len hl]

/-- R106 (a) for one event. -/
theorem takeEvent_pos_le {e : Event} {s t : State} (hs : s.pos.toNat ≤ streamBits s) (h : takeEvent e s = .next t) :
    t.pos.toNat ≤ streamBits t := by
  rcases takeEvent_next h with ⟨-, rfl⟩ | ⟨n, -, rfl⟩ | ⟨a, b, d, -, rfl⟩ | ⟨w, -, hw⟩ |
    ⟨a, b, v, -, -, ⟨i, rfl⟩ | rfl⟩
  · exact Nat.zero_le _
  · exact pos_le_of_eq hs (refill_pos s n) (refill_len s n)
  · exact hs
  · rcases runCommand_next hw with ⟨i, -, hi⟩ | ⟨-, rfl⟩
    · exact exec_pos_le hs hi
    · exact pos_le_of_eq hs (raise_pos _ s) (raise_len _ s)
  · exact pos_le_of_eq hs (writeStreamWord_pos i v s) (writeStreamWord_len i v s)
  · exact hs

/-- R106 (a): POS never passes 8*LEN. -/
theorem step_pos_le {s t : State} (hs : s.pos.toNat ≤ streamBits s) (h : step s = .next t) :
    t.pos.toNat ≤ streamBits t := by
  cases he : s.events with
  | nil =>
    rw [step_of_idle he] at h
    exact next_inj h ▸ hs
  | cons e rest =>
    rw [step_of_events he] at h
    exact takeEvent_pos_le (s := { s with events := rest }) hs h

/-- R106 (d): only STREAM and successful reads move POS. -/
theorem exec_pos_ne {i : Instr} {s t : State} (h : exec i s = .next t) (hne : t.pos ≠ s.pos) :
    (∃ len, i = .stream len) ∨ (t.lastErr = .ok ∧ ((∃ n, i = .readbits n) ∨ ∃ slot, i = .decode slot)) := by
  rcases exec_pos_len h with ⟨len, hi, -⟩ | ⟨hp, -⟩ | ⟨hok, hi, -⟩
  · exact .inl ⟨len, hi⟩
  · exact absurd hp hne
  · exact .inr ⟨hok, hi⟩

/-- Settles O13: the four parts of R106, one lemma each. -/
theorem readFactsFollow : Obligations.ReadFactsFollow :=
  ⟨fun _ _ => step_pos_le, fun _ _ _ => execReadbits_result_lt, fun _ _ _ _ _ _ => execReadbits_append,
    fun _ _ _ => exec_pos_ne⟩

end Sys2Proof.Machine

/-! PROOFS of the statements about code-length memory (41_codelengths.md): SETCL, CLRCL, and BUILD where no symbol is
present. -/

namespace Sys2Proof.Machine

open Sys2Proof

/-- SETCL with SYM in range writes CLMEM[SYM] (R120). -/
theorem execSetcl_of_lt {sym : BitVec 12} {s : State} (h : sym.toNat < s.config.maxSymbol) (cl : BitVec 4) :
    execSetcl sym cl s = .next { s with result := 0, lastErr := .ok, clmem := clWrite s.clmem sym.toNat cl } :=
  if_pos (decide_eq_true h)

/-- Settles O17: the words go through the check of the reserved bits, and CLMEM after the write is `clRead_clWrite`. -/
theorem setclWritesOneLength : Obligations.SetclWritesOneLength := by
  refine ⟨fun w s h => ?words, fun sym cl s => ⟨fun hs => ?writes, fun hs => ?illegal⟩⟩
  case words =>
    have hop : (opField w).toNat = 3 := (opField_toNat w).trans h
    exact runCommand_whenReserved 16 (by simp only [decode, hop]) s
  case writes => exact ⟨_, execSetcl_of_lt hs cl, fun j => clRead_clWrite s.clmem sym.toNat j cl⟩
  case illegal => exact exec_of_not_wf (decide_eq_false (not_lt.2 hs))

/-- With every length below the count 0, no symbol is present (R133). -/
theorem presentLengths_eq_nil {m : CodeLengths} {n : Nat} (h : ∀ j, j < n → clRead m j = 0) :
    presentLengths m n = [] := by
  refine List.eq_nil_iff_forall_not_mem.2 fun ⟨j, l⟩ hj => ?_
  obtain ⟨hlt, hne, -⟩ := mem_presentLengths.1 hj
  exact hne (h j hlt)

/-- BUILD with legal operands and no symbol present below CNT ends with BUILD_EMPTY (R133). -/
theorem execBuild_of_no_symbol {slot : BitVec 4} {cnt : BitVec 13} {s : State}
    (h1 : slot.toNat < s.config.numSlots) (h2 : cnt.toNat ≤ s.config.maxSymbol)
    (h : ∀ j, j < cnt.toNat → clRead s.clmem j = 0) :
    execBuild slot cnt s = .next (raise .buildEmpty (invalidateSlot s slot.toNat)) :=
  execBuild_of_error h1 h2 (by rw [presentLengths_eq_nil h]; rfl)

/-- Settles O18: CLRCL leaves the empty list, in which a BUILD finds no symbol; OP 4 has one word without a reserved
bit set. -/
theorem clrclClearsEveryLength : Obligations.ClrclClearsEveryLength := by
  refine ⟨fun s => ⟨[], rfl, clRead_nil⟩, fun s t slot cnt hslot hcnt ht => ?build, fun s => rfl,
    fun w s hlo hhi => ?reserved⟩
  case build =>
    obtain rfl := next_inj ht
    exact ⟨_, execBuild_of_no_symbol hslot hcnt fun j _ => clRead_nil j, rfl, rfl⟩
  case reserved =>
    have hop : (opField w).toNat = 4 := by rw [opField_toNat]; omega
    have hd : decode w = whenReserved (w.extractLsb' 0 28) .clrcl := by simp only [decode, hop]
    exact (runCommand_whenReserved 0 hd s).2 (by omega)

end Sys2Proof.Machine

/-! PROOFS of the statements about table construction (42_build.md): what BUILD answers, the canonical codes, and the
entries of the tables it leaves. -/

namespace Sys2Proof.Machine

open Sys2Proof

/-! ### The answer of BUILD -/

/-- The Kraft check of two symbols or more, and its three answers (R135). -/
theorem buildTable_of_two_le {ls : List (Nat × Nat)} (h : 2 ≤ ls.length) (inc : PIncomplete) :
    buildTable inc ls =
      if 2 ^ 15 < kraftSum ls then .error .buildOversub
      else if kraftSum ls < 2 ^ 15 ∧ inc = .reject then .error .buildIncomplete
      else .ok (splitTable ls) := by
  match ls, h with
  | _ :: _ :: _, _ => rfl

/-- The only errors of a BUILD with legal operands (R146). -/
theorem buildTable_error {inc : PIncomplete} {ls : List (Nat × Nat)} {e : ErrorCode} (h : buildTable inc ls = .error e) :
    e = .buildEmpty ∨ e = .buildOversub ∨ e = .buildIncomplete := by
  rcases buildTable_cases inc ls with ⟨-, h'⟩ | ⟨p, -, h'⟩ | ⟨-, -, h'⟩ | ⟨-, -, -, h'⟩ | ⟨-, -, -, h'⟩ <;>
    rw [h'] at h <;> cases h <;> decide

/-- A slot is read from the table store alone (R30). -/
theorem slotAt_congr {s t : State} (h : s.slots = t.slots) (k : Nat) : slotAt s k = slotAt t k := by
  rw [slotAt, slotAt, h]

/-- The slot BUILD commits is valid and holds the table (R143). -/
theorem slotAt_of_installTable {s t : State} {k : Nat} {tbl : Table} (hk : k < s.slots.length)
    (h : t.slots = (installTable s k tbl).slots) : slotAt t k = { valid := true, table := tbl } := by
  rw [slotAt_congr h, installTable, slotAt_setSlot, if_pos ⟨rfl, hk⟩]

/-- The slot of a failing BUILD is invalid (R132). -/
theorem slotAt_of_invalidateSlot {s t : State} {k : Nat} (hk : k < s.slots.length)
    (h : t.slots = (invalidateSlot s k).slots) : slotAt t k = { slotAt s k with valid := false } := by
  rw [slotAt_congr h, invalidateSlot, slotAt_setSlot, if_pos ⟨rfl, hk⟩]

section legal

variable {slot : BitVec 4} {cnt : BitVec 13} {s : State}

/-- A failing BUILD with legal operands changes RESULT, LASTERR and the table store (R132, R202). -/
theorem execBuild_error_eq (h1 : slot.toNat < s.config.numSlots) (h2 : cnt.toNat ≤ s.config.maxSymbol) {e : ErrorCode}
    (h : buildTable s.config.pIncomplete (presentLengths s.clmem cnt.toNat) = .error e) :
    execBuild slot cnt s = .next { s with
      result := 0xFFFFFFFF#32, lastErr := e, slots := (invalidateSlot s slot.toNat).slots } := by
  have he : e ≠ .eos ∧ e ≠ .invalidCode := by
    rcases buildTable_error h with rfl | rfl | rfl <;> decide
  rw [execBuild_of_error h1 h2 h, raise_plain he.1 he.2]
  rfl

/-- A BUILD with legal operands completes, and its slot is valid exactly when it succeeds (R131, R143). -/
theorem execBuild_completes (h1 : slot.toNat < s.config.numSlots) (hlen : s.slots.length = s.config.numSlots)
    (h2 : cnt.toNat ≤ s.config.maxSymbol) :
    ∃ t, execBuild slot cnt s = .next t ∧ t.slots.length = s.slots.length ∧
      ((slotAt t slot.toNat).valid = true ↔ t.lastErr = .ok) ∧
      ∀ (m : CodeLengths) (u : State), (∀ j, j < cnt.toNat → clRead m j = clRead s.clmem j) →
        execBuild slot cnt { s with clmem := m } = .next u →
        u.result = t.result ∧ u.lastErr = t.lastErr ∧ slotAt u slot.toNat = slotAt t slot.toNat := by
  have hslot : slot.toNat < s.slots.length := hlen ▸ h1
  cases hb : buildTable s.config.pIncomplete (presentLengths s.clmem cnt.toNat) with
  | error e =>
    have hne : e ≠ .ok := by rcases buildTable_error hb with rfl | rfl | rfl <;> decide
    refine ⟨_, execBuild_error_eq h1 h2 hb, by simp, iff_of_false (ne_true_of_eq_false ?_) hne, fun m u hm hu => ?_⟩
    · exact congrArg Slot.valid (slotAt_of_invalidateSlot hslot (by rfl))
    · rw [← presentLengths_congr hm] at hb
      rw [next_inj ((execBuild_error_eq (s := { s with clmem := m }) h1 h2 hb).symm.trans hu)]
      exact ⟨rfl, rfl, rfl⟩
  | ok tbl =>
    refine ⟨_, execBuild_of_table h1 h2 hb, by simp [installTable], iff_of_true ?_ rfl, fun m u hm hu => ?_⟩
    · exact congrArg Slot.valid (slotAt_of_installTable hslot (by rfl))
    · rw [← presentLengths_congr hm] at hb
      rw [next_inj ((execBuild_of_table (s := { s with clmem := m }) h1 h2 hb).symm.trans hu)]
      exact ⟨rfl, rfl, rfl⟩

end legal

/-- Settles O19: no present symbol makes `buildTable` answer BUILD_EMPTY. -/
theorem buildWithoutSymbolsFails : Obligations.BuildWithoutSymbolsFails := by
  intro slot cnt s h1 h2 h
  exact ⟨_, execBuild_error_eq h1 h2 (by rw [presentLengths_eq_nil h]; rfl)⟩

/-- With one symbol below the count present, the present lengths are its own (R134). -/
theorem presentLengths_eq_singleton {m : CodeLengths} {n s0 : Nat} (hs : s0 < n)
    (h : ∀ j, j < n → (clRead m j ≠ 0 ↔ j = s0)) : presentLengths m n = [(s0, (clRead m s0).toNat)] := by
  have hmem : ∀ p, p ∈ presentLengths m n ↔ p = (s0, (clRead m s0).toNat) := by
    rintro ⟨j, l⟩
    rw [mem_presentLengths, Prod.mk.injEq]
    constructor
    · rintro ⟨hj, hne, rfl⟩
      obtain rfl := (h j hj).1 hne
      exact ⟨rfl, rfl⟩
    · rintro ⟨rfl, rfl⟩
      exact ⟨hs, (h j hs).2 rfl, rfl⟩
  have hnd : (presentLengths m n).Nodup := (presentLengths_sorted m n).imp fun hlt e => by rw [e] at hlt; omega
  exact List.perm_singleton.1 ((List.perm_ext_iff_of_nodup hnd (List.nodup_singleton _)).2 (by simpa using hmem))

/-- A leaf of length 0 as the number R134 writes. -/
theorem mkEntry_zero_eq_ofNat (sym : Nat) : mkEntry sym 0 = BitVec.ofNat 16 (sym <<< 4) := by
  refine BitVec.eq_of_toNat_eq ?_
  rw [mkEntry, toNat_append_eq, Nat.shiftLeft_eq]
  simp only [BitVec.toNat_ofNat]
  omega

/-- Settles O20: the present lengths are one pair, and `buildTable` answers its trivial table without a Kraft check. -/
theorem buildOfOneSymbolIsTrivial : Obligations.BuildOfOneSymbolIsTrivial := by
  intro slot cnt s s0 h1 hlen h2 hs0 h
  have hb : buildTable s.config.pIncomplete (presentLengths s.clmem cnt.toNat) = .ok (trivialTable s0) := by
    rw [presentLengths_eq_singleton hs0 h]; rfl
  refine ⟨_, execBuild_of_table h1 h2 hb, fun t ht => ?_⟩
  rw [slotAt_of_installTable (hlen ▸ h1) ht]
  exact ⟨rfl, rfl, rfl, fun i => (mainAt_mainOf _ _ _ i).trans (mkEntry_zero_eq_ofNat s0)⟩

/-- Settles O21: the three branches of the Kraft check. -/
theorem kraftSumDecidesBuild : Obligations.KraftSumDecidesBuild := by
  intro slot cnt s a b h1 hlen h2 hab hb ha0 hb0
  rw [kraftOf_eq]
  have htwo := buildTable_of_two_le (two_le_presentLengths hab hb ha0 hb0) s.config.pIncomplete
  refine ⟨fun hk => ?oversub, fun hk hinc => ?incomplete, fun hk => ?table⟩
  case oversub =>
    rw [if_pos hk] at htwo
    exact ⟨_, execBuild_error_eq h1 h2 htwo⟩
  case incomplete =>
    rw [if_neg (by omega), if_pos ⟨hk, hinc⟩] at htwo
    exact ⟨_, execBuild_error_eq h1 h2 htwo⟩
  case table =>
    have hrej : ¬(kraftSum (presentLengths s.clmem cnt.toNat) < 2 ^ 15 ∧ s.config.pIncomplete = .reject) := by
      rintro ⟨hlt, hinc⟩
      rcases hk with hk | ⟨-, hk⟩
      · omega
      · rw [hinc] at hk; cases hk
    rw [if_neg (by omega), if_neg hrej] at htwo
    refine ⟨_, execBuild_of_table h1 h2 htwo, fun t ht => ?_⟩
    rw [slotAt_of_installTable (hlen ▸ h1) ht]

/-- Settles O22: the frame is `execBuild_frame`; the snapshot of the lengths below CNT is all BUILD reads of CLMEM. -/
theorem buildReplacesItsSlotOnly : Obligations.BuildReplacesItsSlotOnly := by
  refine ⟨fun w s h => ?words, fun slot cnt s h => ?illegal, fun slot cnt s h1 hlen h2 => ?legal,
    fun sym cl s t h => ?setcl, fun s t h => ?clrcl⟩
  case words =>
    have hop : (opField w).toNat = 5 := (opField_toNat w).trans h
    exact runCommand_whenReserved 13 (by simp only [decode, hop, slotField]) s
  case illegal =>
    refine exec_of_not_wf (Bool.and_eq_false_iff.2 (h.imp (fun hs => ?_) fun hc => ?_))
    · exact decide_eq_false (not_lt.2 hs)
    · exact decide_eq_false (not_le.2 hc)
  case legal =>
    obtain ⟨t, ht, hlength, hvalid, hsnapshot⟩ := execBuild_completes h1 hlen h2
    obtain ⟨hstate, hother⟩ := execBuild_frame ht
    exact ⟨t, ht, hstate, hlength, hother, hvalid, hsnapshot⟩
  case setcl => rw [execSetcl_frame h]
  case clrcl => rw [next_inj h]; rfl

/-! ### Canonical codes -/

section codes

variable {ls : List (Nat × Nat)} {c d : Code}

/-- A fact about every code is one about every present symbol. -/
theorem forall_lengths_of_forall_codes {P : Nat × Nat → Prop} (hP : ∀ e ∈ canonicalCodes ls, P (e.sym, e.len)) :
    ∀ p ∈ ls, P p := by
  rintro ⟨sym, len⟩ hp
  obtain ⟨e, he, rfl, rfl⟩ := exists_code sym len hp
  exact hP e he

/-- As binary fractions, a code ends before every longer code starts (R136). -/
theorem canonicalCodes_before_longer (h : LengthsOk ls) (hc : c ∈ canonicalCodes ls) (hd : d ∈ canonicalCodes ls)
    (hlen : c.len < d.len) : (c.code + 1) * 2 ^ (15 - c.len) ≤ d.code * 2 ^ (15 - d.len) :=
  calc (c.code + 1) * 2 ^ (15 - c.len)
      ≤ kraftBelow ls (c.len + 1) := (canonicalCodes_interval h hc).2
    _ ≤ kraftBelow ls d.len := kraftBelow_mono ls hlen
    _ ≤ d.code * 2 ^ (15 - d.len) := (canonicalCodes_interval h hd).1

/-- A reversed code fits its length (R137). -/
theorem canonicalCodes_rev_lt (h : LengthsOk ls) (hc : c ∈ canonicalCodes ls) : c.rev < 2 ^ c.len := by
  rw [(canonicalCodes_sym_len h hc).2.2.2]
  exact bitrev_lt _ _

variable (h : LengthsOk ls) (hs : ls.Pairwise fun p q => p.1 < q.1)
include h hs

/-- A code is the first of its length plus the number of smaller symbols of that length (R136). -/
theorem canonicalCodes_code_eq (hc : c ∈ canonicalCodes ls) :
    c.code = firstCode ls c.len + ls.countP fun p => decide (p.2 = c.len ∧ p.1 < c.sym) := by
  rw [← nextTable_getD ls (canonicalCodes_sym_len h hc).2.2.1]
  exact assignCodes_code_eq (by simp) (fun p hp => (h p hp).2) hs hc

/-- The number after a code is the first of its length plus the number of symbols of that length up to its own (R136). -/
theorem canonicalCodes_code_succ (hc : c ∈ canonicalCodes ls) :
    c.code + 1 = firstCode ls c.len + ls.countP fun p => decide (p.2 = c.len ∧ p.1 ≤ c.sym) := by
  rw [countP_le_eq hs (canonicalCodes_sym_len h hc).1, canonicalCodes_code_eq h hs hc, Nat.add_assoc]

/-- A symbol has one code, whatever the Kraft sum. -/
theorem canonicalCodes_sym_inj (hc : c ∈ canonicalCodes ls) (hd : d ∈ canonicalCodes ls) (hsym : c.sym = d.sym)
    (hlen : c.len = d.len) : c = d := by
  refine assignCodes_inj (by simp) (fun p hp => (h p hp).2) hc hd hlen ?_
  rw [canonicalCodes_code_eq h hs hc, canonicalCodes_code_eq h hs hd, hsym, hlen]

/-- The codes of one length rise with the symbol (R136). -/
theorem canonicalCodes_code_lt_of_sym_lt (hc : c ∈ canonicalCodes ls) (hd : d ∈ canonicalCodes ls)
    (hlen : c.len = d.len) (hsym : c.sym < d.sym) : c.code < d.code := by
  have hle : (ls.countP fun p => decide (p.2 = c.len ∧ p.1 ≤ c.sym)) ≤
      ls.countP fun p => decide (p.2 = c.len ∧ p.1 < d.sym) :=
    List.countP_mono_left fun p _ hp => by simp only [decide_eq_true_eq] at hp ⊢; omega
  have h1 := canonicalCodes_code_succ h hs hc
  have h2 := canonicalCodes_code_eq h hs hd
  rw [← hlen] at h2
  omega

/-- The codes of neighbouring symbols of one length are consecutive numbers (R136). -/
theorem canonicalCodes_code_eq_succ (hc : c ∈ canonicalCodes ls) (hd : d ∈ canonicalCodes ls)
    (hlen : c.len = d.len) (hsym : c.sym < d.sym) (hno : ∀ p ∈ ls, c.sym < p.1 → p.1 < d.sym → p.2 ≠ c.len) :
    d.code = c.code + 1 := by
  rw [canonicalCodes_code_succ h hs hc, canonicalCodes_code_eq h hs hd, ← hlen]
  congr 1
  refine List.countP_congr fun p hp => ?_
  have := hno p hp
  simp only [decide_eq_true_eq]
  omega

/-- The first code of a length starts where the shorter codes end (R136). -/
theorem canonicalCodes_first_start (hc : c ∈ canonicalCodes ls) (hfirst : ∀ p ∈ ls, p.2 = c.len → c.sym ≤ p.1) :
    c.code * 2 ^ (15 - c.len) = kraftBelow ls c.len := by
  have hnone : (ls.countP fun p => decide (p.2 = c.len ∧ p.1 < c.sym)) = 0 :=
    List.countP_eq_zero.2 fun p hp => by have := hfirst p hp; simp only [decide_eq_true_eq]; omega
  rw [canonicalCodes_code_eq h hs hc, hnone, Nat.add_zero, firstCode_scaled h (canonicalCodes_sym_len h hc).2.2.1]

/-- The last code of a length ends where the codes up to that length end (R136). -/
theorem canonicalCodes_last_end (hc : c ∈ canonicalCodes ls) (hlast : ∀ p ∈ ls, p.2 = c.len → p.1 ≤ c.sym) :
    (c.code + 1) * 2 ^ (15 - c.len) = kraftBelow ls (c.len + 1) := by
  have hall : (ls.countP fun p => decide (p.2 = c.len ∧ p.1 ≤ c.sym)) = ls.countP fun p => decide (p.2 = c.len) :=
    List.countP_congr fun p hp => by have := hlast p hp; simp only [decide_eq_true_eq]; omega
  rw [canonicalCodes_code_succ h hs hc, hall, Nat.add_mul, firstCode_scaled h (canonicalCodes_sym_len h hc).2.2.1,
    ← kraftBelow_succ]

/-- The first code of all is 0 (R136). -/
theorem canonicalCodes_first_eq_zero (hc : c ∈ canonicalCodes ls) (hshort : ∀ p ∈ ls, c.len ≤ p.2)
    (hfirst : ∀ p ∈ ls, p.2 = c.len → c.sym ≤ p.1) : c.code = 0 := by
  have hstart := canonicalCodes_first_start h hs hc hfirst
  rw [kraftBelow_congr (b := 0) fun p hp => iff_of_false (not_lt.2 (hshort p hp)) (Nat.not_lt_zero _),
    kraftBelow_zero] at hstart
  exact (Nat.mul_eq_zero.1 hstart).resolve_right (Nat.two_pow_pos _).ne'

/-- The first code of the next length in use starts where the last code of the shorter length ends (R136). -/
theorem canonicalCodes_next_length (hc : c ∈ canonicalCodes ls) (hd : d ∈ canonicalCodes ls) (hlen : c.len < d.len)
    (hbetween : ∀ p ∈ ls, ¬(c.len < p.2 ∧ p.2 < d.len)) (hlast : ∀ p ∈ ls, p.2 = c.len → p.1 ≤ c.sym)
    (hfirst : ∀ p ∈ ls, p.2 = d.len → d.sym ≤ p.1) :
    d.code * 2 ^ (15 - d.len) = (c.code + 1) * 2 ^ (15 - c.len) := by
  rw [canonicalCodes_first_start h hs hd hfirst, canonicalCodes_last_end h hs hc hlast]
  exact kraftBelow_congr fun p hp => by have := hbetween p hp; omega

end codes

/-- Settles O23: a code is `firstCode` of its length plus its rank in that length, and `firstCode` scaled to 15 bits is
`kraftBelow`. -/
theorem codesAreCanonical : Obligations.CodesAreCanonical := by
  intro m n hk cs
  rw [kraftOf_eq] at hk
  have hok := presentLengths_ok m n
  have hsorted := presentLengths_sorted m n
  have hmem : ∀ c ∈ cs, c.sym < n ∧ clRead m c.sym ≠ 0 ∧ c.len = (clRead m c.sym).toNat :=
    fun c hc => mem_presentLengths.1 (canonicalCodes_sym_len hok hc).1
  refine ⟨fun j hj hne => ?unique, fun c hc => ?fits, fun c hc d hd hlen hsym => ?consecutive,
    fun c hc d hd => canonicalCodes_before_longer hok hc hd, fun c hc hshort hfirst => ?zero,
    fun c hc d hd hlen hbetween hlast hfirst => ?next⟩
  case unique =>
    obtain ⟨c, hc, hsym, -⟩ := exists_code j _ (mem_presentLengths.2 ⟨hj, hne, rfl⟩)
    refine ⟨c, hc, hsym, fun d hd hd' => ?_⟩
    obtain ⟨-, -, hcl⟩ := hmem c hc
    obtain ⟨-, -, hdl⟩ := hmem d hd
    exact canonicalCodes_sym_inj hok hsorted hd hc (hd'.trans hsym.symm) (by rw [hcl, hdl, hsym, hd'])
  case fits =>
    obtain ⟨-, hpos, -, hrev⟩ := canonicalCodes_sym_len hok hc
    refine ⟨(hmem c hc).1, (hmem c hc).2.2, hpos, canonicalCodes_code_lt hok hk hc, canonicalCodes_rev_lt hok hc,
      fun i hi => ?_⟩
    rw [hrev, bitrev_testBit, decide_eq_true hi, Bool.true_and]
  case consecutive =>
    refine ⟨canonicalCodes_code_lt_of_sym_lt hok hsorted hc hd hlen hsym, fun hno => ?_⟩
    refine canonicalCodes_code_eq_succ hok hsorted hc hd hlen hsym fun p hp h1 h2 e => hno p.1 h1 h2 ?_
    obtain ⟨-, -, hpl⟩ := mem_presentLengths.1 hp
    exact BitVec.eq_of_toNat_eq (by rw [← hpl, e, (hmem c hc).2.2])
  case zero =>
    exact canonicalCodes_first_eq_zero hok hsorted hc (forall_lengths_of_forall_codes hshort)
      (forall_lengths_of_forall_codes fun e he hl => hfirst e he hl.symm)
  case next =>
    exact canonicalCodes_next_length hok hsorted hc hd hlen (forall_lengths_of_forall_codes hbetween)
      (forall_lengths_of_forall_codes hlast) (forall_lengths_of_forall_codes hfirst)

/-- The low bits of a stream value within its first 8. -/
theorem mod256_mod_pow {x l : Nat} (hl : l ≤ 8) : x % 256 % 2 ^ l = x % 2 ^ l := mod_mod_pow hl

/-- Settles O24: an index two codes reach makes a stream value that starts with both, which `CodesOk.unique` excludes. -/
theorem noEntryIsWrittenTwice : Obligations.NoEntryIsWrittenTwice := by
  intro m n hk cs c hc d hd hne
  rw [kraftOf_eq] at hk
  have hok := presentLengths_ok m n
  have hcodes := canonicalCodes_ok hok hk
  have hdiff : ∀ x, x % 2 ^ c.len = c.rev → x % 2 ^ d.len ≠ d.rev :=
    fun x h1 h2 => hne (hcodes.unique c hc d hd x h1 h2)
  refine ⟨fun _ _ p ⟨h1, h2⟩ => hdiff p h1 h2, fun hlc hld h => ?shortLong, fun hlc hld hp q ⟨h1, h2⟩ => ?longLong⟩
  case shortLong =>
    rw [mod256_mod_pow hlc] at h
    exact hdiff d.rev h (Nat.mod_eq_of_lt (canonicalCodes_rev_lt hok hd))
  case longLong =>
    have hmod : (c.rev % 256 + 256 * q) % 256 = c.rev % 256 := by omega
    have hdiv : (c.rev % 256 + 256 * q) / 256 = q := by omega
    refine hdiff (c.rev % 256 + 256 * q) (match_of_parts hlc (le_refl _) hmod.symm ?_)
      (match_of_parts hld (le_refl _) (hp.symm.trans hmod.symm) ?_)
    · rw [hdiv, Nat.mod_mod, h1]
    · rw [hdiv, Nat.mod_mod, h2]

/-! ### The entries of a built table -/

/-- From two symbols or more, a BUILD that succeeds makes the two-level table (R135, R143). -/
theorem buildTable_ok_of_two_le {inc : PIncomplete} {ls : List (Nat × Nat)} {t : Table} (h2 : 2 ≤ ls.length)
    (h : buildTable inc ls = .ok t) : t = splitTable ls := by
  rw [buildTable_of_two_le h2] at h
  split at h
  · cases h
  · split at h
    · cases h
    · exact (Except.ok.inj h).symm

/-- A BUILD that ends with OK has legal operands and commits a table (R130, R143). -/
theorem execBuild_of_ok {slot : BitVec 4} {cnt : BitVec 13} {s t : State} (h : execBuild slot cnt s = .next t)
    (hok : t.lastErr = .ok) :
    slot.toNat < s.config.numSlots ∧ cnt.toNat ≤ s.config.maxSymbol ∧
      ∃ tbl, buildTable s.config.pIncomplete (presentLengths s.clmem cnt.toNat) = .ok tbl ∧
        t = finish 0 .ok (installTable s slot.toNat tbl) := by
  rcases execBuild_next slot cnt s with ⟨-, e⟩ | ⟨hlegal, ⟨_, -, he, e⟩ | ⟨tbl, hb, e⟩⟩
  · rw [next_inj (e.symm.trans h)] at hok
    cases hok
  · rw [next_inj (e.symm.trans h)] at hok
    rcases he with rfl | rfl | rfl <;> cases hok
  · simp only [Bool.and_eq_true, slotOk, cntOk, decide_eq_true_eq] at hlegal
    exact ⟨hlegal.1, hlegal.2, tbl, hb, next_inj (e.symm.trans h)⟩

/-- Settles O25: only the committing branch ends with OK, and MAXLEN is `splitTable_maxLen`. -/
theorem successfulBuildCommitsTheTable : Obligations.SuccessfulBuildCommitsTheTable := by
  intro slot cnt s t hlen hmax h hok
  obtain ⟨h1, h2, tbl, hb, rfl⟩ := execBuild_of_ok h hok
  have hslot : slotAt (finish 0 .ok (installTable s slot.toNat tbl)) slot.toNat = { valid := true, table := tbl } :=
    slotAt_of_installTable (hlen ▸ h1) rfl
  rw [hslot]
  refine ⟨rfl, ⟨h1, congrArg Slot.valid hslot, h2.trans hmax, hslot ▸ hb⟩, fun ⟨a, b, hab, hbc, ha0, hb0⟩ => ?_⟩
  have htwo := two_le_presentLengths hab hbc ha0 hb0
  obtain ⟨hbound, hattained⟩ := splitTable_maxLen (presentLengths_ok s.clmem cnt.toNat)
  rw [buildTable_ok_of_two_le htwo hb]
  refine ⟨fun j hj => ?bound, ?attained⟩
  case bound =>
    by_cases h0 : clRead s.clmem j = 0
    · rw [h0]; exact Nat.zero_le _
    · exact hbound (j, _) (mem_presentLengths.2 ⟨hj, h0, rfl⟩)
  case attained =>
    obtain ⟨⟨j, l⟩, hp, hl⟩ := hattained (List.ne_nil_of_length_pos (by omega))
    obtain ⟨hj, -, rfl⟩ := mem_presentLengths.1 hp
    exact ⟨j, hj, BitVec.eq_of_toNat_eq hl⟩

/-- The main indices with a subtable are the first 8 bits of the long codes (R138). -/
theorem subOwners_eq_filter (cs : List Code) :
    subOwners cs = (List.range 256).filter fun p => cs.any fun c => decide (8 < c.len ∧ c.rev % 256 = p) := by
  refine List.filter_congr fun p _ => ?_
  rw [Bool.eq_iff_iff, decide_eq_true_eq, subWidth_pos_iff, List.any_eq_true]
  simp only [decide_eq_true_eq]

/-- The number of a subtable is the number of smaller main indices with one (R139). -/
theorem idxOf_subOwners {cs : List Code} {p : Nat} (h : p ∈ subOwners cs) :
    (subOwners cs).idxOf p =
      ((List.range p).filter fun p => cs.any fun c => decide (8 < c.len ∧ c.rev % 256 = p)).length := by
  rw [subOwners_eq_filter] at h ⊢
  obtain ⟨hp, hany⟩ := List.mem_filter.1 h
  exact idxOf_filter_range _ (List.mem_range.1 hp) hany

theorem idxOf_subOwners_lt {cs : List Code} {p : Nat} (h : p ∈ subOwners cs) : (subOwners cs).idxOf p < 256 :=
  (List.idxOf_lt_length_of_mem h).trans_le (subOwners_length cs)

/-- A code that a stream value with an indirect first byte starts with is long (R144). -/
theorem len_gt_of_mem_subOwners {ls : List (Nat × Nat)} (h : LengthsOk ls) (hk : kraftSum ls ≤ 2 ^ 15) {x : Nat}
    (hp : x % 256 ∈ subOwners (canonicalCodes ls)) {c : Code} (hc : c ∈ canonicalCodes ls)
    (hx : x % 2 ^ c.len = c.rev) : 8 < c.len := by
  by_contra hshort
  obtain ⟨d, hd, hdl, hdp⟩ := subWidth_pos_iff.1 (mem_subOwners.1 hp).2
  have hlow : d.rev % 2 ^ c.len = c.rev := by
    rw [← mod256_mod_pow (not_lt.1 hshort), hdp, mod256_mod_pow (not_lt.1 hshort), hx]
  have hcd := canonicalCodes_prefixFree h hk hc hd hlow (Nat.mod_eq_of_lt (canonicalCodes_rev_lt h hd))
  exact hshort (hcd ▸ hdl)

/-- An indirect entry is not the unoccupied one (R31, R142). -/
theorem indirect_ne_unoccupied (k : Nat) : mkEntry k 15 ≠ unoccupied := by
  intro e
  have hln := congrArg entryLn e
  rw [entryLn_mkEntry, entryLn_unoccupied] at hln
  exact absurd hln (by decide)

section built

variable {s : State} {slot : BitVec 4} {m : CodeLengths} {cnt : Nat} {c : Code}

/-- A built table meets the invariant of tables (R30, R146). -/
theorem BuiltSlot.inv (hb : BuiltSlot s slot m cnt) : (slotAt s slot.toNat).table.Inv :=
  buildTable_inv (presentLengths_ok m cnt)
    (fun _ hp => (presentLengths_lt hp).trans_le hb.count_le) hb.table

/-- The leaf of a code as the number R140 writes. -/
theorem BuiltSlot.leafEntry_eq_ofNat (hb : BuiltSlot s slot m cnt)
    (hc : c ∈ canonicalCodes (presentLengths m cnt)) : leafEntry c = BitVec.ofNat 16 (c.sym <<< 4 ||| c.len) := by
  have hsym := hb.sym_lt hc
  have hlen := (canonicalCodes_sym_len (presentLengths_ok m cnt) hc).2.2.1
  exact mkEntry_eq_ofNat _ _ (by omega) (by omega)

variable (hb : BuiltSlot s slot m cnt) (h2 : 2 ≤ (presentLengths m cnt).length)
include hb h2

/-- A main index a short code reaches holds its leaf (R140). -/
theorem BuiltSlot.mainAt_of_short (hc : c ∈ canonicalCodes (presentLengths m cnt)) (hl : c.len ≤ 8) {i : BitVec 8}
    (hi : i.toNat % 2 ^ c.len = c.rev) : mainAt (slotAt s slot.toNat).table i = leafEntry c := by
  obtain ⟨-, ok, ht⟩ := hb.split h2
  rw [ht, splitTable_mainAt, mainEntry_short ok hc hl hi]

/-- A main index no code reaches is unoccupied (R142). -/
theorem BuiltSlot.mainAt_of_unreached {i : BitVec 8}
    (hshort : ∀ c ∈ canonicalCodes (presentLengths m cnt), c.len ≤ 8 → i.toNat % 2 ^ c.len ≠ c.rev)
    (hlong : ∀ c ∈ canonicalCodes (presentLengths m cnt), 8 < c.len → c.rev % 256 ≠ i.toNat) :
    mainAt (slotAt s slot.toNat).table i = unoccupied := by
  obtain ⟨-, -, ht⟩ := hb.split h2
  have hnone : ¬ 0 < subWidth (canonicalCodes (presentLengths m cnt)) i.toNat := fun hpos => by
    obtain ⟨c, hc, hl, hi⟩ := subWidth_pos_iff.1 hpos
    exact hlong c hc hl hi
  rw [ht, splitTable_mainAt, mainEntry_of_no_short hshort, if_neg fun h => hnone h.2]

/-- The unoccupied main indices are those no code reaches (R145 (b)). -/
theorem BuiltSlot.mainAt_eq_unoccupied_iff {i : BitVec 8} :
    mainAt (slotAt s slot.toNat).table i = unoccupied ↔
      (∀ c ∈ canonicalCodes (presentLengths m cnt), c.len ≤ 8 → i.toNat % 2 ^ c.len ≠ c.rev) ∧
      (∀ c ∈ canonicalCodes (presentLengths m cnt), 8 < c.len → c.rev % 256 ≠ i.toNat) := by
  refine ⟨fun hu => ⟨fun c hc hl hi => ?short, fun c hc hl hi => ?long⟩, fun h => hb.mainAt_of_unreached h2 h.1 h.2⟩
  case short =>
    rw [hb.mainAt_of_short h2 hc hl hi] at hu
    exact leafEntry_ne_unoccupied (hb.sym_lt hc) hu
  case long =>
    obtain ⟨-, -, -, -, hmain⟩ := hb.subtable h2 ⟨c, hc, hl, hi⟩
    exact indirect_ne_unoccupied _ (hmain.symm.trans hu)

/-- The unoccupied indices of a subtable are those no long code under its main index reaches (R145 (c)). -/
theorem BuiltSlot.subAt_eq_unoccupied_iff {i : BitVec 8}
    (h : ∃ c ∈ canonicalCodes (presentLengths m cnt), 8 < c.len ∧ c.rev % 256 = i.toNat) {q : Nat}
    (hq : q < 2 ^ subBitsAt (slotAt s slot.toNat).table (entrySym (mainAt (slotAt s slot.toNat).table i)).toNat) :
    subAt (slotAt s slot.toNat).table (entrySym (mainAt (slotAt s slot.toNat).table i)).toNat q = unoccupied ↔
      ∀ c ∈ canonicalCodes (presentLengths m cnt), 8 < c.len → c.rev % 256 = i.toNat →
        q % 2 ^ (c.len - 8) ≠ c.rev / 256 := by
  obtain ⟨-, hbits, hsub, -, -⟩ := hb.subtable h2 h
  obtain ⟨-, ok, -⟩ := hb.split h2
  rw [hbits] at hq
  rw [hsub q hq]
  refine ⟨fun hu c hc hl hi hreach => ?_, subEntry_of_no_match⟩
  rw [subEntry_of_reaches ok hc hl hi hq hreach] at hu
  exact leafEntry_ne_unoccupied (hb.sym_lt hc) hu

variable (hk : kraftSum (presentLengths m cnt) = 2 ^ 15)
include hk

/-- Every main index of a complete code is reached (R145 (a)). -/
theorem BuiltSlot.mainAt_sym_of_complete (i : BitVec 8) :
    entrySym (mainAt (slotAt s slot.toNat).table i) ≠ unoccupiedSym := by
  obtain ⟨c, hc, hx⟩ := exists_code_of_complete (presentLengths_ok m cnt) hk i.toNat
  rcases Nat.lt_or_ge 8 c.len with hl | hl
  · have hi : c.rev % 256 = i.toNat := by rw [← mod256_of_match hl.le hx, Nat.mod_eq_of_lt i.isLt]
    obtain ⟨-, -, -, hown, hmain⟩ := hb.subtable h2 ⟨c, hc, hl, hi⟩
    rw [hmain, entrySym_mkEntry]
    exact ofNat_ne_unoccupied ((idxOf_subOwners_lt hown).trans (by decide))
  · rw [hb.mainAt_of_short h2 hc hl hx]
    exact (leafEntry_kind (hb.sym_lt hc) (hl.trans (by decide))).1

/-- Every subtable index of a complete code is reached (R145 (a)). -/
theorem BuiltSlot.subs_sym_of_complete {u : Subtable} (hu : u ∈ (slotAt s slot.toNat).table.subs) {e : Entry}
    (he : e ∈ u.entries) : entrySym e ≠ unoccupiedSym := by
  obtain ⟨-, ok, ht⟩ := hb.split h2
  rw [ht, splitTable_subs, List.mem_map] at hu
  obtain ⟨p, hp, rfl⟩ := hu
  obtain ⟨q, hq, rfl⟩ := List.mem_map.1 he
  rw [List.mem_range] at hq
  have hmod : (p + 256 * q) % 256 = p := by have := (mem_subOwners.1 hp).1; omega
  have hdiv : (p + 256 * q) / 256 = q := by have := (mem_subOwners.1 hp).1; omega
  obtain ⟨c, hc, hx⟩ := exists_code_of_complete (presentLengths_ok m cnt) hk (p + 256 * q)
  have hl := len_gt_of_mem_subOwners (presentLengths_ok m cnt) hk.le (hmod.symm ▸ hp) hc hx
  have hentry := subEntry_of_match ok hc hl hx
  rw [hmod, hdiv, Nat.mod_eq_of_lt hq] at hentry
  rw [hentry]
  exact (leafEntry_kind (hb.sym_lt hc) (ok.len_le c hc)).1

end built

/-- Settles O26: the three cases of `mainEntry`, with the subtable's number as a count. -/
theorem mainTableHoldsItsEntries : Obligations.MainTableHoldsItsEntries := by
  intro s slot m cnt hb h2 cs t
  refine ⟨fun c hc hl i hi => ?short, fun c hc hl i hi => ?long, fun i hshort hlong => ?unreached⟩
  case short => rw [hb.mainAt_of_short h2 hc hl hi, hb.leafEntry_eq_ofNat hc]
  case long =>
    obtain ⟨-, -, -, hown, hmain⟩ := hb.subtable h2 ⟨c, hc, hl, hi.symm⟩
    have hlt := idxOf_subOwners_lt hown
    rw [hmain, mkEntry_eq_ofNat _ _ (by omega) (by decide), idxOf_subOwners hown]
  case unreached => exact hb.mainAt_of_unreached h2 hshort fun c hc hl hi => hlong c hc hl hi.symm

/-- Settles O27: `BuiltSlot.subtable` names the subtable behind an indirect entry; its width is `subWidth` and its entries
are `subEntry`. -/
theorem subtablesHoldTheirEntries : Obligations.SubtablesHoldTheirEntries := by
  intro s slot m cnt hb h2 cs t
  obtain ⟨-, ok, -⟩ := hb.split h2
  refine ⟨by rw [← subOwners_eq_filter]; exact hb.nsub_eq h2, fun i hi => ?_⟩
  obtain ⟨hlt, hbits, hsub, hown, -⟩ := hb.subtable h2 hi
  refine ⟨hlt, fun c hc hl hp => ?wide, ?attained, fun c hc hl hp q hq hreach => ?leaf, fun q hq hno => ?unreached⟩
  case wide => rw [hbits]; exact le_subWidth hc hl hp
  case attained => rw [hbits]; exact exists_of_subWidth_pos (mem_subOwners.1 hown).2
  case leaf =>
    rw [hbits] at hq
    rw [hsub q hq, subEntry_of_reaches ok hc hl hp hq hreach, hb.leafEntry_eq_ofNat hc]
  case unreached => exact (hb.subAt_eq_unoccupied_iff h2 hi hq).2 hno

/-- Settles O28: in a complete code every stream value starts with a code, so every index is reached. -/
theorem occupancyOfABuiltTable : Obligations.OccupancyOfABuiltTable := by
  intro s slot m cnt hb cs t
  rw [kraftOf_eq]
  refine ⟨fun h2 hk => ⟨hb.mainAt_sym_of_complete h2 hk, fun u hu e he => hb.subs_sym_of_complete h2 hk hu he⟩,
    fun h2 i => hb.mainAt_eq_unoccupied_iff h2, fun h2 i hi q hq => hb.subAt_eq_unoccupied_iff h2 hi hq,
    fun h1 i => ?trivial⟩
  obtain ⟨p, hp⟩ := List.length_eq_one_iff.1 h1
  have hlt : p.1 < cnt := presentLengths_lt (m := m) (by rw [hp]; exact List.mem_singleton_self p)
  have htable : trivialTable p.1 = t := by
    have := hb.table
    rw [hp] at this
    exact Except.ok.inj this
  rw [← htable, trivialTable, mainAt_mainOf, entrySym_mkEntry]
  exact ofNat_ne_unoccupied (hlt.trans_le hb.count_le)

/-- Settles O29: the bounds are `Table.Inv`, with at most 2^7 entries for a 3-bit width. -/
theorem builtTableFitsItsStorage : Obligations.BuiltTableFitsItsStorage := by
  refine ⟨?storage, fun slot cnt s t h1 h2 h => ?errors⟩
  case storage =>
    intro s slot m cnt hb t
    have hsize : ∀ u ∈ t.subs, u.entries.length = 2 ^ u.bits.toNat ∧ u.entries.length ≤ 128 := fun u hu => by
      have hlen := (hb.inv.subs u hu).size
      exact ⟨hlen, hlen ▸ Nat.pow_le_pow_right (by decide) (Nat.le_of_lt_succ u.bits.isLt)⟩
    refine ⟨hb.inv.nsub_le, hsize, ?_⟩
    calc (t.subs.map fun u => u.entries.length).sum
        ≤ (t.subs.map fun u => u.entries.length).length • 128 :=
          List.sum_le_card_nsmul _ _ (List.forall_mem_map.2 fun u hu => (hsize u hu).2)
      _ ≤ 256 * 128 := by
          rw [List.length_map, smul_eq_mul]
          exact Nat.mul_le_mul_right _ hb.inv.nsub_le
  case errors =>
    cases hb : buildTable s.config.pIncomplete (presentLengths s.clmem cnt.toNat) with
    | error e =>
      rw [next_inj ((execBuild_error_eq h1 h2 hb).symm.trans h)]
      exact .inr (buildTable_error hb)
    | ok tbl =>
      rw [next_inj ((execBuild_of_table h1 h2 hb).symm.trans h)]
      exact .inl rfl

end Sys2Proof.Machine

/-! PROOFS of the statements about DECODE (43_decode.md): its checks and its two-level lookup, the coded symbol it returns,
trivial tables, and the round trip of a message. -/

namespace Sys2Proof.Machine

open Sys2Proof

/-! ### Entries by shift and mask -/

/-- An entry as a number: SYM, then the four bits of LN (10_state.md R31). -/
theorem toNat_entry (e : Entry) : e.toNat = (entrySym e).toNat * 16 + (entryLn e).toNat := by
  have he := e.isLt
  rw [entrySym, entryLn, toNat_field, toNat_field]
  omega

/-- `e >> 4` is SYM (R31). -/
theorem entry_shiftRight (e : Entry) : e >>> 4 = (entrySym e).setWidth 16 := by
  have hentry := toNat_entry e
  have hln := (entryLn e).isLt
  refine BitVec.eq_of_toNat_eq ?_
  rw [BitVec.toNat_ushiftRight, Nat.shiftRight_eq_div_pow, BitVec.toNat_setWidth_of_le (by decide)]
  omega

/-- `e & 0xF` is LN (R31). -/
theorem entry_and_nibble (e : Entry) : e &&& 0xF#16 = (entryLn e).setWidth 16 := by
  have hentry := toNat_entry e
  have hln := (entryLn e).isLt
  have hmask : e.toNat &&& 15 = e.toNat % 2 ^ 4 := Nat.and_two_pow_sub_one_eq_mod _ 4
  refine BitVec.eq_of_toNat_eq ?_
  rw [BitVec.toNat_and, BitVec.toNat_setWidth_of_le (by decide)]
  refine hmask.trans ?_
  omega

/-- Widening a value keeps which value it is. -/
theorem setWidth_eq_setWidth_iff {v w : Nat} (h : v ≤ w) (x y : BitVec v) :
    x.setWidth w = y.setWidth w ↔ x = y := by
  refine ⟨fun e => BitVec.eq_of_toNat_eq ?_, congrArg _⟩
  rw [← BitVec.toNat_setWidth_of_le h, e, BitVec.toNat_setWidth_of_le h]

theorem entry_shiftRight_toNat (e : Entry) : (e >>> 4).toNat = (entrySym e).toNat := by
  rw [entry_shiftRight, BitVec.toNat_setWidth_of_le (by decide)]

theorem entry_and_nibble_toNat (e : Entry) : (e &&& 0xF#16).toNat = (entryLn e).toNat := by
  rw [entry_and_nibble, BitVec.toNat_setWidth_of_le (by decide)]

/-- SYM as RESULT takes it (43_decode.md R160). -/
theorem entry_shiftRight_setWidth (e : Entry) : (e >>> 4).setWidth 32 = (entrySym e).setWidth 32 := by
  refine BitVec.eq_of_toNat_eq ?_
  rw [BitVec.toNat_setWidth_of_le (by decide), entry_shiftRight_toNat, BitVec.toNat_setWidth_of_le (by decide)]

theorem entry_shiftRight_eq_unoccupiedSym_iff (e : Entry) : e >>> 4 = 0xFFF#16 ↔ entrySym e = unoccupiedSym := by
  rw [entry_shiftRight]
  exact setWidth_eq_setWidth_iff (by decide) (entrySym e) unoccupiedSym

theorem entry_and_nibble_eq_indirectLen_iff (e : Entry) : e &&& 0xF#16 = 0xF#16 ↔ entryLn e = indirectLen := by
  rw [entry_and_nibble]
  exact setWidth_eq_setWidth_iff (by decide) (entryLn e) indirectLen

/-- The lookup with its fields written as shifts and masks (R161, R162). -/
theorem lookupEntry_eq (t : Table) (x : Nat) :
    lookupEntry t x =
      let e0 := mainAt t (BitVec.ofNat 8 (x % 256))
      let k := (e0 >>> 4).toNat
      if e0 &&& 0xF#16 = 0xF#16 then subAt t k (x / 256 % 2 ^ subBitsAt t k) else e0 := by
  have hx : BitVec.ofNat 8 (x % 256) = BitVec.ofNat 8 x := BitVec.eq_of_toNat_eq (by simp)
  simp only [hx, entry_shiftRight_toNat, entry_and_nibble_eq_indirectLen_iff]
  rfl

/-- A direct main entry is the lookup's answer (R161). -/
theorem lookupEntry_of_direct {t : Table} {x : Nat} {e : Entry} (h : mainAt t (BitVec.ofNat 8 x) = e)
    (hln : entryLn e ≠ indirectLen) : lookupEntry t x = e := by
  rw [lookupEntry, h]
  exact if_neg hln

/-! ### The answer of DECODE -/

section answer

variable {slot : BitVec 4} {s : State}

/-- DECODE of a failed stream (R160, 60_exceptions.md R206). -/
theorem execDecode_of_sfail (h1 : slotOk s slot = true) (h2 : (slotAt s slot.toNat).valid = true)
    (h3 : s.sfail = true) : execDecode slot s = .next (raise .streamFailed s) := by
  rw [execDecode, if_neg (by simp [h1]), if_neg (by simp [h2]), if_pos h3]

variable {e : Entry} (h1 : slotOk s slot = true) (h2 : (slotAt s slot.toNat).valid = true) (h3 : s.sfail = false)
  (hr : Readable s s.pos.toNat (slotAt s slot.toNat).table.maxLen.toNat)
  (he : lookupEntry (slotAt s slot.toNat).table
    (streamValue s s.pos.toNat (slotAt s slot.toNat).table.maxLen.toNat) = e)
include h1 h2 h3 hr he

/-- Past its checks DECODE answers by the entry it looks up: INVALID_CODE, EOS or the symbol (R160, R163, R164). -/
theorem execDecode_of_readable :
    execDecode slot s =
      if entrySym e = unoccupiedSym then .next (raise .invalidCode s)
      else if streamBits s < s.pos.toNat + (entryLn e).toNat then .next (raise .eos s)
      else .next (finish ((entrySym e).setWidth 32) .ok (consume (entryLn e).toNat s)) := by
  subst he
  rw [execDecode, if_neg (by simp [h1]), if_neg (by simp [h2]), if_neg (by simp [h3]), peek_of_readable hr]

/-- What a DECODE that completes leaves, with POS as a number (R160, R164). -/
theorem execDecode_completes (hu : entrySym e ≠ unoccupiedSym)
    (hp : s.pos.toNat + (entryLn e).toNat ≤ streamBits s) :
    execDecode slot s = .next { s with
      result := (entrySym e).setWidth 32, lastErr := .ok,
      pos := BitVec.ofNat 32 (s.pos.toNat + (entryLn e).toNat),
      cur := (consume (entryLn e).toNat s).cur, sr := (consume (entryLn e).toNat s).sr } :=
  (execDecode_of_leaf h1 h2 h3 hr he hu hp).trans (congrArg _ (finish_consume_of_le _ hp))

end answer

/-- Words with OP = 6 run DECODE where their reserved bits are 0, and are illegal otherwise (30_encoding.md R84 (b)). -/
theorem runCommand_decode {w : Word} (h : w.toNat / 2 ^ 28 = 6) (s : State) :
    (w.toNat % 2 ^ 24 = 0 → runCommand w s = exec (.decode (w.extractLsb' 24 4)) s) ∧
      (w.toNat % 2 ^ 24 ≠ 0 → runCommand w s = .next (illegalResult s)) := by
  have hop : (opField w).toNat = 6 := (opField_toNat w).trans h
  have hwords := runCommand_whenReserved (w := w) 0 (n := 24) (i := .decode (w.extractLsb' 24 4))
    (by simp only [decode, hop, slotField]) s
  rwa [Nat.pow_zero, Nat.div_one] at hwords

/-- Settles O30: each case is the branch of `execDecode` its premises select, with the entry's fields as shifts and
masks. -/
theorem decodeFollowsTheTwoLevelLookup : Obligations.DecodeFollowsTheTwoLevelLookup := by
  refine ⟨fun w s h => runCommand_decode h s, ?_⟩
  intro slot s t x e0 k e l
  refine ⟨fun h1 => ?illegal, fun h1 h2 => ?invalid, fun h1 h2 => execDecode_of_sfail (decide_eq_true h1) h2,
    fun h1 h2 h3 r => execDecode_of_stop (decide_eq_true h1) h2 h3, fun h1 h2 h3 hr => ?lookup⟩
  case illegal => exact exec_of_not_wf (decide_eq_false (not_lt.2 h1))
  case invalid =>
    rw [exec, execDecode, if_neg (by simp [slotOk, h1]), if_pos (by simp [h2])]
    rfl
  case lookup =>
    have hslot : slotOk s slot = true := decide_eq_true h1
    have he : lookupEntry t x = e := lookupEntry_eq t x
    have hl : l = (entryLn e).toNat := entry_and_nibble_toNat e
    rw [ne_eq, entry_shiftRight_eq_unoccupiedSym_iff, entry_shiftRight_setWidth, hl]
    have hanswer := execDecode_of_readable hslot h2 h3 hr he
    exact ⟨fun hu => hanswer.trans (if_pos hu), fun hu hp => hanswer.trans ((if_neg hu).trans (if_pos hp)),
      fun hu hp => ⟨_, _, execDecode_completes hslot h2 h3 hr he hu hp⟩⟩

/-! ### The coded symbol -/

/-- The stream from bit `p` on starts with a list of bits. -/
def StreamStartsWith (s : State) (p : Nat) (bits : List Bool) : Prop :=
  ∀ i, i < bits.length → bits[i]? = some (streamBit s (p + i))

@[simp] theorem codeBits_length (c : Code) : (codeBits c).length = c.len := by
  simp [codeBits]

/-- A code stands in the stream with its most significant bit first (42_build.md R137). -/
theorem streamStartsWith_codeBits {s : State} {p : Nat} {c : Code} :
    StreamStartsWith s p (codeBits c) ↔ ∀ i, i < c.len → streamBit s (p + i) = c.code.testBit (c.len - 1 - i) := by
  rw [StreamStartsWith, codeBits_length]
  refine forall₂_congr fun i hi => ?_
  rw [codeBits, List.getElem?_map, List.getElem?_range hi, Option.map_some, Option.some_inj, eq_comm]

/-- A stream that starts with two lists one after the other. -/
theorem StreamStartsWith.split {s : State} {p : Nat} {a b : List Bool} (h : StreamStartsWith s p (a ++ b)) :
    StreamStartsWith s p a ∧ StreamStartsWith s (p + a.length) b := by
  refine ⟨fun i hi => ?_, fun i hi => ?_⟩
  · rw [← h i (by rw [List.length_append]; omega), List.getElem?_append_left hi]
  · rw [Nat.add_assoc, ← h (a.length + i) (by rw [List.length_append]; omega),
      List.getElem?_append_right (Nat.le_add_right ..), Nat.add_sub_cancel_left]

/-- A peeked value starts with the reversal of the code the stream holds, whatever bits follow (43_decode.md R165). -/
theorem streamValue_mod_of_codeBits {s : State} {p n : Nat} {c : Code} (hn : c.len ≤ n)
    (h : ∀ i, i < c.len → streamBit s (p + i) = c.code.testBit (c.len - 1 - i)) :
    streamValue s p n % 2 ^ c.len = bitrev c.code c.len := by
  refine Nat.eq_of_testBit_eq fun i => ?_
  rw [Nat.testBit_mod_two_pow, streamValue_testBit, bitrev_testBit]
  by_cases hi : i < c.len
  · rw [h i hi, decide_eq_true (hi.trans_le hn), Bool.true_and]
  · rw [decide_eq_false hi, Bool.false_and, Bool.false_and]

/-- No code is longer than MAXLEN (42_build.md R143). -/
theorem BuiltSlot.len_le_maxLen {s : State} {slot : BitVec 4} {m : CodeLengths} {cnt : Nat} {c : Code}
    (hb : BuiltSlot s slot m cnt) (h2 : 2 ≤ (presentLengths m cnt).length)
    (hc : c ∈ canonicalCodes (presentLengths m cnt)) : c.len ≤ (slotAt s slot.toNat).table.maxLen.toNat := by
  obtain ⟨-, -, ht⟩ := hb.split h2
  have hok := presentLengths_ok m cnt
  rw [ht]
  exact (splitTable_maxLen hok).1 _ (canonicalCodes_sym_len hok hc).1

/-- Settles O31: the peeked value starts with the reversed code, so the lookup answers its leaf. -/
theorem decodeReturnsTheCodedSymbol : Obligations.DecodeReturnsTheCodedSymbol := by
  intro s slot m cnt c hb h2 hc hs hr hbits hend
  obtain ⟨-, ok, ht⟩ := hb.split h2
  obtain ⟨-, -, hlen, hrev⟩ := canonicalCodes_sym_len (presentLengths_ok m cnt) hc
  obtain ⟨hu, hln, hsym⟩ := leafEntry_kind (hb.sym_lt hc) hlen
  have hstart : streamValue s s.pos.toNat (slotAt s slot.toNat).table.maxLen.toNat % 2 ^ c.len = c.rev :=
    (streamValue_mod_of_codeBits (hb.len_le_maxLen h2 hc) hbits).trans hrev.symm
  have hleaf : lookupEntry (slotAt s slot.toNat).table
      (streamValue s s.pos.toNat (slotAt s slot.toNat).table.maxLen.toNat) = leafEntry c :=
    (congrArg (lookupEntry · _) ht).trans (lookupEntry_splitTable ok hc hstart)
  have hp : s.pos.toNat + (entryLn (leafEntry c)).toNat ≤ streamBits s := hln.symm ▸ hend
  refine ⟨_, execDecode_completes (decide_eq_true hb.slot_ok) hb.valid hs hr hleaf hu hp, ?result, rfl, ?pos, rfl⟩
  case result => exact (BitVec.toNat_setWidth_of_le (by decide)).trans hsym
  case pos =>
    have hl := s.len.isLt
    dsimp only
    rw [hln, BitVec.toNat_ofNat, Nat.mod_eq_of_lt (by omega)]

/-! ### Trivial tables -/

/-- Settles O32: MAXLEN 0 peeks no bit, and the leaf of every main entry has length 0. -/
theorem trivialDecodeConsumesNothing : Obligations.TrivialDecodeConsumesNothing := by
  rintro s slot s0 h1 h2 ⟨hmax, -, hmain⟩ hne
  have hslot : slotOk s slot = true := decide_eq_true h1
  refine ⟨fun hs hp => ?completes, execDecode_of_sfail hslot h2⟩
  have hsym : entrySym (s0 ++ 0#4) = s0 := BitVec.extractLsb'_append_eq_left
  have hln : entryLn (s0 ++ 0#4) = 0 := BitVec.extractLsb'_append_eq_right
  have hr : Readable s s.pos.toNat (slotAt s slot.toNat).table.maxLen.toNat := fun j hle hlt => by
    rw [hmax] at hlt
    exact absurd hlt (not_lt.2 hle)
  have hleaf := lookupEntry_of_direct
    (x := streamValue s s.pos.toNat (slotAt s slot.toNat).table.maxLen.toNat) (hmain _) (hln ▸ by decide)
  have hanswer := execDecode_completes hslot h2 hs hr hleaf (hsym.symm ▸ hne) (hln.symm ▸ hp)
  have hpos : BitVec.ofNat 32 (s.pos.toNat + (0 : BitVec 4).toNat) = s.pos := by simp
  rw [hsym, hln, hpos] at hanswer
  exact ⟨_, _, hanswer⟩

/-! ### The round trip -/

/-- A state in which a message is to be decoded: the slot's table is built, the stream has not failed and is readable, and
the codes of the message stand at POS, inside the stream (43_decode.md R167). -/
structure MessageAtPos (slot : BitVec 4) (m : CodeLengths) (cnt : Nat) (msg : List Code) (s : State) : Prop where
  built : BuiltSlot s slot m cnt
  not_failed : s.sfail = false
  readable : Readable s s.pos.toNat (8 * s.len.toNat - s.pos.toNat)
  starts : StreamStartsWith s s.pos.toNat (msg.flatMap codeBits)
  in_stream : s.pos.toNat + (msg.flatMap codeBits).length ≤ 8 * s.len.toNat

/-- A stream that is readable to its end is readable for any number of bits: the bits past the end are padding
(20_memory.md R65). -/
theorem Readable.of_to_end {s : State} {p : Nat} (h : Readable s p (8 * s.len.toNat - p)) (n : Nat) : Readable s p n :=
  fun j h1 _ h3 => h j h1 (by rw [streamBits] at h3; omega) h3

section message

variable {slot : BitVec 4} {m : CodeLengths} {cnt : Nat} (h2 : 2 ≤ (presentLengths m cnt).length)
include h2

/-- One DECODE takes the first symbol of the message and leaves the rest of it at POS (R165). -/
theorem MessageAtPos.decode {c : Code} {msg : List Code} {s : State} (h : MessageAtPos slot m cnt (c :: msg) s)
    (hc : c ∈ canonicalCodes (presentLengths m cnt)) :
    ∃ u, exec (.decode slot) s = .next u ∧ u.result.toNat = c.sym ∧ u.lastErr = .ok ∧
      u.pos.toNat = s.pos.toNat + c.len ∧ MessageAtPos slot m cnt msg u := by
  obtain ⟨hb, hs, hr, hstarts, hend⟩ := h
  rw [List.flatMap_cons] at hstarts hend
  rw [List.length_append, codeBits_length] at hend
  obtain ⟨hfirst, hrest⟩ := hstarts.split
  obtain ⟨u, hu, hresult, hok, hpos, hframe⟩ := decodeReturnsTheCodedSymbol s slot m cnt c hb h2 hc hs (hr.of_to_end _)
    (streamStartsWith_codeBits.1 hfirst) (by omega)
  have hlen : u.len = s.len := by rw [hframe]
  have hstream : u.stream = s.stream := by rw [hframe]
  have hstale : u.stale = s.stale := by rw [hframe]
  refine ⟨u, hu, hresult, hok, hpos, ?built, ?not_failed, ?readable, ?starts, ?in_stream⟩
  case built => rw [hframe]; exact ⟨hb.slot_ok, hb.valid, hb.count_le, hb.table⟩
  case not_failed => rw [hframe]; exact hs
  case readable =>
    rw [hpos, hlen]
    exact (hr.mono (Nat.le_add_right ..) (by omega)).congr hlen.symm hstream.symm hstale.symm
  case starts =>
    intro i hi
    rw [hpos, streamBit_congr hlen hstream]
    exact codeBits_length c ▸ hrest i hi
  case in_stream => rw [hpos, hlen]; omega

/-- A message at POS is what as many DECODEs return, and POS ends behind it (R167). -/
theorem MessageAtPos.decodesTo {msg : List Code} (hmsg : ∀ c ∈ msg, c ∈ canonicalCodes (presentLengths m cnt))
    {s : State} (h : MessageAtPos slot m cnt msg s) :
    ∃ t, DecodesTo slot (msg.map Code.sym) s t ∧ t.pos.toNat = s.pos.toNat + (msg.map Code.len).sum := by
  induction msg generalizing s with
  | nil => exact ⟨s, rfl, rfl⟩
  | cons c msg ih =>
    obtain ⟨hc, hmsg⟩ := List.forall_mem_cons.1 hmsg
    obtain ⟨u, hu, hresult, hok, hpos, hrest⟩ := h.decode h2 hc
    obtain ⟨t, ht, hend⟩ := ih hmsg hrest
    refine ⟨t, ⟨u, hu, hresult, hok, ht⟩, ?_⟩
    rw [hend, hpos, List.map_cons, List.sum_cons, Nat.add_assoc]

end message

/-- Settles O33: by induction on the message, each DECODE leaving the rest of it at POS. -/
theorem roundTripReproducesTheMessage : Obligations.RoundTripReproducesTheMessage :=
  fun _ _ _ _ _ hb h2 hmsg hs hr hstarts hend => MessageAtPos.decodesTo h2 hmsg ⟨hb, hs, hr, hstarts, hend⟩

end Sys2Proof.Machine

/-! PROOFS of the statements about inspection (44_inspect.md): the entry RDMAIN and RDSUB return, and TINFO's summary. -/

namespace Sys2Proof.Machine

open Sys2Proof

/-- A SLOT in range passes the check every command of this family begins with (30_encoding.md R85). -/
theorem slot_in_range {slot : BitVec 4} {s : State} (h : slot.toNat < s.config.numSlots) : ¬ (!slotOk s slot) = true := by
  simp [slotOk, h]

/-! ### RDMAIN -/

/-- Settles O35: the words go through the check of the reserved bits, and each case is the branch its premises select. -/
theorem rdmainReadsAMainEntry : Obligations.RdmainReadsAMainEntry := by
  refine ⟨fun w s h => ?words, fun slot idx s => ⟨fun h1 => ?illegal, fun h1 h2 => ?invalid, fun h1 h2 => ?completes⟩⟩
  case words =>
    have hop : (opField w).toNat = 7 := (opField_toNat w).trans h
    exact runCommand_whenReserved 8 (by simp only [decode, hop, slotField]) s
  case illegal => exact exec_of_not_wf (decide_eq_false (not_lt.2 h1))
  case invalid => exact (if_neg (slot_in_range h1)).trans (if_pos (by simp [h2]))
  case completes => exact (if_neg (slot_in_range h1)).trans (if_neg (by simp [h2]))

/-! ### RDSUB -/

/-- RDSUB of a valid slot answers RANGE or the entry, by SUB and IDX alone (R181). -/
theorem execRdsub_of_valid {slot : BitVec 4} {s : State} (h1 : slot.toNat < s.config.numSlots)
    (h2 : (slotAt s slot.toNat).valid = true) (sub : BitVec 8) (idx : BitVec 7) :
    execRdsub slot sub idx s =
      if (slotAt s slot.toNat).table.nsub ≤ sub.toNat ∨ 2 ^ subBitsAt (slotAt s slot.toNat).table sub.toNat ≤ idx.toNat
      then .next (raise .range s)
      else .next (finish ((subAt (slotAt s slot.toNat).table sub.toNat idx.toNat).setWidth 32) .ok s) :=
  (if_neg (slot_in_range h1)).trans (if_neg (by simp [h2]))

/-- Settles O36: the words go through the check of the reserved bits, each case is the branch its premises select, and
a table without long codes has no subtable for SUB to name. -/
theorem rdsubReadsASubtableEntry : Obligations.RdsubReadsASubtableEntry := by
  refine ⟨fun w s h => ?words, ?_⟩
  case words =>
    have hop : (opField w).toNat = 8 := (opField_toNat w).trans h
    exact runCommand_whenReserved 15 (by simp only [decode, hop, slotField]) s
  intro slot sub idx s t
  refine ⟨fun h1 => ?illegal, fun h1 h2 => ?invalid, fun h1 h2 h => (execRdsub_of_valid h1 h2 sub idx).trans (if_pos h),
    fun h1 h2 hsub hidx => ?completes, fun h1 h2 hinv hmax => ?noSubtable⟩
  case illegal => exact exec_of_not_wf (decide_eq_false (not_lt.2 h1))
  case invalid => exact (if_neg (slot_in_range h1)).trans (if_pos (by simp [h2]))
  case completes =>
    exact (execRdsub_of_valid h1 h2 sub idx).trans (if_neg (not_or.2 ⟨not_le.2 hsub, not_le.2 hidx⟩))
  case noSubtable =>
    have hnone : t.nsub = 0 := hinv.nsub_eq_zero hmax
    exact ⟨hnone, (execRdsub_of_valid h1 h2 sub idx).trans (if_pos (.inl (hnone.le.trans (Nat.zero_le _))))⟩

/-! ### TINFO -/

/-- The fields of the summary add up, NSUB fitting its nine bits (R182). -/
theorem summaryWord_eq_ofNat {t : Table} (h : t.nsub ≤ 256) :
    summaryWord t = BitVec.ofNat 32 (2 ^ 16 + t.nsub * 2 ^ 4 + t.maxLen.toNat) := by
  apply BitVec.eq_of_toNat_eq
  have hmax := t.maxLen.isLt
  simp only [summaryWord, toNat_append_eq, BitVec.toNat_ofNat]
  omega

/-- Settles O37: the words go through the check of the reserved bits, and a valid slot's summary is
`summaryWord_eq_ofNat`. -/
theorem tinfoReadsTheSummary : Obligations.TinfoReadsTheSummary := by
  refine ⟨fun w s h => ?words, fun slot s => ⟨fun h1 => ?illegal, fun h1 h2 => ?invalid, fun h1 h2 hn => ?valid⟩⟩
  case words =>
    have hop : (opField w).toNat = 9 := (opField_toNat w).trans h
    have hwords := runCommand_whenReserved (w := w) 0 (n := 24) (i := .tinfo (w.extractLsb' 24 4))
      (by simp only [decode, hop, slotField]) s
    rwa [Nat.pow_zero, Nat.div_one] at hwords
  case illegal => exact exec_of_not_wf (decide_eq_false (not_lt.2 h1))
  case invalid => exact (if_neg (slot_in_range h1)).trans (if_neg (by simp [h2]))
  case valid =>
    rw [← summaryWord_eq_ofNat hn]
    exact (if_neg (slot_in_range h1)).trans (if_pos h2)

end Sys2Proof.Machine

/-! PROOFS of the statements about errors (60_exceptions.md): what a failing command leaves, who clears the sticky bits,
what a failed stream gates, the ghost bits, and RESULT and LASTERR before a command. -/

namespace Sys2Proof.Machine

open Sys2Proof

/-! ### ILLEGAL_CMD -/

/-- A command that ends with ILLEGAL_CMD has a field out of range (R204, 30_encoding.md R84 (c)). -/
theorem exec_illegalCmd {i : Instr} {s t : State} (h : exec i s = .next t) (ht : t.lastErr = .illegalCmd) :
    i.wf s.config = false ∧ t = illegalResult s := by
  have hwf : i.wf s.config = false := Bool.eq_false_iff.2 fun hw => lastErr_ne_illegalCmd_of_wf hw h ht
  exact ⟨hwf, next_inj ((exec_of_not_wf hwf).symm.trans h)⟩

/-- Settles O9: a word that decodes runs a command, and one that does not raises ILLEGAL_CMD itself. -/
theorem illegalCommandChangesNothingElse : Obligations.IllegalCommandChangesNothingElse := by
  refine ⟨fun w s t h ht => ?word, fun i s t => exec_illegalCmd⟩
  rcases runCommand_next h with ⟨i, -, hi⟩ | ⟨-, rfl⟩
  · exact (exec_illegalCmd hi ht).2
  · exact raise_illegalCmd s

/-! ### How a command ends -/

/-- Everything `raise` does, with the sticky bits as R201's column "sets" has them. -/
theorem raise_eq (e : ErrorCode) (s : State) : raise e s = { s with
    result := 0xFFFFFFFF#32, lastErr := e,
    sfail := s.sfail || decide (e = .eos ∨ e = .invalidCode),
    seenEos := s.seenEos || decide (e = .eos),
    seenInvalid := s.seenInvalid || decide (e = .invalidCode) } := by
  by_cases he : e = .eos
  · subst he; simp [raise_eos]
  · by_cases hi : e = .invalidCode
    · subst hi; simp [raise_invalidCode]
    · simp [raise_plain he hi, he, hi]

/-- The inspection commands raise an error or finish with a value, and do nothing else (44_inspect.md). -/
theorem execRdmain_ends {slot : BitVec 4} {idx : BitVec 8} {s t : State} (h : execRdmain slot idx s = .next t) :
    (∃ e, t = raise e s) ∨ ∃ v, t = finish v .ok s := by
  unfold execRdmain at h
  split at h
  · exact .inl ⟨_, next_inj h⟩
  · split at h
    · exact .inl ⟨_, next_inj h⟩
    · exact .inr ⟨_, next_inj h⟩

theorem execRdsub_ends {slot : BitVec 4} {sub : BitVec 8} {idx : BitVec 7} {s t : State}
    (h : execRdsub slot sub idx s = .next t) : (∃ e, t = raise e s) ∨ ∃ v, t = finish v .ok s := by
  unfold execRdsub at h
  dsimp only at h
  split at h
  · exact .inl ⟨_, next_inj h⟩
  · split at h
    · exact .inl ⟨_, next_inj h⟩
    · split at h
      · exact .inl ⟨_, next_inj h⟩
      · exact .inr ⟨_, next_inj h⟩

theorem execTinfo_ends {slot : BitVec 4} {s t : State} (h : execTinfo slot s = .next t) :
    (∃ e, t = raise e s) ∨ ∃ v, t = finish v .ok s := by
  unfold execTinfo at h
  split at h
  · exact .inl ⟨_, next_inj h⟩
  · split at h <;> exact .inr ⟨_, next_inj h⟩

/-- The sticky bits of two states are the same (10_state.md R25). -/
structure SameSticky (s t : State) : Prop where
  sfail : t.sfail = s.sfail
  seenEos : t.seenEos = s.seenEos
  seenInvalid : t.seenInvalid = s.seenInvalid

theorem finish_consume_sameSticky (v : Word) (e : ErrorCode) (n : Nat) (s : State) :
    SameSticky s (finish v e (consume n s)) :=
  ⟨consume_sfail n s, consume_seenEos n s, consume_seenInvalid n s⟩

/-- Every command ends in one of four ways: it raises an error and does nothing else, it is an accepted STREAM, it is a
BUILD, or it completes; the last two leave the sticky bits (R202, R207). -/
theorem exec_ends {i : Instr} {s t : State} (h : exec i s = .next t) :
    (∃ e, t = raise e s) ∨
    (∃ len, i = .stream len ∧ lenOk s len = true ∧ t.lastErr = .ok) ∨
    (SameSticky s t ∧ ((∃ slot cnt, i = .build slot cnt) ∨ t.lastErr = .ok)) := by
  have completes {v : Word} {u : State} (hu : t = finish v .ok u) (hs : SameSticky s u) :
      SameSticky s t ∧ ((∃ slot cnt, i = .build slot cnt) ∨ t.lastErr = .ok) :=
    hu ▸ ⟨⟨hs.sfail, hs.seenEos, hs.seenInvalid⟩, .inr rfl⟩
  cases i with
  | nop => exact .inr (.inr (completes (next_inj h) ⟨rfl, rfl, rfl⟩))
  | stream len =>
    rcases execStream_next h with ⟨hl, rfl⟩ | ⟨-, ht⟩
    · exact .inr (.inl ⟨len, rfl, hl, rfl⟩)
    · exact .inl ⟨_, ht⟩
  | readbits n =>
    rcases execReadbits_next h with ⟨-, ht⟩ | ⟨-, -, ht⟩ | ⟨-, -, -, ht⟩ | ⟨-, -, -, -, rfl⟩
    · exact .inl ⟨_, ht⟩
    · exact .inl ⟨_, ht⟩
    · exact .inl ⟨_, ht⟩
    · exact .inr (.inr ⟨finish_consume_sameSticky _ _ _ s, .inr rfl⟩)
  | setcl sym cl =>
    rcases execSetcl_next h with ⟨-, ht⟩ | ⟨-, ht⟩
    · exact .inr (.inr (completes ht ⟨rfl, rfl, rfl⟩))
    · exact .inl ⟨_, ht⟩
  | clrcl => exact .inr (.inr (completes (next_inj h) ⟨rfl, rfl, rfl⟩))
  | build slot cnt =>
    have ht := (execBuild_frame h).1
    exact .inr (.inr ⟨ht ▸ ⟨rfl, rfl, rfl⟩, .inl ⟨slot, cnt, rfl⟩⟩)
  | decode slot =>
    rcases execDecode_next h with ⟨-, ht⟩ | ⟨-, -, ht⟩ | ⟨-, -, -, ht⟩ |
      ⟨-, -, -, -, ⟨-, ht⟩ | ⟨-, -, ht⟩ | ⟨-, -, rfl⟩⟩
    · exact .inl ⟨_, ht⟩
    · exact .inl ⟨_, ht⟩
    · exact .inl ⟨_, ht⟩
    · exact .inl ⟨_, ht⟩
    · exact .inl ⟨_, ht⟩
    · exact .inr (.inr ⟨finish_consume_sameSticky _ _ _ s, .inr rfl⟩)
  | rdmain slot idx => exact (execRdmain_ends h).imp_right fun ⟨_, ht⟩ => .inr (completes ht ⟨rfl, rfl, rfl⟩)
  | rdsub slot sub idx => exact (execRdsub_ends h).imp_right fun ⟨_, ht⟩ => .inr (completes ht ⟨rfl, rfl, rfl⟩)
  | tinfo slot => exact (execTinfo_ends h).imp_right fun ⟨_, ht⟩ => .inr (completes ht ⟨rfl, rfl, rfl⟩)

/-- Settles O40: a failing command other than BUILD ends with `raise`, whose effect is `raise_eq`. -/
theorem errorsSetTheirStickyBits : Obligations.ErrorsSetTheirStickyBits := by
  intro i s t h hbuild hok
  rcases exec_ends h with ⟨e, rfl⟩ | ⟨-, -, -, ht⟩ | ⟨-, ⟨slot, cnt, hi⟩ | ht⟩
  · rw [raise_lastErr]; exact raise_eq e s
  · exact absurd ht hok
  · exact absurd hi (hbuild slot cnt)
  · exact absurd ht hok

/-! ### Clearing the sticky bits -/

/-- One of the sticky bits goes from 1 to 0 (R207). -/
def ClearsSticky (s t : State) : Prop :=
  (s.sfail = true ∧ t.sfail = false) ∨ (s.seenEos = true ∧ t.seenEos = false) ∨
    (s.seenInvalid = true ∧ t.seenInvalid = false)

theorem SameSticky.not_clears {s t : State} (h : SameSticky s t) : ¬ ClearsSticky s t := by
  simp [ClearsSticky, h.sfail, h.seenEos, h.seenInvalid]

/-- An error only sets sticky bits (R201). -/
theorem raise_not_clears (e : ErrorCode) (s : State) : ¬ ClearsSticky s (raise e s) := by
  rw [raise_eq, ClearsSticky]
  simp +contextual

/-- A command that clears a sticky bit is an accepted STREAM (R207). -/
theorem exec_clears {i : Instr} {s t : State} (h : exec i s = .next t) (hc : ClearsSticky s t) :
    ∃ len, i = .stream len ∧ len.toNat ≤ s.config.streamBytes := by
  rcases exec_ends h with ⟨e, rfl⟩ | ⟨len, hi, hl, -⟩ | ⟨hs, -⟩
  · exact absurd hc (raise_not_clears e s)
  · exact ⟨len, hi, of_decide_eq_true hl⟩
  · exact absurd hc hs.not_clears

/-- An event that clears a sticky bit is a reset or the write of an accepted STREAM (R207). -/
theorem takeEvent_clears {e : Event} {s t : State} (h : takeEvent e s = .next t) (hc : ClearsSticky s t) :
    e = .reset ∨ ∃ (w : Word) (len : BitVec 28), e = .access false (.write 0 4 w) ∧
      decode w = .ok (.stream len) ∧ len.toNat ≤ s.config.streamBytes := by
  rcases takeEvent_next h with ⟨hr, -⟩ | ⟨n, -, rfl⟩ | ⟨a, b, d, -, rfl⟩ | ⟨w, hw, hrun⟩ |
    ⟨a, b, v, -, -, ⟨i, rfl⟩ | rfl⟩
  · exact .inl hr
  · exact absurd hc (SameSticky.not_clears ⟨refill_sfail s n, refill_seenEos s n, refill_seenInvalid s n⟩)
  · exact absurd hc (SameSticky.not_clears ⟨rfl, rfl, rfl⟩)
  · rcases runCommand_next hrun with ⟨i, hd, hi⟩ | ⟨-, rfl⟩
    · obtain ⟨len, rfl, hl⟩ := exec_clears hi hc
      exact .inr ⟨w, len, hw, hd, hl⟩
    · exact absurd hc (raise_not_clears _ s)
  · exact absurd hc (SameSticky.not_clears
      ⟨writeStreamWord_sfail i v s, writeStreamWord_seenEos i v s, writeStreamWord_seenInvalid i v s⟩)
  · exact absurd hc (SameSticky.not_clears ⟨rfl, rfl, rfl⟩)

/-- Settles O42: the step takes the event, and taking it off the list touches no sticky bit. -/
theorem onlyStreamAndResetClearStickyBits : Obligations.OnlyStreamAndResetClearStickyBits := by
  intro s t e rest he h hc
  rw [step_of_events he] at h
  exact takeEvent_clears (s := { s with events := rest }) h hc

/-! ### A failed stream -/

/-- The state with SFAIL = 1. -/
def failStream (s : State) : State := { s with sfail := true }

/-- Two outcomes are the same next state, SFAIL apart. -/
def AgreeOnceFailed (o o' : Host.Outcome State Fault Refusal) : Prop := ∀ t, o = .next t → o' = .next (failStream t)

theorem agreeOnceFailed_next {t t' : State} (h : t' = failStream t) : AgreeOnceFailed (.next t) (.next t') :=
  fun _ hu => by rw [h, next_inj hu]

/-- Checks that do not look at SFAIL select the same branch. -/
theorem agreeOnceFailed_ite {p : Prop} [Decidable p] {a b a' b' : Host.Outcome State Fault Refusal}
    (ha : AgreeOnceFailed a a') (hb : AgreeOnceFailed b b') :
    AgreeOnceFailed (if p then a else b) (if p then a' else b') := by
  split
  · exact ha
  · exact hb

section failed

variable (s : State)

theorem raise_onceFailed (e : ErrorCode) : AgreeOnceFailed (.next (raise e s)) (.next (raise e (failStream s))) :=
  agreeOnceFailed_next (by cases e <;> rfl)

theorem finish_onceFailed (v : Word) (e : ErrorCode) :
    AgreeOnceFailed (.next (finish v e s)) (.next (finish v e (failStream s))) :=
  agreeOnceFailed_next rfl

theorem execBuild_onceFailed (slot : BitVec 4) (cnt : BitVec 13) :
    AgreeOnceFailed (execBuild slot cnt s) (execBuild slot cnt (failStream s)) := by
  refine agreeOnceFailed_ite ?_ (raise_onceFailed s _)
  have hlengths : buildTable (failStream s).config.pIncomplete (presentLengths (failStream s).clmem cnt.toNat) =
    buildTable s.config.pIncomplete (presentLengths s.clmem cnt.toNat) := rfl
  rw [hlengths]
  cases buildTable s.config.pIncomplete (presentLengths s.clmem cnt.toNat) with
  | error e => exact raise_onceFailed (invalidateSlot s slot.toNat) e
  | ok tbl => exact finish_onceFailed (installTable s slot.toNat tbl) _ _

/-- The commands other than STREAM that read no stream work on a failed one as they do otherwise (R206). -/
theorem exec_onceFailed {i : Instr} (hstream : ∀ len, i ≠ .stream len) (hread : ∀ n, i ≠ .readbits n)
    (hdecode : ∀ slot, i ≠ .decode slot) : AgreeOnceFailed (exec i s) (exec i (failStream s)) := by
  cases i with
  | nop => exact finish_onceFailed s _ _
  | stream len => exact absurd rfl (hstream len)
  | readbits n => exact absurd rfl (hread n)
  | setcl sym cl =>
    exact agreeOnceFailed_ite (finish_onceFailed { s with clmem := clWrite s.clmem sym.toNat cl } _ _)
      (raise_onceFailed s _)
  | clrcl => exact finish_onceFailed { s with clmem := [] } _ _
  | build slot cnt => exact execBuild_onceFailed s slot cnt
  | decode slot => exact absurd rfl (hdecode slot)
  | rdmain slot idx =>
    exact agreeOnceFailed_ite (raise_onceFailed s _)
      (agreeOnceFailed_ite (raise_onceFailed s _) (finish_onceFailed s _ _))
  | rdsub slot sub idx =>
    exact agreeOnceFailed_ite (raise_onceFailed s _) (agreeOnceFailed_ite (raise_onceFailed s _)
      (agreeOnceFailed_ite (raise_onceFailed s _) (finish_onceFailed s _ _)))
  | tinfo slot =>
    exact agreeOnceFailed_ite (raise_onceFailed s _)
      (agreeOnceFailed_ite (finish_onceFailed s _ _) (finish_onceFailed s _ _))

end failed

/-- READBITS of a failed stream (R206, 40_bitreader.md R105). -/
theorem execReadbits_of_sfail {n : BitVec 5} {s : State} (hn : n ≠ 0) (hs : s.sfail = true) :
    execReadbits n s = .next (raise .streamFailed s) := by
  rw [execReadbits, if_neg hn, if_pos hs]

/-- Settles O41: the gate is the check of SFAIL in READBITS and DECODE, which no other command makes. -/
theorem failedStreamGatesReads : Obligations.FailedStreamGatesReads :=
  ⟨fun _ _ => execReadbits_of_sfail, fun _ _ h1 => execDecode_of_sfail (decide_eq_true h1),
    fun _ s t hstream hread hdecode => exec_onceFailed s hstream hread hdecode t⟩

/-! ### The ghost bits -/

/-- No event that answers a next state touches the ghost bits or the parameters (R210, R211). -/
theorem takeEvent_keeps {e : Event} {s t : State} (h : takeEvent e s = .next t) :
    t.faulted = s.faulted ∧ t.refused = s.refused ∧ t.config = s.config := by
  rcases takeEvent_next h with ⟨-, rfl⟩ | ⟨n, -, rfl⟩ | ⟨a, b, d, -, rfl⟩ | ⟨w, -, hw⟩ |
    ⟨a, b, v, -, -, ⟨i, rfl⟩ | rfl⟩
  · exact ⟨rfl, rfl, rfl⟩
  · exact ⟨refill_faulted s n, refill_refused s n, refill_config s n⟩
  · exact ⟨rfl, rfl, rfl⟩
  · rcases runCommand_next hw with ⟨i, -, hi⟩ | ⟨-, rfl⟩
    · obtain ⟨hconfig, -, hfaulted, hrefused, -, -⟩ := exec_keeps hi
      exact ⟨hfaulted, hrefused, hconfig⟩
    · exact ⟨rfl, rfl, rfl⟩
  · exact ⟨writeStreamWord_faulted i v s, writeStreamWord_refused i v s, writeStreamWord_config i v s⟩
  · exact ⟨rfl, rfl, rfl⟩

theorem step_keeps {s t : State} (h : step s = .next t) :
    t.faulted = s.faulted ∧ t.refused = s.refused ∧ t.config = s.config := by
  cases he : s.events with
  | nil =>
    rw [step_of_idle he] at h
    exact next_inj h ▸ ⟨rfl, rfl, rfl⟩
  | cons e rest =>
    rw [step_of_events he] at h
    exact takeEvent_keeps (s := { s with events := rest }) h

/-- Settles O53: a step that answers keeps the ghost bits, and `recordStop` sets the one of the stop. -/
theorem ghostBitsRecordTheStops : Obligations.GhostBitsRecordTheStops := by
  refine fun s => ⟨fun t h => ⟨?next, step_keeps h⟩, fun f h => ?fault, fun r h => ?refusal⟩
  all_goals rw [recordedStep, h]
  case next => rfl
  case fault => exact ⟨rfl, rfl⟩
  case refusal => exact ⟨rfl, rfl⟩

/-! ### RESULT and LASTERR before a command -/

section overwritten

variable (v : Word) (e : ErrorCode) (s : State)

/-- Peek does not look at RESULT and LASTERR. -/
theorem peek_finish (p n : Nat) : peek (finish v e s) p n = peek s p n :=
  peek_congr (s := finish v e s) (t := s) rfl rfl rfl p n

theorem raise_finish (e' : ErrorCode) : raise e' (finish v e s) = raise e' s := by
  cases e' <;> rfl

/-- Consume carries RESULT and LASTERR along. -/
theorem consume_finish (n : Nat) : consume n (finish v e s) = finish v e (consume n s) := by
  simp only [consume, refill_loads]
  rfl

theorem finish_consume_finish (v' : Word) (e' : ErrorCode) (n : Nat) :
    finish v' e' (consume n (finish v e s)) = finish v' e' (consume n s) := by
  rw [consume_finish]; rfl

theorem execReadbits_finish (n : BitVec 5) : execReadbits n (finish v e s) = execReadbits n s := by
  simp only [execReadbits, raise_finish, peek_finish, finish_consume_finish]
  rfl

theorem execDecode_finish (slot : BitVec 4) : execDecode slot (finish v e s) = execDecode slot s := by
  simp only [execDecode, slotAt_finish, raise_finish, peek_finish, finish_consume_finish]
  rfl

theorem execBuild_finish (slot : BitVec 4) (cnt : BitVec 13) :
    execBuild slot cnt (finish v e s) = execBuild slot cnt s := by
  have hinvalid : invalidateSlot (finish v e s) slot.toNat = finish v e (invalidateSlot s slot.toNat) := rfl
  simp only [execBuild, hinvalid, raise_finish]
  rfl

/-- Every command writes RESULT and LASTERR and reads neither (R203). -/
theorem exec_finish (i : Instr) : exec i (finish v e s) = exec i s := by
  cases i with
  | nop | stream | setcl | clrcl | rdmain | rdsub | tinfo => rfl
  | readbits n => exact execReadbits_finish v e s n
  | build slot cnt => exact execBuild_finish v e s slot cnt
  | decode slot => exact execDecode_finish v e s slot

end overwritten

/-- Settles O39: writing RESULT and LASTERR is `finish`, which every command overwrites. -/
theorem resultDescribesTheLastCommand : Obligations.ResultDescribesTheLastCommand := fun i s v e => exec_finish v e s i

end Sys2Proof.Machine

/-! PROOFS of the statements about reset and hazards (70_reset_and_hazards.md): the progress of READBITS and DECODE, stale
bytes, and what changes a slot. -/

namespace Sys2Proof.Machine

open Sys2Proof

/-! ### Progress of READBITS and DECODE -/

/-- Where every leaf has a positive length, so has every occupied entry (10_state.md R31). -/
theorem LeafOrUnoccupied.one_le_ln {lo hi : Nat} {e : Entry} (h : LeafOrUnoccupied lo hi e) (hlo : 1 ≤ lo)
    (hocc : entrySym e ≠ unoccupiedSym) : 1 ≤ (entryLn e).toNat := by
  rcases h with rfl | ⟨-, hle, -⟩
  · exact absurd entrySym_unoccupied hocc
  · exact hlo.trans hle

/-- An occupied entry read from a subtable has a length of at least 1, as one past the subtable's end is unoccupied
(10_state.md R31). -/
theorem Table.Inv.one_le_subAt_ln {t : Table} (h : t.Inv) {k i : Nat} (hocc : entrySym (subAt t k i) ≠ unoccupiedSym) :
    1 ≤ (entryLn (subAt t k i)).toNat := by
  rw [subAt] at hocc ⊢
  cases hu : t.subs[k]? with
  | none => exact absurd entrySym_unoccupied (by rwa [hu] at hocc)
  | some u =>
    rw [hu] at hocc
    dsimp only at hocc ⊢
    rw [List.getD_eq_getElem?_getD] at hocc ⊢
    cases he : u.entries[i]? with
    | none => exact absurd entrySym_unoccupied (by rwa [he] at hocc)
    | some e =>
      rw [he] at hocc
      have hkind := (h.subs u (List.mem_of_getElem? hu)).kinds e (List.mem_of_getElem? he)
      exact hkind.one_le_ln (by decide) hocc

/-- An indirect main entry sends the lookup to its subtable (43_decode.md R162). -/
theorem lookupEntry_of_indirect {t : Table} {x : Nat} (h : entryLn (mainAt t (BitVec.ofNat 8 x)) = indirectLen) :
    lookupEntry t x = subAt t (entrySym (mainAt t (BitVec.ofNat 8 x))).toNat
      (x / mainSize % 2 ^ subBitsAt t (entrySym (mainAt t (BitVec.ofNat 8 x))).toNat) := by
  rw [lookupEntry]
  exact if_pos h

/-- A lookup in a table that is not trivial finds no occupied entry of length 0 (43_decode.md R161, R162). -/
theorem Table.Inv.one_le_lookupEntry_ln {t : Table} (h : t.Inv) (hmax : t.maxLen ≠ 0) {x : Nat}
    (hocc : entrySym (lookupEntry t x) ≠ unoccupiedSym) : 1 ≤ (entryLn (lookupEntry t x)).toNat := by
  by_cases hind : entryLn (mainAt t (BitVec.ofNat 8 x)) = indirectLen
  · rw [lookupEntry_of_indirect hind] at hocc ⊢
    exact h.one_le_subAt_ln hocc
  · rw [lookupEntry_of_direct rfl hind] at hocc ⊢
    rcases h.main hmax (BitVec.ofNat 8 x) with hleaf | ⟨hln, -⟩
    · exact hleaf.one_le_ln le_rfl hocc
    · exact absurd hln hind

/-- A DECODE that ends with OK found an occupied entry and consumed its length, inside the stream (43_decode.md R160,
R164). -/
theorem execDecode_ok {slot : BitVec 4} {s t : State} (h : execDecode slot s = .next t) (ht : t.lastErr = .ok) :
    ∃ x, let e := lookupEntry (slotAt s slot.toNat).table x
      entrySym e ≠ unoccupiedSym ∧ s.pos.toNat + (entryLn e).toNat ≤ streamBits s ∧
      t.pos.toNat = s.pos.toNat + (entryLn e).toNat ∧ t.len = s.len := by
  rcases execDecode_next h with ⟨-, rfl⟩ | ⟨-, -, rfl⟩ | ⟨-, -, -, rfl⟩ |
    ⟨-, -, -, -, ⟨-, rfl⟩ | ⟨-, -, rfl⟩ | ⟨hocc, hp, rfl⟩⟩
  · exact absurd ht (by simp)
  · exact absurd ht (by simp)
  · exact absurd ht (by simp)
  · exact absurd ht (by simp)
  · exact absurd ht (by simp)
  · exact ⟨_, hocc, hp, finish_consume_pos_toNat _ _ hp, by simp⟩

/-- Settles O34: POS moves by the field N of READBITS, which is not 0, and by the length of the entry DECODE looks up,
which has 4 bits and is 0 in a trivial table only. -/
theorem successfulReadsMakeProgress : Obligations.SuccessfulReadsMakeProgress := by
  refine ⟨fun n s t h ht => ?readbits, fun slot s t hinv h ht => ?decode⟩
  case readbits =>
    have read := completedRead_of_ok h ht
    have hn : n.toNat ≠ 0 := fun h0 => read.nonzero (BitVec.eq_of_toNat_eq h0)
    have hin := read.in_stream
    rw [streamBits] at hin
    rw [read.pos, read.len]
    omega
  case decode =>
    obtain ⟨x, hocc, hin, hpos, hlen⟩ := execDecode_ok h ht
    rw [streamBits] at hin
    rw [hpos, hlen]
    have hln := (entryLn (lookupEntry (slotAt s slot.toNat).table x)).isLt
    exact ⟨by omega, by omega, hin, fun hmax => Nat.add_le_add_left (hinv.one_le_lookupEntry_ln hmax hocc) _⟩

/-! ### Stale bytes -/

/-- The 8 stream bits of a written byte below LEN are its value (20_memory.md R65, R66). -/
theorem streamValue_of_byte {s : State} {j : Nat} {b : Byte} (hj : j < s.len.toNat) (hb : streamByte s j = some b) :
    streamValue s (8 * j) 8 = b.toNat := by
  refine Nat.eq_of_testBit_eq fun i => ?_
  rw [streamValue_testBit, BitVec.testBit_toNat]
  by_cases hi : i < 8
  · have hbyte : (8 * j + i) / 8 = j := by omega
    have hbit : (8 * j + i) % 8 = i := by omega
    rw [decide_eq_true hi, Bool.true_and, streamBit, if_pos (by rw [streamBits]; omega), hbyte, hbit, hb,
      Option.getD_some]
  · rw [decide_eq_false hi, Bool.false_and, BitVec.getLsbD_of_ge b i (not_lt.1 hi)]

/-- Peek of a whole byte below LEN that is written and not stale answers the byte (40_bitreader.md R101). -/
theorem peek_of_byte {s : State} {j : Nat} {b : Byte} (hj : j < s.len.toNat) (hb : streamByte s j = some b)
    (hs : isStale s j = false) : peek s (8 * j) 8 = .ok b.toNat := by
  have hr : Readable s (8 * j) 8 := fun i h1 h2 _ => by
    have hbyte : i / 8 = j := by omega
    rw [hbyte]
    exact ⟨Option.isSome_iff_exists.2 ⟨b, hb⟩, hs⟩
  rw [peek_of_readable hr, streamValue_of_byte hj hb]

/-- A Peek of at least one bit that starts in a written, stale byte below LEN is refused (R233). -/
theorem peek_of_stale {s : State} {p n : Nat} (hp : p / 8 < s.len.toNat) (hn : 1 ≤ n)
    (hw : written s (p / 8) = true) (hs : isStale s (p / 8) = true) :
    peek s p n = .error (.refuse .staleStreamByte) :=
  peek_error_of_readable le_rfl (by omega) (fun _ h1 h2 => by omega)
    (peekBit_of_stale (by rw [streamBits]; omega) hw hs)

/-- A STREAM that ends with OK sets LEN, keeps the bytes and leaves none stale (40_bitreader.md R104). -/
theorem execStream_ok {len : BitVec 28} {s t : State} (h : execStream len s = .next t) (ht : t.lastErr = .ok) :
    t.len = len ∧ t.stream = s.stream ∧ t.stale = [] := by
  rcases execStream_next h with ⟨-, rfl⟩ | ⟨-, rfl⟩
  · exact ⟨rfl, rfl, rfl⟩
  · exact absurd ht (by simp)

/-- Settles O49: the word write stores byte j and marks it stale; a STREAM keeps the byte and clears the mark. -/
theorem staleBytesAreRefusedUntilStream : Obligations.StaleBytesAreRefusedUntilStream := by
  rintro s _ v j hpos hlen hbytes rfl
  have hj : 4 * (j / 4) ≤ j ∧ j < 4 * (j / 4) + 4 := by omega
  have hbyte : streamByte (writeStreamWord (4 * (j / 4)) v s) j =
      some (v.extractLsb' (8 * (j - 4 * (j / 4))) 8) := by
    rw [streamByte_writeStreamWord, if_pos ⟨hj.1, hj.2, hbytes⟩]
  refine ⟨fun p n hp hn => ?stale, fun len u hl hu hok => ?stream⟩
  case stale =>
    subst hp
    refine peek_of_stale (by rwa [writeStreamWord_len]) hn (Option.isSome_iff_exists.2 ⟨_, hbyte⟩) ?_
    rw [isStale_writeStreamWord, decide_eq_true ⟨hj.1, hj.2, hbytes, hpos, hlen⟩, Bool.or_true]
  case stream =>
    obtain ⟨hulen, hustream, hustale⟩ := execStream_ok hu hok
    have hoffset : j - 4 * (j / 4) = j % 4 := by omega
    rw [peek_of_byte (by rwa [hulen]) ((streamByte_congr hustream j).trans hbyte) (by rw [isStale, hustale]; rfl),
      toNat_field, hoffset]

/-! ### What changes a slot -/

/-- A command that changes a slot is a BUILD of that slot (R234). -/
theorem exec_slotAt_ne {i : Instr} {s t : State} {k : Nat} (h : exec i s = .next t) (hne : slotAt t k ≠ slotAt s k) :
    ∃ slot cnt, i = .build slot cnt ∧ slot.toNat = k := by
  obtain ⟨hnop, hstream, hreadbits, hsetcl, hclrcl, hbuild, hdecode, hrdmain, hrdsub, htinfo⟩ :=
    eachCommandWritesItsStateOnly s t
  have unchanged {u : State} (ht : t = u) (hu : u.slots = s.slots) : ∃ slot cnt, i = .build slot cnt ∧ slot.toNat = k :=
    absurd (slotAt_congr (ht ▸ hu) k) hne
  cases i with
  | nop => exact unchanged (hnop h) rfl
  | stream len => exact unchanged (hstream len h) rfl
  | readbits n => exact unchanged (hreadbits n h) rfl
  | setcl sym cl => exact unchanged (hsetcl sym cl h) rfl
  | clrcl => exact unchanged (hclrcl h) rfl
  | build slot cnt =>
    refine ⟨slot, cnt, rfl, ?_⟩
    by_contra hk
    exact hne ((hbuild slot cnt h).2 k (Ne.symm hk))
  | decode slot => exact unchanged (hdecode slot h) rfl
  | rdmain slot idx => exact unchanged (hrdmain slot idx h) rfl
  | rdsub slot sub idx => exact unchanged (hrdsub slot sub idx h) rfl
  | tinfo slot => exact unchanged (htinfo slot h) rfl

/-- An event that changes a slot is a reset or the write of a BUILD of that slot (R234). -/
theorem takeEvent_slotAt_ne {e : Event} {s t : State} {k : Nat} (h : takeEvent e s = .next t)
    (hne : slotAt t k ≠ slotAt s k) :
    e = .reset ∨ ∃ (w : Word) (slot : BitVec 4) (cnt : BitVec 13), e = .access false (.write 0 4 w) ∧
      decode w = .ok (.build slot cnt) ∧ slot.toNat = k := by
  rcases takeEvent_next h with ⟨hr, -⟩ | ⟨n, -, rfl⟩ | ⟨a, b, d, -, rfl⟩ | ⟨w, hw, hrun⟩ |
    ⟨a, b, v, -, -, ⟨i, rfl⟩ | rfl⟩
  · exact .inl hr
  · exact absurd (slotAt_congr (refill_slots s n) k) hne
  · exact absurd rfl hne
  · rcases runCommand_next hrun with ⟨i, hd, hi⟩ | ⟨-, rfl⟩
    · obtain ⟨slot, cnt, rfl, hk⟩ := exec_slotAt_ne hi hne
      exact .inr ⟨w, slot, cnt, hw, hd, hk⟩
    · exact absurd (slotAt_raise _ s k) hne
  · exact absurd (slotAt_congr (writeStreamWord_slots i v s) k) hne
  · exact absurd rfl hne

/-- Settles O54: the step takes the event, and taking it off the list touches no slot. -/
theorem onlyBuildAndResetChangeASlot : Obligations.OnlyBuildAndResetChangeASlot := by
  intro s t e rest k he h hne
  rw [step_of_events he] at h
  exact takeEvent_slotAt_ne (s := { s with events := rest }) h hne

end Sys2Proof.Machine
